-- ==== Sys2Proof/Word.lean ====
section
/-!
DEFINITION. Numbers, bytes and truncation (00_scope.md R10, R12).

Every register value, cell value and address is an unsigned integer (R10), held as a `Nat`: the widths XLEN
and CELLW are configuration fields (R5, Config.lean), so no type fixes them. A number is cut to a width by `trunc`
where it is written (DESIGN CHOICE, log entry 16).
-/

namespace Sys2Proof

/-- A byte of an image, of an encoding, of a device stream; also the flags register (R12, R27). -/
abbrev Byte := BitVec 8

/-- `trunc_N(v)` of R10: `v mod 2^N` for any integer, so that `trunc 16 (-1) = 0xFFFF`. -/
def trunc (n : Nat) (v : Int) : Nat := (v % ((2 ^ n : Nat) : Int)).toNat

end Sys2Proof
end

