-- ==== Sys2Proof/Config.lean ====
section
/-!
DEFINITION. The implementation parameters of 00_scope.md R5: each is a field of `Config`, read by the machine
wherever the spec names it. The values this hardware takes (`Config.hardware`) stand in Decode.lean, with the
opcode map. `PID`, the type of a process id, is no number a field could hold: it is `Nat`, the unbounded natural
number R5 gives it (D25, log entry 20).

The configuration is fixed for the life of the machine (10_state.md R20). The interface gives `step`
the state alone, so the state carries it beside the architectural fields and nothing writes it
(DESIGN CHOICE, log entry 4).
-/

namespace Sys2Proof

/-- The 64 mnemonics that `OPCODE_MAP` numbers (R5, 30_encoding.md R95). -/
inductive Mnemonic where
  | nop | syscall | lda | ldx | ldy | sta | stx | sty
  | tax | tay | tsx | txa | txs | tya | inc | dec
  | ina | inx | iny | dex | dey | add | sub | mul
  | div | mod | and | ora | xor | shl | lsr | rol
  | ror | bit | jmp | jsr | rts | bcc | bcs | beq
  | bne | bmi | bpl | bvc | bvs | sec | clc | sed
  | cld | clv | pha | php | pla | plp | cmp | cpx
  | cpy | int | rti | clp | swt | hlt | inp | out
  deriving DecidableEq, Repr

/-- `PROT_POLICY`: exactly one of the two policies of the access check (20_memory.md R56, R57).
`KERNEL_THRESHOLD` exists only under `threshold`; the spec gives it no value (R5, U2). -/
inductive ProtPolicy where
  | lazyGrow
  | threshold (kernelThreshold : Nat)
  deriving DecidableEq, Repr

/-- The configuration of a machine (R5). -/
structure Config where
  /-- `XLEN`, the width in bits of a general register, of `pc` and of the data pointer. -/
  xlen : Nat
  /-- `CELLW`, the width in bits of a memory cell. -/
  cellw : Nat
  /-- `MEM_SIZE`, the number of memory cells. -/
  memSize : Nat
  /-- `NREG`, the number of general registers. -/
  nreg : Nat
  /-- `MAX_OPERANDS`, the largest legal operand count. -/
  maxOperands : Nat
  /-- `PROT_POLICY` with its `KERNEL_THRESHOLD`. -/
  policy : ProtPolicy
  /-- `OPCODE_MAP`: entry `k` is the mnemonic of opcode `k` (R96). -/
  opcodeMap : List Mnemonic
  /-- `CAUSE_ARITH`, the cause code of a division or remainder by zero. -/
  causeArith : Nat
  deriving DecidableEq, Repr

/-- The constraint of R6 on the threshold. -/
def ProtPolicy.fits (memSize : Nat) : ProtPolicy → Bool
  | .lazyGrow => true
  | .threshold t => t ≤ memSize

/-- The configurations the spec allows: the constraints of R6, the two parameters the document fixes at 10
(R5), 64 opcodes that keep NOP = 0, LDA = 2, OUT = 63 (R95, R96), and a cause code that a register holds. -/
def Config.wellFormed (c : Config) : Bool :=
  16 ≤ c.xlen && c.cellw = c.xlen && c.memSize = 2 ^ c.xlen && c.policy.fits c.memSize &&
    c.nreg = 10 && c.maxOperands = 10 &&
    c.opcodeMap.length = 64 && decide c.opcodeMap.Nodup && c.opcodeMap[0]? = some .nop &&
    c.opcodeMap[2]? = some .lda && c.opcodeMap[63]? = some .out && c.causeArith < 2 ^ c.xlen

end Sys2Proof
end

