-- ==== Sys2Proof/Syntax.lean ====
section
/-!
DEFINITION. The instructions as data: one constructor of `Instr` per row of spec/opcode_table.json, in the
order of the opcode map (30_encoding.md R96). Every instruction carries the operand pairs its count byte
announced: the count is free of the opcode in the encoding, only `op[0]` of a one-operand opcode is used,
and the length is `2 + 2n` (R80, R81, R97, R98).
-/

namespace Sys2Proof

/-- The four addressing modes (30_encoding.md R85). -/
inductive Mode where
  | register
  | immediate
  | absolute
  | relative
  deriving DecidableEq, Repr

/-- A decoded operand pair: a mode and a 14-bit unsigned value (R82, R84, R86). -/
structure Operand where
  mode : Mode
  value : BitVec 14
  deriving DecidableEq, Repr

/-- The 64 instructions, each with its decoded operands in order. -/
inductive Instr where
  | nop (ops : List Operand)
  | syscall (ops : List Operand)
  | lda (ops : List Operand)
  | ldx (ops : List Operand)
  | ldy (ops : List Operand)
  | sta (ops : List Operand)
  | stx (ops : List Operand)
  | sty (ops : List Operand)
  | tax (ops : List Operand)
  | tay (ops : List Operand)
  | tsx (ops : List Operand)
  | txa (ops : List Operand)
  | txs (ops : List Operand)
  | tya (ops : List Operand)
  | inc (ops : List Operand)
  | dec (ops : List Operand)
  | ina (ops : List Operand)
  | inx (ops : List Operand)
  | iny (ops : List Operand)
  | dex (ops : List Operand)
  | dey (ops : List Operand)
  | add (ops : List Operand)
  | sub (ops : List Operand)
  | mul (ops : List Operand)
  | div (ops : List Operand)
  | mod (ops : List Operand)
  | and (ops : List Operand)
  | ora (ops : List Operand)
  | xor (ops : List Operand)
  | shl (ops : List Operand)
  | lsr (ops : List Operand)
  | rol (ops : List Operand)
  | ror (ops : List Operand)
  | bit (ops : List Operand)
  | jmp (ops : List Operand)
  | jsr (ops : List Operand)
  | rts (ops : List Operand)
  | bcc (ops : List Operand)
  | bcs (ops : List Operand)
  | beq (ops : List Operand)
  | bne (ops : List Operand)
  | bmi (ops : List Operand)
  | bpl (ops : List Operand)
  | bvc (ops : List Operand)
  | bvs (ops : List Operand)
  | sec (ops : List Operand)
  | clc (ops : List Operand)
  | sed (ops : List Operand)
  | cld (ops : List Operand)
  | clv (ops : List Operand)
  | pha (ops : List Operand)
  | php (ops : List Operand)
  | pla (ops : List Operand)
  | plp (ops : List Operand)
  | cmp (ops : List Operand)
  | cpx (ops : List Operand)
  | cpy (ops : List Operand)
  | int (ops : List Operand)
  | rti (ops : List Operand)
  | clp (ops : List Operand)
  | swt (ops : List Operand)
  | hlt (ops : List Operand)
  | inp (ops : List Operand)
  | out (ops : List Operand)
  deriving DecidableEq, Repr

/-- The decoded operands of an instruction, `op[0]` first. -/
def Instr.operands : Instr → List Operand
  | .nop ops => ops
  | .syscall ops => ops
  | .lda ops => ops
  | .ldx ops => ops
  | .ldy ops => ops
  | .sta ops => ops
  | .stx ops => ops
  | .sty ops => ops
  | .tax ops => ops
  | .tay ops => ops
  | .tsx ops => ops
  | .txa ops => ops
  | .txs ops => ops
  | .tya ops => ops
  | .inc ops => ops
  | .dec ops => ops
  | .ina ops => ops
  | .inx ops => ops
  | .iny ops => ops
  | .dex ops => ops
  | .dey ops => ops
  | .add ops => ops
  | .sub ops => ops
  | .mul ops => ops
  | .div ops => ops
  | .mod ops => ops
  | .and ops => ops
  | .ora ops => ops
  | .xor ops => ops
  | .shl ops => ops
  | .lsr ops => ops
  | .rol ops => ops
  | .ror ops => ops
  | .bit ops => ops
  | .jmp ops => ops
  | .jsr ops => ops
  | .rts ops => ops
  | .bcc ops => ops
  | .bcs ops => ops
  | .beq ops => ops
  | .bne ops => ops
  | .bmi ops => ops
  | .bpl ops => ops
  | .bvc ops => ops
  | .bvs ops => ops
  | .sec ops => ops
  | .clc ops => ops
  | .sed ops => ops
  | .cld ops => ops
  | .clv ops => ops
  | .pha ops => ops
  | .php ops => ops
  | .pla ops => ops
  | .plp ops => ops
  | .cmp ops => ops
  | .cpx ops => ops
  | .cpy ops => ops
  | .int ops => ops
  | .rti ops => ops
  | .clp ops => ops
  | .swt ops => ops
  | .hlt ops => ops
  | .inp ops => ops
  | .out ops => ops

/-- The operand count `n` of the instruction's count byte (R80). -/
def Instr.count (i : Instr) : Nat := i.operands.length

/-- The length in cells, `2 + 2n` (R81). -/
def Instr.length (i : Instr) : Nat := 2 + 2 * i.count

end Sys2Proof
end

