-- ==== Sys2Proof/WellFormed.lean ====
section
/-!
DEFINITION. Which instructions have an encoding, and which have the operands their meaning needs.
-/

namespace Sys2Proof

/-- The number of operands each opcode uses (30_encoding.md R97). -/
def Instr.arity : Instr → Nat
  | .nop _ => 0
  | .syscall _ => 0
  | .lda _ => 1
  | .ldx _ => 1
  | .ldy _ => 1
  | .sta _ => 1
  | .stx _ => 1
  | .sty _ => 1
  | .tax _ => 0
  | .tay _ => 0
  | .tsx _ => 0
  | .txa _ => 0
  | .txs _ => 0
  | .tya _ => 0
  | .inc _ => 1
  | .dec _ => 1
  | .ina _ => 0
  | .inx _ => 0
  | .iny _ => 0
  | .dex _ => 0
  | .dey _ => 0
  | .add _ => 1
  | .sub _ => 1
  | .mul _ => 1
  | .div _ => 1
  | .mod _ => 1
  | .and _ => 1
  | .ora _ => 1
  | .xor _ => 1
  | .shl _ => 0
  | .lsr _ => 0
  | .rol _ => 0
  | .ror _ => 0
  | .bit _ => 1
  | .jmp _ => 1
  | .jsr _ => 1
  | .rts _ => 0
  | .bcc _ => 1
  | .bcs _ => 1
  | .beq _ => 1
  | .bne _ => 1
  | .bmi _ => 1
  | .bpl _ => 1
  | .bvc _ => 1
  | .bvs _ => 1
  | .sec _ => 0
  | .clc _ => 0
  | .sed _ => 0
  | .cld _ => 0
  | .clv _ => 0
  | .pha _ => 0
  | .php _ => 0
  | .pla _ => 0
  | .plp _ => 0
  | .cmp _ => 1
  | .cpx _ => 1
  | .cpy _ => 1
  | .int _ => 0
  | .rti _ => 0
  | .clp _ => 0
  | .swt _ => 0
  | .hlt _ => 0
  | .inp _ => 0
  | .out _ => 0

/-- The encodable instructions: the operand count is within the bound `MAX_OPERANDS` (00_scope.md R5, R80, R92
step 4). The mode and the 14-bit value of each operand are in range by their types. -/
def Instr.wellFormed (c : Config) (i : Instr) : Bool := i.count ≤ c.maxOperands

/-- The count is not below the arity (R92 step 8, R98). An instruction that fails this is decoded and its
meaning raises `Trap(InvalidOperandCount)`. -/
def Instr.hasOperands (i : Instr) : Bool := i.arity ≤ i.count

end Sys2Proof
end

