-- ==== Sys2Proof/Decode.lean ====
section
/-!
DEFINITION. The decoder, total on any cell values and rejecting by name, and after it the encoder
(30_encoding.md R80 to R99). A stream element is a whole cell: the range checks of the header are
made on the whole cell and an operand cell above 255 is rejected (R92, R94). The opcode map and the bound on the
operand count are those of the configuration (00_scope.md R5, R96).

The arity check of R92 step 8 is not made here: an instruction with too few operands is decoded as that
instruction, and its meaning raises the trap its own rule lists (log entry 10).
-/

namespace Sys2Proof

/-- The opcode map of R96, the value this hardware takes for `OPCODE_MAP`: entry `k` is the mnemonic of
opcode `k`. The numbers other than 0, 2 and 63 are the spec's own (D6, log entry 17). -/
def hardwareOpcodeMap : List Mnemonic :=
  [Mnemonic.nop, Mnemonic.syscall, Mnemonic.lda, Mnemonic.ldx,
   Mnemonic.ldy, Mnemonic.sta, Mnemonic.stx, Mnemonic.sty] ++
  [Mnemonic.tax, Mnemonic.tay, Mnemonic.tsx, Mnemonic.txa,
   Mnemonic.txs, Mnemonic.tya, Mnemonic.inc, Mnemonic.dec] ++
  [Mnemonic.ina, Mnemonic.inx, Mnemonic.iny, Mnemonic.dex,
   Mnemonic.dey, Mnemonic.add, Mnemonic.sub, Mnemonic.mul] ++
  [Mnemonic.div, Mnemonic.mod, Mnemonic.and, Mnemonic.ora,
   Mnemonic.xor, Mnemonic.shl, Mnemonic.lsr, Mnemonic.rol] ++
  [Mnemonic.ror, Mnemonic.bit, Mnemonic.jmp, Mnemonic.jsr,
   Mnemonic.rts, Mnemonic.bcc, Mnemonic.bcs, Mnemonic.beq] ++
  [Mnemonic.bne, Mnemonic.bmi, Mnemonic.bpl, Mnemonic.bvc,
   Mnemonic.bvs, Mnemonic.sec, Mnemonic.clc, Mnemonic.sed] ++
  [Mnemonic.cld, Mnemonic.clv, Mnemonic.pha, Mnemonic.php,
   Mnemonic.pla, Mnemonic.plp, Mnemonic.cmp, Mnemonic.cpx] ++
  [Mnemonic.cpy, Mnemonic.int, Mnemonic.rti, Mnemonic.clp,
   Mnemonic.swt, Mnemonic.hlt, Mnemonic.inp, Mnemonic.out]

/-- The values this hardware takes for the parameters of 00_scope.md R5. -/
def Config.hardware : Config :=
  { xlen := 16
    cellw := 16
    memSize := 65536
    nreg := 10
    maxOperands := 10
    policy := .lazyGrow
    opcodeMap := hardwareOpcodeMap
    causeArith := 5 }

/-- The instruction of a mnemonic with its decoded operands. -/
def Mnemonic.make (m : Mnemonic) (ops : List Operand) : Instr :=
  match m with
  | .nop => .nop ops
  | .syscall => .syscall ops
  | .lda => .lda ops
  | .ldx => .ldx ops
  | .ldy => .ldy ops
  | .sta => .sta ops
  | .stx => .stx ops
  | .sty => .sty ops
  | .tax => .tax ops
  | .tay => .tay ops
  | .tsx => .tsx ops
  | .txa => .txa ops
  | .txs => .txs ops
  | .tya => .tya ops
  | .inc => .inc ops
  | .dec => .dec ops
  | .ina => .ina ops
  | .inx => .inx ops
  | .iny => .iny ops
  | .dex => .dex ops
  | .dey => .dey ops
  | .add => .add ops
  | .sub => .sub ops
  | .mul => .mul ops
  | .div => .div ops
  | .mod => .mod ops
  | .and => .and ops
  | .ora => .ora ops
  | .xor => .xor ops
  | .shl => .shl ops
  | .lsr => .lsr ops
  | .rol => .rol ops
  | .ror => .ror ops
  | .bit => .bit ops
  | .jmp => .jmp ops
  | .jsr => .jsr ops
  | .rts => .rts ops
  | .bcc => .bcc ops
  | .bcs => .bcs ops
  | .beq => .beq ops
  | .bne => .bne ops
  | .bmi => .bmi ops
  | .bpl => .bpl ops
  | .bvc => .bvc ops
  | .bvs => .bvs ops
  | .sec => .sec ops
  | .clc => .clc ops
  | .sed => .sed ops
  | .cld => .cld ops
  | .clv => .clv ops
  | .pha => .pha ops
  | .php => .php ops
  | .pla => .pla ops
  | .plp => .plp ops
  | .cmp => .cmp ops
  | .cpx => .cpx ops
  | .cpy => .cpy ops
  | .int => .int ops
  | .rti => .rti ops
  | .clp => .clp ops
  | .swt => .swt ops
  | .hlt => .hlt ops
  | .inp => .inp ops
  | .out => .out ops

/-- The mnemonic of an instruction. -/
def Instr.mnemonic : Instr → Mnemonic
  | .nop _ => .nop
  | .syscall _ => .syscall
  | .lda _ => .lda
  | .ldx _ => .ldx
  | .ldy _ => .ldy
  | .sta _ => .sta
  | .stx _ => .stx
  | .sty _ => .sty
  | .tax _ => .tax
  | .tay _ => .tay
  | .tsx _ => .tsx
  | .txa _ => .txa
  | .txs _ => .txs
  | .tya _ => .tya
  | .inc _ => .inc
  | .dec _ => .dec
  | .ina _ => .ina
  | .inx _ => .inx
  | .iny _ => .iny
  | .dex _ => .dex
  | .dey _ => .dey
  | .add _ => .add
  | .sub _ => .sub
  | .mul _ => .mul
  | .div _ => .div
  | .mod _ => .mod
  | .and _ => .and
  | .ora _ => .ora
  | .xor _ => .xor
  | .shl _ => .shl
  | .lsr _ => .lsr
  | .rol _ => .rol
  | .ror _ => .ror
  | .bit _ => .bit
  | .jmp _ => .jmp
  | .jsr _ => .jsr
  | .rts _ => .rts
  | .bcc _ => .bcc
  | .bcs _ => .bcs
  | .beq _ => .beq
  | .bne _ => .bne
  | .bmi _ => .bmi
  | .bpl _ => .bpl
  | .bvc _ => .bvc
  | .bvs _ => .bvs
  | .sec _ => .sec
  | .clc _ => .clc
  | .sed _ => .sed
  | .cld _ => .cld
  | .clv _ => .clv
  | .pha _ => .pha
  | .php _ => .php
  | .pla _ => .pla
  | .plp _ => .plp
  | .cmp _ => .cmp
  | .cpx _ => .cpx
  | .cpy _ => .cpy
  | .int _ => .int
  | .rti _ => .rti
  | .clp _ => .clp
  | .swt _ => .swt
  | .hlt _ => .hlt
  | .inp _ => .inp
  | .out _ => .out

/-- The opcode number of an instruction under an opcode map (R96): the place of its mnemonic in the map. -/
def Config.opcodeOf (c : Config) (i : Instr) : Nat := c.opcodeMap.idxOf i.mnemonic

/-- Why a stream of cells is not an instruction, by name (R99). -/
inductive DecodeError where
  /-- The count cell is above 10 (R92 step 4): raised as `Trap(InvalidOperandCount)`. -/
  | invalidOperandCount
  /-- The opcode cell is above 63 (R92 step 5): raised as `Trap(IllegalInstruction)`. -/
  | noMapping
  /-- An operand cell is above 255 (R92 step 7, R94): raised as `Trap(IllegalInstruction)`. -/
  | notAByte
  /-- The header or the operand cells do not fit (R92 steps 2 and 6): raised as `Fatal(EndOfMemory)`. -/
  | endOfStream
  deriving DecidableEq, Repr

/-- The mode field `byte1[7:6]` (R82, R85). -/
def decodeMode (bits : BitVec 2) : Mode :=
  if bits = 0b00#2 then .register
  else if bits = 0b01#2 then .immediate
  else if bits = 0b10#2 then .absolute
  else .relative

/-- `decode(byte1, byte2)` of R84: big-endian, total on byte pairs. -/
def decodeOperand (byte1 byte2 : Byte) : Operand :=
  { mode := decodeMode (byte1.extractLsb' 6 2), value := byte1.extractLsb' 0 6 ++ byte2 }

/-- An operand pair read from two cells: both are bytes, or the pair is rejected (R92 step 7, R94). -/
def decodePair (c1 c2 : Nat) : Except DecodeError Operand :=
  if 255 < c1 ∨ 255 < c2 then .error .notAByte
  else .ok (decodeOperand (BitVec.ofNat 8 c1) (BitVec.ofNat 8 c2))

/-- The two header cells: the operand count and the mnemonic, count checked first (R92 steps 4 and 5, on whole
cell values). -/
def decodeHeader (c : Config) (c0 c1 : Nat) : Except DecodeError (Nat × Mnemonic) :=
  if c.maxOperands < c0 then .error .invalidOperandCount
  else match c.opcodeMap[c1]? with
    | none => .error .noMapping
    | some m => .ok (c0, m)

/-- `n` operand pairs from the front of a stream (R92 step 7). -/
def decodeOperands : Nat → List Nat → Except DecodeError (List Operand × List Nat)
  | 0, cells => .ok ([], cells)
  | n + 1, c1 :: c2 :: cells =>
    match decodePair c1 c2 with
    | .error e => .error e
    | .ok op =>
      match decodeOperands n cells with
      | .error e => .error e
      | .ok (ops, rest) => .ok (op :: ops, rest)
  | _ + 1, _ => .error .endOfStream

/-- The instruction at the front of a stream of cells and the cells after it, the checks in the order of
R92: header fits, count, opcode, operands fit, operand bytes. -/
def decode (c : Config) : List Nat → Except DecodeError (Instr × List Nat)
  | c0 :: c1 :: cells =>
    match decodeHeader c c0 c1 with
    | .error e => .error e
    | .ok (n, m) =>
      if cells.length < 2 * n then .error .endOfStream
      else
        match decodeOperands n cells with
        | .error e => .error e
        | .ok (ops, rest) => .ok (m.make ops, rest)
  | _ => .error .endOfStream

/-! ### The encoder (the producer's half of the contract, R83) -/

/-- The two mode bits (R85). -/
def Mode.bits : Mode → BitVec 2
  | .register => 0b00#2
  | .immediate => 0b01#2
  | .absolute => 0b10#2
  | .relative => 0b11#2

/-- `encode(mode, value)` of R83: a value outside 14 bits is masked, never rejected. -/
def encodePair (mode : Mode) (value : Nat) : Byte × Byte :=
  let v : BitVec 14 := BitVec.ofNat 14 value
  (mode.bits ++ v.extractLsb' 8 6, v.extractLsb' 0 8)

/-- The two bytes of a decoded operand, `byte1` first. -/
def encodeOperand (op : Operand) : List Byte :=
  let b := encodePair op.mode op.value.toNat
  [b.1, b.2]

/-- The bytes of an instruction in address order: count, opcode, operand pairs (R80). -/
def encode (c : Config) (i : Instr) : List Byte :=
  BitVec.ofNat 8 i.count :: BitVec.ofNat 8 (c.opcodeOf i) :: i.operands.flatMap encodeOperand

/-- The cells the encoding occupies, one byte a cell, zero-extended (R12, R253). -/
def encodeCells (c : Config) (i : Instr) : List Nat := (encode c i).map BitVec.toNat

/-! ### Table words -/

/-- The most cells an instruction takes: `2 + 2 * MAX_OPERANDS` (R81). -/
def Config.maxLength (c : Config) : Nat := 2 + 2 * c.maxOperands

/-- The cells of an instruction given as a number in the numbering of spec/opcode_table.json: 16-bit words,
the first in bits 15..0, each stored with its more significant byte at the lower address (R80); bits at
`nbits` and above are 0. The longest instruction of this hardware has 22 cells. -/
def tableCells (nbits w : Nat) : List Nat :=
  (List.range 11).flatMap fun j =>
    let word := (w % 2 ^ nbits) / 2 ^ (16 * j) % 65536
    [word / 256, word % 256]

/-- The instruction the decoder of this hardware reads from such a number, none where it rejects. -/
def decodeTableWord (nbits w : Nat) : Option Instr :=
  match decode Config.hardware (tableCells nbits w) with
  | .ok (i, _) => some i
  | .error _ => none

end Sys2Proof
end

