-- ==== Sys2Proof/Machine/State.lean ====
section
/-!
DEFINITION. The machine's state as plain data: the aggregate of 10_state.md R20, every piece the spec gives
the machine, and the values after Reset (R39). Finite maps are lists of (key, value) pairs with strictly
rising keys. Machine/Table.lean holds their operations.
-/

namespace Sys2Proof.Machine

/-- The ten general registers by name, index 0 to 9 in this order (10_state.md R21, R22). -/
inductive Reg where
  | a | s1 | s2 | s3 | s4 | s5 | x | y | aux | sp
  deriving DecidableEq, Repr

/-- The ten general registers in the order of their indices (R22). -/
abbrev Reg.all : List Reg := [.a, .s1, .s2, .s3, .s4, .s5, .x, .y, .aux, .sp]

/-- A register file: the ten general registers, `pc`, `F` and `DS` of one process (R21, R25, R27, R30, R31).
All but `F` are XLEN-bit unsigned integers: every write cuts them to XLEN bits, and `State.wf` says that they
are in range. -/
structure RegFile where
  /-- `x[0]`, the accumulator `A`. -/
  a : Nat
  /-- `x[1]` to `x[5]`, the scratch registers. -/
  s1 : Nat
  s2 : Nat
  s3 : Nat
  s4 : Nat
  s5 : Nat
  /-- `x[6]`, the first index register `X`. -/
  x : Nat
  /-- `x[7]`, the second index register `Y`. -/
  y : Nat
  /-- `x[8]`, the auxiliary register. -/
  aux : Nat
  /-- `x[9]`, the stack pointer `SP`. -/
  sp : Nat
  /-- The program counter (R25). -/
  pc : Nat
  /-- The flags register `F` (R27): C bit 0, Z bit 1, D bit 3, V bit 6, N bit 7. -/
  f : Byte
  /-- The data pointer `DS` (R30). -/
  ds : Nat
  deriving DecidableEq, Repr

/-- The register file of process 0 after Reset and of an admitted process: all zero (R39, R40). -/
def RegFile.zero : RegFile :=
  { a := 0, s1 := 0, s2 := 0, s3 := 0, s4 := 0, s5 := 0, x := 0, y := 0, aux := 0, sp := 0,
    pc := 0, f := 0, ds := 0 }

/-- A run of consecutive addresses, half open: it covers `start <= a < stop` (R35, 20_memory.md R58). -/
structure Extent where
  start : Nat
  stop : Nat
  deriving DecidableEq, Repr

/-- The event `Exit(pid, status)` that HLT produces (R37). -/
structure ExitEvent where
  pid : Nat
  status : Nat
  deriving DecidableEq, Repr

/-- The reasons of a fatal stop, in full (60_exceptions.md R234). -/
inductive FatalReason where
  | endOfMemory
  | imageTooLarge
  deriving DecidableEq, Repr

/-- The run state `RUN` (R36): `Running`, `Stopped(Halted)`, `Stopped(Fatal(reason))`. -/
inductive RunState where
  | running
  | halted
  | fatal (reason : FatalReason)
  deriving DecidableEq, Repr

/-- The memory array (R34): the cells that are not 0, as (address, cell) pairs with strictly rising
addresses. An unlisted address reads as 0, the value R39 gives every cell. A cell is CELLW bits (R51),
16 on this hardware, so the pairs are not the interface's 8-bit cells (log entries 1 and 2). -/
abbrev Memory := List (Nat × Nat)

/-- The whole state of the machine (R20). -/
structure State where
  /-- The process table: process id to register file (R31). -/
  proc : List (Nat × RegFile)
  /-- `CUR`, the id of the current process (R32). -/
  cur : Nat
  /-- `PRIV`, true in privileged mode (R33). -/
  priv : Bool
  /-- Memory (R34). -/
  mem : Memory
  /-- The allocation table: process id to its extents (R35, R58). A process that owns nothing has no entry. -/
  owned : List (Nat × List Extent)
  /-- `RUN` (R36). -/
  run : RunState
  /-- Input units supplied and not yet consumed (R37). -/
  inq : List Byte
  /-- Output units produced, in order (R37). -/
  outq : List Byte
  /-- Exit events produced, in order (R37). -/
  exits : List ExitEvent
  /-- The machine's fixed parameters, which nothing writes (00_scope.md R5, log entry 4). -/
  config : Config
  deriving DecidableEq, Repr

/-- The faults of the model. -/
inductive Fault where
  /-- Raised by `step`, and by nothing else, when the machine stands in `Stopped(Fatal(reason))`:
  60_exceptions.md R233 has a model treat it as a fault state that only Reset leaves. Safe: the
  machine has no behaviour there (log entry 6). -/
  | stopped (reason : FatalReason)
  deriving DecidableEq, Repr

/-- The refusals of the model. -/
inductive Refusal where
  /-- Raised by `exec` for an instruction with no meaning yet. No arm of `exec` raises it. Safe. -/
  | notModelled (mnemonic : String)
  deriving DecidableEq, Repr

/-- What an instruction's meaning answers. -/
abbrev Result := Host.Outcome State Fault Refusal

/-- The machine right after Reset (10_state.md R39, 70_reset_and_hazards.md R250), with the configuration
of this hardware. -/
def State.reset : State :=
  { proc := [(0, RegFile.zero)]
    cur := 0
    priv := true
    mem := []
    owned := []
    run := .running
    inq := []
    outq := []
    exits := []
    config := Config.hardware }

end Sys2Proof.Machine
end

