-- ==== Sys2Proof/Machine/Table.lean ====
section
/-!
DEFINITION. Finite maps from natural numbers as lists of pairs with strictly rising keys, and sets of
addresses as lists of extents. The process table, memory and the allocation table are held this way.
-/

namespace Sys2Proof.Machine

/-- The value under a key. -/
def tableFind {α : Type} : List (Nat × α) → Nat → Option α
  | [], _ => none
  | (j, v) :: t, k => if j = k then some v else tableFind t k

/-- The table with `k` mapped to `v`, keys kept rising. -/
def tablePut {α : Type} : List (Nat × α) → Nat → α → List (Nat × α)
  | [], k, v => [(k, v)]
  | (j, w) :: t, k, v =>
    if k < j then (k, v) :: (j, w) :: t
    else if k = j then (k, v) :: t
    else (j, w) :: tablePut t k v

/-- The table without the key `k`. -/
def tableErase {α : Type} (t : List (Nat × α)) (k : Nat) : List (Nat × α) :=
  t.filter fun e => e.1 ≠ k

/-- The canonical form of a table: keys strictly rising. -/
abbrev TableSorted {α : Type} (t : List (Nat × α)) : Prop := t.Pairwise fun e e' => e.1 < e'.1

/-- The address `a` lies in one of the extents (20_memory.md R58). -/
def covers (l : List Extent) (a : Nat) : Bool :=
  l.any fun e => e.start ≤ a && a < e.stop

/-- The extents after adding the range `[start, stop)`: set union, so that extents that touch or overlap
the range are merged with it (20_memory.md R59, conflict C4). -/
def addExtent : List Extent → Nat → Nat → List Extent
  | [], start, stop => [{ start, stop }]
  | e :: l, start, stop =>
    if stop < e.start then { start, stop } :: e :: l
    else if e.stop < start then e :: addExtent l start stop
    else addExtent l (min e.start start) (max e.stop stop)

/-- The canonical form of a process's extents in a memory of `size` cells: each holds an address of memory, and
any two are separated by at least one address, the lower first, so that they are the maximal runs of the set
(R35, R58). -/
abbrev ExtentsWf (size : Nat) (l : List Extent) : Prop :=
  (∀ e ∈ l, e.start < e.stop ∧ e.stop ≤ size) ∧ l.Pairwise fun e e' => e.stop < e'.start

end Sys2Proof.Machine
end

