-- ==== Sys2Proof/Machine/Ops.lean ====
section
/-!
DEFINITION. The named operations over registers, memory, the allocation table and the process table, the
access check, the stack, the end of a plain step, and trap entry with the operations beside it.
Everything an instruction or the host does to the state goes through these.
-/

namespace Sys2Proof.Machine

/-! ### Registers -/

/-- Read a general register of a register file (10_state.md R21). -/
def RegFile.get (rf : RegFile) : Reg → Nat
  | .a => rf.a
  | .s1 => rf.s1
  | .s2 => rf.s2
  | .s3 => rf.s3
  | .s4 => rf.s4
  | .s5 => rf.s5
  | .x => rf.x
  | .y => rf.y
  | .aux => rf.aux
  | .sp => rf.sp

/-- Write a general register of a register file (R21: none is hardwired). -/
def RegFile.set (rf : RegFile) (r : Reg) (v : Nat) : RegFile :=
  match r with
  | .a => { rf with a := v }
  | .s1 => { rf with s1 := v }
  | .s2 => { rf with s2 := v }
  | .s3 => { rf with s3 := v }
  | .s4 => { rf with s4 := v }
  | .s5 => { rf with s5 := v }
  | .x => { rf with x := v }
  | .y => { rf with y := v }
  | .aux => { rf with aux := v }
  | .sp => { rf with sp := v }

/-- The process is in the process table (R31). -/
def State.hasProc (s : State) (p : Nat) : Bool := (tableFind s.proc p).isSome

/-- The register file `proc[p]`. A process that is not in the table reads as all zero; no rule reads one
(DESIGN CHOICE, log entry 9). -/
def State.file (s : State) (p : Nat) : RegFile := (tableFind s.proc p).getD RegFile.zero

/-- Replace the register file `proc[p]`. -/
def State.setFile (s : State) (p : Nat) (rf : RegFile) : State :=
  { s with proc := tablePut s.proc p rf }

/-- General register `r` of the current process (00_scope.md R11). -/
def State.reg (s : State) (r : Reg) : Nat := (s.file s.cur).get r

/-- `x[i] <- v`: write `trunc_XLEN(v)` to general register `r` of the current process (00_scope.md R11). -/
def State.setReg (s : State) (r : Reg) (v : Int) : State :=
  s.setFile s.cur ((s.file s.cur).set r (trunc s.config.xlen v))

/-- The program counter of the current process (R25). -/
def State.pc (s : State) : Nat := (s.file s.cur).pc

/-- `pc <- v`: write `trunc_XLEN(v)` to the program counter of the current process (00_scope.md R11). -/
def State.setPc (s : State) (v : Int) : State :=
  s.setFile s.cur { s.file s.cur with pc := trunc s.config.xlen v }

/-- The flags register of the current process (R27). -/
def State.flags (s : State) : Byte := (s.file s.cur).f

/-- Write the flags register of the current process. -/
def State.setFlags (s : State) (v : Byte) : State :=
  s.setFile s.cur { s.file s.cur with f := v }

/-! ### Privilege, the streams and the exit events -/

/-- Write `PRIV` (R33). -/
def State.setPriv (s : State) (b : Bool) : State := { s with priv := b }

/-- Replace the input units supplied and not yet consumed (R37). -/
def State.setInput (s : State) (units : List Byte) : State := { s with inq := units }

/-- Append one output unit (R37). -/
def State.emit (s : State) (u : Byte) : State := { s with outq := s.outq ++ [u] }

/-- Append one exit event (R37). -/
def State.report (s : State) (e : ExitEvent) : State := { s with exits := s.exits ++ [e] }

/-! ### Memory cells -/

/-- What a cell holds; an unlisted cell holds 0 (10_state.md R34, R39). -/
def Memory.read (m : Memory) (addr : Nat) : Nat := (tableFind m addr).getD 0

/-- The memory with one cell changed, in canonical form: a cell that becomes 0 is unlisted. -/
def Memory.write (m : Memory) (addr v : Nat) : Memory :=
  if v = 0 then tableErase m addr else tablePut m addr v

/-- The canonical form of memory: addresses strictly rising and inside memory, every listed cell in the range
of CELLW bits (R51) and not 0. -/
abbrev Memory.wf (c : Config) (m : Memory) : Prop :=
  TableSorted m ∧ ∀ e ∈ m, e.1 < c.memSize ∧ e.2 < 2 ^ c.cellw ∧ e.2 ≠ 0

/-- What cell `addr` holds, with no access made. -/
def State.cell (s : State) (addr : Nat) : Nat := s.mem.read addr

/-- Store `trunc_CELLW(v)` in cell `addr` (00_scope.md R11), with no access made. -/
def State.setCell (s : State) (addr : Nat) (v : Int) : State :=
  { s with mem := s.mem.write addr (trunc s.config.cellw v) }

/-! ### The allocation table (20_memory.md R58 to R60) -/

/-- The extents of process `p`. -/
def State.extents (s : State) (p : Nat) : List Extent := (tableFind s.owned p).getD []

/-- Process `p` owns the address `a` (R58). -/
def State.owns (s : State) (p a : Nat) : Bool := covers (s.extents p) a

/-- `allocate(pid, address, size)` of R59 for `size >= 1`: set union. -/
def State.allocate (s : State) (p addr size : Nat) : State :=
  { s with owned := tablePut s.owned p (addExtent (s.extents p) addr (addr + size)) }

/-- `release(pid)` of R60: every extent of the process is removed, no cell is written. -/
def State.release (s : State) (p : Nat) : State :=
  { s with owned := tableErase s.owned p }

/-! ### The access check and the memory primitives (20_memory.md R54 to R57) -/

/-- `Check(addr)`: none where the access is denied, else the state with the growth the check made.
Privileged: permitted (R56 item 1). `LazyGrow`: permitted, an address not owned is added to
`owned[CUR]` (R56). `Threshold`: denied below the threshold (R57). -/
def State.check (s : State) (addr : Nat) : Option State :=
  if s.priv then some s
  else match s.config.policy with
    | .lazyGrow =>
      if s.owns s.cur addr then some s else some (s.allocate s.cur addr 1)
    | .threshold t => if addr < t then none else some s

/-- `MemRead(addr, 1)` of R55; none where the check denies. -/
def memRead (addr : Nat) (s : State) : Option (Nat × State) :=
  match s.check addr with
  | none => none
  | some s' => some (s'.cell addr, s')

/-- `MemWrite(addr, 1, v)` of R55; none where the check denies, and then nothing is written. -/
def memWrite (addr : Nat) (v : Int) (s : State) : Option State :=
  match s.check addr with
  | none => none
  | some s' => some (s'.setCell addr v)

/-! ### The stack (44_flags_stack_compare.md R186) -/

/-- `Push(v)`: write the cell `SP`, then decrement `SP` modulo 2^XLEN; none where the write is denied. -/
def push (v : Nat) (s : State) : Option State :=
  match memWrite (s.reg .sp) v s with
  | none => none
  | some s' => some (s'.setReg .sp (s.reg .sp - 1))

/-- The cell `Pop` reads: `trunc_XLEN(SP + 1)`. -/
def State.stackTop (s : State) : Nat := trunc s.config.xlen (s.reg .sp + 1)

/-- `Pop()`: read the cell `SP + 1`, then `SP` becomes that address; none where the read is denied. -/
def pop (s : State) : Option (Nat × State) :=
  match memRead s.stackTop s with
  | none => none
  | some (v, s') => some (v, s'.setReg .sp s.stackTop)

/-! ### Traps (60_exceptions.md) -/

/-- The causes of a trap (R220). -/
inductive Cause where
  | syscall
  | illegalInstruction
  | memoryViolation
  | invalidProcessId
  | invalidOperandCount
  | arithmeticFault
  /-- INT raises the value of `A`. -/
  | software (v : Nat)
  deriving DecidableEq, Repr

/-- The code of a cause (R220); ArithmeticFault is the parameter `CAUSE_ARITH`. -/
def Cause.code (c : Config) : Cause → Nat
  | .syscall => 0
  | .illegalInstruction => 1
  | .memoryViolation => 2
  | .invalidProcessId => 3
  | .invalidOperandCount => 4
  | .arithmeticFault => c.causeArith
  | .software v => v

/-- `TrapEntry(cause)` of R224: `CUR <- 0`, `PRIV <- 1`, `trunc_XLEN(cause)` into the accumulator of process 0,
`RUN <- Running`, and nothing else. No register is saved and no vector is read: the next step fetches at
the `pc` process 0 has (R222, R225, R226). -/
def trapEntry (c : Cause) (s : State) : State :=
  { s.setFile 0 ((s.file 0).set .a (trunc s.config.xlen (c.code s.config))) with
    cur := 0, priv := true, run := .running }

/-- `raise Trap(cause)` inside an instruction: the step ends in the trap (00_scope.md R11). The state is
the one before the instruction's first write, with the growth its permitted accesses made (R223). -/
def raiseTrap (c : Cause) (s : State) : Result := .next (trapEntry c s)

/-- `raise Fatal(reason)` of R233: only `RUN` changes. The event on the fatal interface is the reason that
`RUN` holds (log entry 19). -/
def raiseFatal (r : FatalReason) (s : State) : State := { s with run := .fatal r }

/-- The return beside trap entry, shared by RTS and RTI (43_control_transfer.md R163, R202): pop `pc` from
the current process's own stack. RTI restores nothing else (60_exceptions.md R229). -/
def returnPop (s : State) : Result :=
  match pop s with
  | none => raiseTrap .memoryViolation s
  | some (v, s') => .next (s'.setPc v)

/-! ### The end of a step (30_encoding.md R92 step 10, 10_state.md R26) -/

/-- `p + 2 + 2n`, the address after the instruction at `pc` with `n` operands, before it is cut to XLEN bits. -/
def State.nextPc (s : State) (n : Nat) : Nat := s.pc + 2 + 2 * n

/-- Step 10 for an instruction that did not redirect: `pc` advances by `2 + 2n` modulo 2^XLEN, and the machine
stops when the successor address lies at or beyond the end of memory. -/
def advance (n : Nat) (s : State) : State :=
  let s' := s.setPc (s.nextPc n)
  if s.nextPc n ≥ s.config.memSize then raiseFatal .endOfMemory s' else s'

/-- A plain instruction ends: its effects are in `s`, and `pc` advances past its `n` operands. -/
def finish (n : Nat) (s : State) : Result := .next (advance n s)

/-! ### Processes -/

/-- A process leaves the table: its extents are released and its register file is destroyed
(45_privileged_io_system.md R205, 60_exceptions.md R237). -/
def State.removeProc (s : State) (p : Nat) : State :=
  { s.release p with proc := tableErase s.proc p }

end Sys2Proof.Machine
end

