-- ==== Sys2Proof/Machine/Flags.lean ====
section
/-!
DEFINITION. The flags register and every flag computation of the spec (10_state.md R27 to R29,
42_shift_rotate_test.md R155, 44_flags_stack_compare.md R180 to R191).
-/

namespace Sys2Proof.Machine

/-- Bit 0 (R27). -/
abbrev flagC : Byte := 0x01
/-- Bit 1 (R27). -/
abbrev flagZ : Byte := 0x02
/-- Bit 3 (R27). -/
abbrev flagD : Byte := 0x08
/-- Bit 6 (R27). -/
abbrev flagV : Byte := 0x40
/-- Bit 7 (R27). -/
abbrev flagN : Byte := 0x80

/-- `FMASK`, the mask of the defined bits (R27). -/
abbrev flagMask : Byte := 0xCB

/-- The flag of mask `m` is set in `f`. -/
def flagIsSet (m f : Byte) : Bool := f &&& m ≠ 0

/-- `f` with the flag of mask `m` set, no other bit changed. -/
def setFlag (m f : Byte) : Byte := f ||| m

/-- `f` with the flag of mask `m` cleared, no other bit changed. -/
def clearFlag (m f : Byte) : Byte := f &&& ~~~m

/-- The flags after a compare of register value `r` with operand `m`, built from nothing (R191): Zero iff
equal, Carry iff `r >= m`, Negative iff `r < m` as unsigned numbers. -/
def compareFlags (r m : Nat) : Byte :=
  (if r = m then flagZ else 0) ||| (if r ≥ m then flagC else 0) |||
    (if r < m then flagN else 0)

/-- The flags after BIT: Zero from `a & m`, no other bit changed (R155). -/
def bitTestFlags (f : Byte) (a m : Nat) : Byte :=
  if a &&& m = 0 then setFlag flagZ f else clearFlag flagZ f

/-- The flags PLP loads from a cell: bits 0, 1, 3, 6, 7, the rest dropped (R29, R190). -/
def flagsOfCell (v : Nat) : Byte := BitVec.ofNat 8 v &&& flagMask

end Sys2Proof.Machine
end

