-- ==== Sys2Proof/Machine/Operands.lean ====
section
/-!
DEFINITION. The operand forms: source and control-transfer operands, destinations, and the shared shapes of
instructions that use them (30_encoding.md R88 to R91, R98).
-/

namespace Sys2Proof.Machine

/-- The register a Register-mode value names, none at `NREG` and above (10_state.md R22, R24). -/
def regOfValue (c : Config) (v : BitVec 14) : Option Reg :=
  if v.toNat < c.nreg then Reg.all[v.toNat]? else none

/-- The address of Relative mode, `trunc_XLEN(p + value)` (R91, 43_control_transfer.md R160). -/
def State.relative (s : State) (v : BitVec 14) : Nat := trunc s.config.xlen (s.pc + v.toNat)

/-- `Resolve(op, ct)` of R88: the value of a source operand, or of a control-transfer operand when `ct`.
Only Absolute mode with `ct` false makes an access; none where it is denied. -/
def resolve (op : Operand) (ct : Bool) (s : State) : Option (Nat × State) :=
  match op.mode with
  | .register =>
    match regOfValue s.config op.value with
    | some r => some (s.reg r, s)
    | none => some (0, s)
  | .immediate => some (op.value.toNat, s)
  | .absolute => if ct then some (op.value.toNat, s) else memRead op.value.toNat s
  | .relative => some (s.relative op.value, s)

/-- A destination: a general register or a cell (R89). -/
inductive Target where
  | reg (r : Reg)
  | cell (addr : Nat)
  deriving DecidableEq, Repr

/-- `ResolveTarget(op)` of R89; none where the operand is no destination. -/
def resolveTarget (op : Operand) (s : State) : Option Target :=
  match op.mode with
  | .register => (regOfValue s.config op.value).map .reg
  | .immediate => none
  | .absolute => some (.cell op.value.toNat)
  | .relative => some (.cell (s.relative op.value))

/-- `ReadTarget(t)` of R90. -/
def readTarget (t : Target) (s : State) : Option (Nat × State) :=
  match t with
  | .reg r => some (s.reg r, s)
  | .cell a => memRead a s

/-- `WriteTarget(t, v)` of R90. -/
def writeTarget (t : Target) (v : Int) (s : State) : Option State :=
  match t with
  | .reg r => some (s.setReg r v)
  | .cell a => memWrite a v s

/-- The shape of an instruction with a source or control-transfer operand: with no operand
`Trap(InvalidOperandCount)` (R98), where the read is denied `Trap(MemoryViolation)`, else `k` on the value of
`op[0]`. Further operands are ignored (R98). -/
def withOperand (ct : Bool) (ops : List Operand) (s : State) (k : Nat → State → Result) : Result :=
  match ops with
  | [] => raiseTrap .invalidOperandCount s
  | op :: _ =>
    match resolve op ct s with
    | none => raiseTrap .memoryViolation s
    | some (m, s') => k m s'

/-- The shape of an instruction with a destination operand: with no operand `Trap(InvalidOperandCount)`, with
an invalid destination `Trap(IllegalInstruction)` (R89), else `k` on the destination. -/
def withTarget (ops : List Operand) (s : State) (k : Target → Result) : Result :=
  match ops with
  | [] => raiseTrap .invalidOperandCount s
  | op :: _ =>
    match resolveTarget op s with
    | none => raiseTrap .illegalInstruction s
    | some t => k t

/-- Load register `r` from the source operand (40_data_movement.md R111 to R113). -/
def loadReg (r : Reg) (ops : List Operand) (s : State) : Result :=
  withOperand false ops s fun m s' => finish ops.length (s'.setReg r m)

/-- Store register `r` in the destination operand (R114 to R116). -/
def storeReg (r : Reg) (ops : List Operand) (s : State) : Result :=
  withTarget ops s fun t =>
    match writeTarget t (s.reg r) s with
    | none => raiseTrap .memoryViolation s
    | some s' => finish ops.length s'

/-- Copy register `src` to register `dst` (R117 to R122). -/
def copyReg (src dst : Reg) (ops : List Operand) (s : State) : Result :=
  finish ops.length (s.setReg dst (s.reg src))

/-- Read the destination operand, apply `f`, write it back (41_arithmetic_bitwise.md R131, R132). -/
def modifyTarget (f : Nat → Int) (ops : List Operand) (s : State) : Result :=
  withTarget ops s fun t =>
    match readTarget t s with
    | none => raiseTrap .memoryViolation s
    | some (v, s') =>
      match writeTarget t (f v) s' with
      | none => raiseTrap .memoryViolation s'
      | some s'' => finish ops.length s''

/-- Apply `f` to register `r` (R133 to R137, 42_shift_rotate_test.md R151 to R154). -/
def modifyReg (f : Nat → Int) (r : Reg) (ops : List Operand) (s : State) : Result :=
  finish ops.length (s.setReg r (f (s.reg r)))

/-- Combine the accumulator with the source operand in place (R138 to R140, R143 to R145). -/
def accumulate (f : Nat → Nat → Int) (ops : List Operand) (s : State) : Result :=
  withOperand false ops s fun m s' => finish ops.length (s'.setReg .a (f (s'.reg .a) m))

/-- As `accumulate`, with `Trap(ArithmeticFault)` on the operand 0 and `A` not written (R141, R142). -/
def accumulateDivide (f : Nat → Nat → Int) (ops : List Operand) (s : State) : Result :=
  withOperand false ops s fun m s' =>
    if m = 0 then raiseTrap .arithmeticFault s'
    else finish ops.length (s'.setReg .a (f (s'.reg .a) m))

/-- Compare register `r` with the source operand (44_flags_stack_compare.md R191). -/
def compareReg (r : Reg) (ops : List Operand) (s : State) : Result :=
  withOperand false ops s fun m s' => finish ops.length (s'.setFlags (compareFlags (s'.reg r) m))

/-- Change the flags register by `f` (R180 to R184). -/
def modifyFlags (f : Byte → Byte) (ops : List Operand) (s : State) : Result :=
  finish ops.length (s.setFlags (f s.flags))

/-- The branch of R164: the operand count is checked whether or not the branch is taken. -/
def branch (taken : Bool) (ops : List Operand) (s : State) : Result :=
  withOperand true ops s fun t s' => if taken then .next (s'.setPc t) else finish ops.length s'

/-- Push a value and end the instruction (R187, R188). -/
def pushValue (v : Nat) (ops : List Operand) (s : State) : Result :=
  match push v s with
  | none => raiseTrap .memoryViolation s
  | some s' => finish ops.length s'

/-- Pop a value, apply `k` to it, end the instruction (R189, R190). -/
def popValue (k : Nat → State → State) (ops : List Operand) (s : State) : Result :=
  match pop s with
  | none => raiseTrap .memoryViolation s
  | some (v, s') => finish ops.length (k v s')

end Sys2Proof.Machine
end

