-- ==== Sys2Proof/Machine/Arithmetic.lean ====
section
/-!
DEFINITION. The arithmetic and bitwise instructions (spec/41_arithmetic_bitwise.md R130 to R146).
-/

namespace Sys2Proof.Machine

/-- INC: add one to a destination modulo 2^XLEN, no flag (R131). -/
def execInc (ops : List Operand) (s : State) : Result :=
  modifyTarget (fun v => v + 1) ops s

/-- DEC: subtract one from a destination modulo 2^XLEN, no flag (R132). -/
def execDec (ops : List Operand) (s : State) : Result :=
  modifyTarget (fun v => v - 1) ops s

/-- INA: add one to the register modulo 2^XLEN, no flag (R133). -/
def execIna (ops : List Operand) (s : State) : Result :=
  modifyReg (fun v => v + 1) .a ops s

/-- INX: add one to the register modulo 2^XLEN, no flag (R134). -/
def execInx (ops : List Operand) (s : State) : Result :=
  modifyReg (fun v => v + 1) .x ops s

/-- INY: add one to the register modulo 2^XLEN, no flag (R135). -/
def execIny (ops : List Operand) (s : State) : Result :=
  modifyReg (fun v => v + 1) .y ops s

/-- DEX: subtract one from the register modulo 2^XLEN, no flag (R136). -/
def execDex (ops : List Operand) (s : State) : Result :=
  modifyReg (fun v => v - 1) .x ops s

/-- DEY: subtract one from the register modulo 2^XLEN, no flag (R137). -/
def execDey (ops : List Operand) (s : State) : Result :=
  modifyReg (fun v => v - 1) .y ops s

/-- ADD: the sum modulo 2^XLEN, no carry in or out (R138). -/
def execAdd (ops : List Operand) (s : State) : Result :=
  accumulate (fun a m => a + m) ops s

/-- SUB: the difference modulo 2^XLEN, no borrow in or out (R139). -/
def execSub (ops : List Operand) (s : State) : Result :=
  accumulate (fun a m => a - m) ops s

/-- MUL: the low XLEN bits of the exact product (R140). -/
def execMul (ops : List Operand) (s : State) : Result :=
  accumulate (fun a m => a * m) ops s

/-- DIV: the unsigned quotient, `Trap(ArithmeticFault)` on the operand 0 (R141). -/
def execDiv (ops : List Operand) (s : State) : Result :=
  accumulateDivide (fun a m => (a / m : Nat)) ops s

/-- MOD: the unsigned remainder, `Trap(ArithmeticFault)` on the operand 0 (R142). -/
def execMod (ops : List Operand) (s : State) : Result :=
  accumulateDivide (fun a m => a - m * (a / m : Nat)) ops s

/-- AND: bitwise and, all bits (R143). -/
def execAnd (ops : List Operand) (s : State) : Result :=
  accumulate (fun a m => (a &&& m : Nat)) ops s

/-- ORA: bitwise inclusive or, all bits (R144). -/
def execOra (ops : List Operand) (s : State) : Result :=
  accumulate (fun a m => (a ||| m : Nat)) ops s

/-- XOR: bitwise exclusive or, all bits (R145). -/
def execXor (ops : List Operand) (s : State) : Result :=
  accumulate (fun a m => (a ^^^ m : Nat)) ops s

end Sys2Proof.Machine
end

