-- ==== Sys2Proof/Machine/ControlTransfer.lean ====
section
/-!
DEFINITION. The control-transfer instructions (spec/43_control_transfer.md R160 to R173).
-/

namespace Sys2Proof.Machine

/-- JMP: `pc` becomes the resolved control-transfer address (R161). -/
def execJmp (ops : List Operand) (s : State) : Result :=
  withOperand true ops s fun t s' => .next (s'.setPc t)

/-- JSR: the target is resolved, the address after the JSR is pushed, then the jump (R162, conflict C2). -/
def execJsr (ops : List Operand) (s : State) : Result :=
  withOperand true ops s fun t s' =>
    match push (trunc s'.config.xlen (s'.nextPc ops.length)) s' with
    | none => raiseTrap .memoryViolation s'
    | some s'' => .next (s''.setPc t)

/-- RTS: pop `pc`, nothing added (R163). -/
def execRts (_ops : List Operand) (s : State) : Result :=
  returnPop s

/-- BCC: branch when `F.C = 0` (R165). -/
def execBcc (ops : List Operand) (s : State) : Result :=
  branch (!flagIsSet flagC s.flags) ops s

/-- BCS: branch when `F.C = 1` (R166). -/
def execBcs (ops : List Operand) (s : State) : Result :=
  branch (flagIsSet flagC s.flags) ops s

/-- BEQ: branch when `F.Z = 1` (R167). -/
def execBeq (ops : List Operand) (s : State) : Result :=
  branch (flagIsSet flagZ s.flags) ops s

/-- BNE: branch when `F.Z = 0` (R168). -/
def execBne (ops : List Operand) (s : State) : Result :=
  branch (!flagIsSet flagZ s.flags) ops s

/-- BMI: branch when `F.N = 1` (R169). -/
def execBmi (ops : List Operand) (s : State) : Result :=
  branch (flagIsSet flagN s.flags) ops s

/-- BPL: branch when `F.N = 0` (R170). -/
def execBpl (ops : List Operand) (s : State) : Result :=
  branch (!flagIsSet flagN s.flags) ops s

/-- BVC: branch when `F.V = 0` (R171). -/
def execBvc (ops : List Operand) (s : State) : Result :=
  branch (!flagIsSet flagV s.flags) ops s

/-- BVS: branch when `F.V = 1` (R172). -/
def execBvs (ops : List Operand) (s : State) : Result :=
  branch (flagIsSet flagV s.flags) ops s

end Sys2Proof.Machine
end

