-- ==== Sys2Proof/Machine/DataMovement.lean ====
section
/-!
DEFINITION. The data movement instructions (spec/40_data_movement.md R110 to R122).
-/

namespace Sys2Proof.Machine

/-- LDA: load the register from a source operand, no flag (R111). -/
def execLda (ops : List Operand) (s : State) : Result :=
  loadReg .a ops s

/-- LDX: load the register from a source operand, no flag (R112). -/
def execLdx (ops : List Operand) (s : State) : Result :=
  loadReg .x ops s

/-- LDY: load the register from a source operand, no flag (R113). -/
def execLdy (ops : List Operand) (s : State) : Result :=
  loadReg .y ops s

/-- STA: store the register in a destination, no flag (R114). -/
def execSta (ops : List Operand) (s : State) : Result :=
  storeReg .a ops s

/-- STX: store the register in a destination, no flag (R115). -/
def execStx (ops : List Operand) (s : State) : Result :=
  storeReg .x ops s

/-- STY: store the register in a destination, no flag (R116). -/
def execSty (ops : List Operand) (s : State) : Result :=
  storeReg .y ops s

/-- TAX: copy a register to a register, no flag (R117). -/
def execTax (ops : List Operand) (s : State) : Result :=
  copyReg .a .x ops s

/-- TAY: copy a register to a register, no flag (R118). -/
def execTay (ops : List Operand) (s : State) : Result :=
  copyReg .a .y ops s

/-- TSX: copy a register to a register, no flag (R119). -/
def execTsx (ops : List Operand) (s : State) : Result :=
  copyReg .sp .x ops s

/-- TXA: copy a register to a register, no flag (R120). -/
def execTxa (ops : List Operand) (s : State) : Result :=
  copyReg .x .a ops s

/-- TXS: copy a register to a register, no flag (R121). -/
def execTxs (ops : List Operand) (s : State) : Result :=
  copyReg .x .sp ops s

/-- TYA: copy a register to a register, no flag (R122). -/
def execTya (ops : List Operand) (s : State) : Result :=
  copyReg .y .a ops s

end Sys2Proof.Machine
end

