-- ==== Sys2Proof/Machine/FlagStackCompare.lean ====
section
/-!
DEFINITION. The flag, stack and compare instructions (spec/44_flags_stack_compare.md R180 to R194).
-/

namespace Sys2Proof.Machine

/-- SEC: set Carry, no other bit (R180). -/
def execSec (ops : List Operand) (s : State) : Result :=
  modifyFlags (setFlag flagC) ops s

/-- CLC: clear Carry, no other bit (R181). -/
def execClc (ops : List Operand) (s : State) : Result :=
  modifyFlags (clearFlag flagC) ops s

/-- SED: set Decimal, no other bit (R182). -/
def execSed (ops : List Operand) (s : State) : Result :=
  modifyFlags (setFlag flagD) ops s

/-- CLD: clear Decimal, no other bit (R183). -/
def execCld (ops : List Operand) (s : State) : Result :=
  modifyFlags (clearFlag flagD) ops s

/-- CLV: clear Overflow, no other bit (R184). -/
def execClv (ops : List Operand) (s : State) : Result :=
  modifyFlags (clearFlag flagV) ops s

/-- PHA: push the accumulator (R187). -/
def execPha (ops : List Operand) (s : State) : Result :=
  pushValue (s.reg .a) ops s

/-- PHP: push the flags register, zero-extended (R188). -/
def execPhp (ops : List Operand) (s : State) : Result :=
  pushValue s.flags.toNat ops s

/-- PLA: pull the accumulator, no flag (R189). -/
def execPla (ops : List Operand) (s : State) : Result :=
  popValue (fun v s' => s'.setReg .a v) ops s

/-- PLP: pull the flags register, the reserved bits dropped (R190). -/
def execPlp (ops : List Operand) (s : State) : Result :=
  popValue (fun v s' => s'.setFlags (flagsOfCell v)) ops s

/-- CMP: compare the register with a source operand (R192). -/
def execCmp (ops : List Operand) (s : State) : Result :=
  compareReg .a ops s

/-- CPX: compare the register with a source operand (R193). -/
def execCpx (ops : List Operand) (s : State) : Result :=
  compareReg .x ops s

/-- CPY: compare the register with a source operand (R194). -/
def execCpy (ops : List Operand) (s : State) : Result :=
  compareReg .y ops s

end Sys2Proof.Machine
end

