-- ==== Sys2Proof/Machine/ShiftTest.lean ====
section
/-!
DEFINITION. The shift, rotate and bit-test instructions (spec/42_shift_rotate_test.md R150 to R155).
-/

namespace Sys2Proof.Machine

/-- SHL: `A` one place to the left, bit XLEN - 1 lost, bit 0 becomes 0 (R151). -/
def execShl (ops : List Operand) (s : State) : Result :=
  modifyReg (fun v => (v <<< 1 : Nat)) .a ops s

/-- LSR: `A` one place to the right, bit 0 lost, bit XLEN - 1 becomes 0 (R152). -/
def execLsr (ops : List Operand) (s : State) : Result :=
  modifyReg (fun v => (v >>> 1 : Nat)) .a ops s

/-- ROL: bit XLEN - 1 of `A` moves to bit 0, the Carry flag takes no part (R153). -/
def execRol (ops : List Operand) (s : State) : Result :=
  modifyReg (fun v => ((v <<< 1) ||| (v >>> (s.config.xlen - 1)) : Nat)) .a ops s

/-- ROR: bit 0 of `A` moves to bit XLEN - 1, the Carry flag takes no part (R154). -/
def execRor (ops : List Operand) (s : State) : Result :=
  modifyReg (fun v => ((v >>> 1) ||| (v <<< (s.config.xlen - 1)) : Nat)) .a ops s

/-- BIT: `Z` from `A & operand`, no other flag and no register changed (R155). -/
def execBit (ops : List Operand) (s : State) : Result :=
  withOperand false ops s fun m s' =>
    finish ops.length (s'.setFlags (bitTestFlags s'.flags (s'.reg .a) m))

end Sys2Proof.Machine
end

