-- ==== Sys2Proof/Machine/System.lean ====
section
/-!
DEFINITION. The no-operation, privileged, device and system-call instructions
(spec/45_privileged_io_system.md R200 to R209). No instruction tests `PRIV` (R209).
-/

namespace Sys2Proof.Machine

/-- NOP: nothing but the advance of `pc` (R200). -/
def execNop (ops : List Operand) (s : State) : Result :=
  finish ops.length s

/-- SYSCALL: `Trap(Syscall)`, no register altered beforehand (R208). -/
def execSyscall (_ops : List Operand) (s : State) : Result :=
  raiseTrap .syscall s

/-- INT: a trap whose cause is the whole value of `A` (R201). -/
def execInt (_ops : List Operand) (s : State) : Result :=
  raiseTrap (.software (s.reg .a)) s

/-- RTI: the action of RTS on the current process. `PRIV`, `CUR` and the flags are not changed (R202). -/
def execRti (_ops : List Operand) (s : State) : Result :=
  returnPop s

/-- CLP: `PRIV <- 0`, in either mode (R203). -/
def execClp (ops : List Operand) (s : State) : Result :=
  finish ops.length (s.setPriv false)

/-- SWT: `PRIV <- 1`, in either mode, without a trap (R204, R209). -/
def execSwt (ops : List Operand) (s : State) : Result :=
  finish ops.length (s.setPriv true)

/-- HLT: the exit event. A process other than 0 leaves the table with its extents and process 0 becomes
current, process 0 stays and its `pc` passes the HLT. The engine stops (R205, conflict C13). -/
def execHlt (ops : List Operand) (s : State) : Result :=
  if s.cur = 0 then
    .next { (s.report ⟨0, s.reg .a⟩).setPc (s.nextPc ops.length) with run := .halted }
  else .next { (s.report ⟨s.cur, s.reg .a⟩).removeProc s.cur with cur := 0, run := .halted }

/-- IN: one input unit, zero-extended, into `A`. With no unit available the machine waits and nothing
changes (R206, R241, log entry 8). -/
def execInp (ops : List Operand) (s : State) : Result :=
  match s.inq with
  | [] => .next s
  | u :: rest => finish ops.length ((s.setInput rest).setReg .a u.toNat)

/-- OUT: the low byte of `A` as one output unit (R207). -/
def execOut (ops : List Operand) (s : State) : Result :=
  finish ops.length (s.emit (BitVec.ofNat 8 (s.reg .a)))

end Sys2Proof.Machine
end

