-- ==== Sys2Proof/Machine/Dispatch.lean ====
section
/-!
DEFINITION. `exec`: one arm per constructor of `Instr`, each one direct call of the instruction's meaning.
-/

namespace Sys2Proof.Machine

def exec (i : Instr) (s : State) : Host.Outcome State Fault Refusal :=
  match i with
  | .nop ops => Sys2Proof.Machine.execNop ops s
  | .syscall ops => Sys2Proof.Machine.execSyscall ops s
  | .lda ops => Sys2Proof.Machine.execLda ops s
  | .ldx ops => Sys2Proof.Machine.execLdx ops s
  | .ldy ops => Sys2Proof.Machine.execLdy ops s
  | .sta ops => Sys2Proof.Machine.execSta ops s
  | .stx ops => Sys2Proof.Machine.execStx ops s
  | .sty ops => Sys2Proof.Machine.execSty ops s
  | .tax ops => Sys2Proof.Machine.execTax ops s
  | .tay ops => Sys2Proof.Machine.execTay ops s
  | .tsx ops => Sys2Proof.Machine.execTsx ops s
  | .txa ops => Sys2Proof.Machine.execTxa ops s
  | .txs ops => Sys2Proof.Machine.execTxs ops s
  | .tya ops => Sys2Proof.Machine.execTya ops s
  | .inc ops => Sys2Proof.Machine.execInc ops s
  | .dec ops => Sys2Proof.Machine.execDec ops s
  | .ina ops => Sys2Proof.Machine.execIna ops s
  | .inx ops => Sys2Proof.Machine.execInx ops s
  | .iny ops => Sys2Proof.Machine.execIny ops s
  | .dex ops => Sys2Proof.Machine.execDex ops s
  | .dey ops => Sys2Proof.Machine.execDey ops s
  | .add ops => Sys2Proof.Machine.execAdd ops s
  | .sub ops => Sys2Proof.Machine.execSub ops s
  | .mul ops => Sys2Proof.Machine.execMul ops s
  | .div ops => Sys2Proof.Machine.execDiv ops s
  | .mod ops => Sys2Proof.Machine.execMod ops s
  | .and ops => Sys2Proof.Machine.execAnd ops s
  | .ora ops => Sys2Proof.Machine.execOra ops s
  | .xor ops => Sys2Proof.Machine.execXor ops s
  | .shl ops => Sys2Proof.Machine.execShl ops s
  | .lsr ops => Sys2Proof.Machine.execLsr ops s
  | .rol ops => Sys2Proof.Machine.execRol ops s
  | .ror ops => Sys2Proof.Machine.execRor ops s
  | .bit ops => Sys2Proof.Machine.execBit ops s
  | .jmp ops => Sys2Proof.Machine.execJmp ops s
  | .jsr ops => Sys2Proof.Machine.execJsr ops s
  | .rts ops => Sys2Proof.Machine.execRts ops s
  | .bcc ops => Sys2Proof.Machine.execBcc ops s
  | .bcs ops => Sys2Proof.Machine.execBcs ops s
  | .beq ops => Sys2Proof.Machine.execBeq ops s
  | .bne ops => Sys2Proof.Machine.execBne ops s
  | .bmi ops => Sys2Proof.Machine.execBmi ops s
  | .bpl ops => Sys2Proof.Machine.execBpl ops s
  | .bvc ops => Sys2Proof.Machine.execBvc ops s
  | .bvs ops => Sys2Proof.Machine.execBvs ops s
  | .sec ops => Sys2Proof.Machine.execSec ops s
  | .clc ops => Sys2Proof.Machine.execClc ops s
  | .sed ops => Sys2Proof.Machine.execSed ops s
  | .cld ops => Sys2Proof.Machine.execCld ops s
  | .clv ops => Sys2Proof.Machine.execClv ops s
  | .pha ops => Sys2Proof.Machine.execPha ops s
  | .php ops => Sys2Proof.Machine.execPhp ops s
  | .pla ops => Sys2Proof.Machine.execPla ops s
  | .plp ops => Sys2Proof.Machine.execPlp ops s
  | .cmp ops => Sys2Proof.Machine.execCmp ops s
  | .cpx ops => Sys2Proof.Machine.execCpx ops s
  | .cpy ops => Sys2Proof.Machine.execCpy ops s
  | .int ops => Sys2Proof.Machine.execInt ops s
  | .rti ops => Sys2Proof.Machine.execRti ops s
  | .clp ops => Sys2Proof.Machine.execClp ops s
  | .swt ops => Sys2Proof.Machine.execSwt ops s
  | .hlt ops => Sys2Proof.Machine.execHlt ops s
  | .inp ops => Sys2Proof.Machine.execInp ops s
  | .out ops => Sys2Proof.Machine.execOut ops s

end Sys2Proof.Machine
end

