-- ==== Sys2Proof/Machine/Fetch.lean ====
section
/-!
DEFINITION. Fetch and decode of the instruction at `pc` (30_encoding.md R92 steps 1 to 7), every cell read
through the access check, and the placing of an instruction where the fetch reads it.
-/

namespace Sys2Proof.Machine

/-- The outcome of a part of the fetch: a value with the state its accesses left, or the state in which the
step has already ended (a trap taken or a fatal stop). -/
inductive Fetched (α : Type) where
  | ok (v : α) (s : State)
  | stop (s : State)
  deriving DecidableEq, Repr

/-- How a rejected decoding is raised (R99): the two causes, or the end of memory. -/
def raiseDecodeError (e : DecodeError) (s : State) : State :=
  match e with
  | .invalidOperandCount => trapEntry .invalidOperandCount s
  | .noMapping => trapEntry .illegalInstruction s
  | .notAByte => trapEntry .illegalInstruction s
  | .endOfStream => raiseFatal .endOfMemory s

/-- Read the two cells at `addr` and `addr + 1`, ascending. -/
def fetchPair (addr : Nat) (s : State) : Fetched (Nat × Nat) :=
  match memRead addr s with
  | none => .stop (trapEntry .memoryViolation s)
  | some (c1, s1) =>
    match memRead (addr + 1) s1 with
    | none => .stop (trapEntry .memoryViolation s1)
    | some (c2, s2) => .ok (c1, c2) s2

/-- Step 7: `n` operand pairs from `addr` on, each pair read whole and then checked (R92, R94). -/
def fetchOperands : Nat → Nat → State → Fetched (List Operand)
  | 0, _, s => .ok [] s
  | n + 1, addr, s =>
    match fetchPair addr s with
    | .stop s' => .stop s'
    | .ok (c1, c2) s1 =>
      match decodePair c1 c2 with
      | .error e => .stop (raiseDecodeError e s1)
      | .ok op =>
        match fetchOperands n (addr + 2) s1 with
        | .stop s' => .stop s'
        | .ok ops s2 => .ok (op :: ops) s2

/-- Steps 1 to 7 of R92: the header fits, header cells read, count and opcode checked, operands fit, operand
cells read and checked. -/
def fetch (s : State) : Fetched Instr :=
  if s.pc + 1 ≥ s.config.memSize then .stop (raiseFatal .endOfMemory s)
  else
    match fetchPair s.pc s with
    | .stop s' => .stop s'
    | .ok (c0, c1) s1 =>
      match decodeHeader s.config c0 c1 with
      | .error e => .stop (raiseDecodeError e s1)
      | .ok (n, m) =>
        if s.nextPc n > s.config.memSize then .stop (raiseFatal .endOfMemory s1)
        else
          match fetchOperands n (s.pc + 2) s1 with
          | .stop s' => .stop s'
          | .ok ops s2 => .ok (m.make ops) s2

/-- The step of the instruction is not enabled: it is an IN and no input unit is available (R206, R239).
`step` asks this of a fetched instruction only (DESIGN CHOICE, log entry 23). -/
def awaitsInput (i : Instr) (s : State) : Bool :=
  match i with
  | .inp _ => s.inq.isEmpty
  | _ => false

/-- The cells from `addr` to the end of memory, at most `n` of them, as `decode` takes them. -/
def State.cellsFrom (s : State) (addr : Nat) (n : Nat) : List Nat :=
  (List.range (min n (s.config.memSize - addr))).map fun k => s.cell (addr + k)

/-- The cells the next fetch decodes: from `pc`, as many as the longest instruction has, fewer at the end of
memory. -/
def State.stream (s : State) : List Nat := s.cellsFrom s.pc s.config.maxLength

/-- Memory of `size` cells with a list of cells stored from an address up, none past the end. -/
def placeCells (size : Nat) (m : Memory) (addr : Nat) : List Nat → Memory
  | [] => m
  | c :: cells => placeCells size (if addr < size then m.write addr c else m) (addr + 1) cells

/-- The body of `State.withFetchWord`: the cells of a table word stored at `pc`, and the engine running,
which the fetch needs. It stands for the host's load of a program (log entry 15). -/
def placeAtFetch (s : State) (nbits w : Nat) : State :=
  { s with mem := placeCells s.config.memSize s.mem s.pc (tableCells nbits w), run := .running }

end Sys2Proof.Machine
end

