-- ==== Sys2Proof/Machine/Step.lean ====
section
/-!
DEFINITION. One step of the engine (30_encoding.md R92, 60_exceptions.md R233, R239).
-/

namespace Sys2Proof.Machine

/-- One step. Running: fetch and decode the instruction at `pc`, and execute it (R92); an IN facing an
empty input changes nothing at all, its fetch included (R206, R241). Where the fetch of that IN itself traps or
stops, the spec does not say which comes first: the trap or stop is taken and the machine does not wait (DESIGN
CHOICE, log entry 23). Stopped(Halted): nothing (R239). Stopped(Fatal): the fault state of R233. -/
def step (s : State) : Host.Outcome State Fault Refusal :=
  match s.run with
  | .fatal r => .fault (.stopped r)
  | .halted => .next s
  | .running =>
    match fetch s with
    | .stop s' => .next s'
    | .ok i s' => if awaitsInput i s then .next s else exec i s'

/-- `s` with the instruction of a table word stored where `step` fetches next. -/
def State.withFetchWord (s : State) (nbits w : Nat) : State := placeAtFetch s nbits w

end Sys2Proof.Machine
end

