-- ==== Sys2Proof/Machine/HostControl.lean ====
section
/-!
DEFINITION. The host control interface (00_scope.md R9): what the host may do between two steps. Each
operation is a function of the state (DESIGN CHOICE, log entry 13). None but Reset has any effect after a
fatal stop (60_exceptions.md R233, U27).
-/

namespace Sys2Proof.Machine

/-- What a host operation answers. -/
inductive HostReply where
  /-- The operation was performed (a trap it raised included), with the machine as it left it. -/
  | done (s : State)
  /-- `Load` was performed and returns the number of bytes loaded (70_reset_and_hazards.md R252). -/
  | loaded (bytes : Nat) (s : State)
  /-- The operation was refused and changes nothing (93_implementation_defined.md U27). -/
  | refused
  deriving DecidableEq, Repr

/-- The machine after a host operation that was asked for in `s`. -/
def HostReply.after (r : HostReply) (s : State) : State :=
  match r with
  | .done s' => s'
  | .loaded _ s' => s'
  | .refused => s

/-- The engine stands in `Stopped(Fatal(_))`. -/
def State.isFatal (s : State) : Bool :=
  match s.run with
  | .fatal _ => true
  | .halted => false
  | .running => false

/-- `Reset` (R250): every piece of state at the value of R39. The configuration is fixed for the life of the
machine (R20). -/
def hostReset (s : State) : HostReply := .done { State.reset with config := s.config }

/-- The loader's copy: one `MemWrite` per byte, ascending; none where a write is denied (R252, R253). -/
def loadBytes : List Byte → Nat → State → Option State
  | [], _, s => some s
  | b :: image, addr, s =>
    match memWrite addr b.toNat s with
    | none => none
    | some s' => loadBytes image (addr + 1) s'

/-- The big-endian header word at `offset`, read through the access check (R62, R252). -/
def loadHeader (offset : Nat) (s : State) : Option (Nat × State) :=
  match memRead offset s with
  | none => none
  | some (hi, s1) =>
    match memRead (offset + 1) s1 with
    | none => none
    | some (lo, s2) => some (hi <<< 8 ||| lo, s2)

/-- Set the data pointer of the current process to `trunc_XLEN(v)`; the loader is its only writer (R30). -/
def State.setDs (s : State) (v : Int) : State :=
  s.setFile s.cur { s.file s.cur with ds := trunc s.config.xlen v }

/-- `Load(image, offset)` for the current process (R252 to R254): refused with fewer than two bytes, fatal
where it does not fit, refused whole with a trap where the check denies a cell (D37), else the image in
memory, `DS` and `pc` set, and the number of bytes returned. -/
def hostLoad (image : List Byte) (offset : Nat) (s : State) : HostReply :=
  if s.isFatal || image.length < 2 then .refused
  else if offset + image.length > s.config.memSize then .done (raiseFatal .imageTooLarge s)
  else
    match loadBytes image offset s with
    | none => .done (trapEntry .memoryViolation s)
    | some s1 =>
      match loadHeader offset s1 with
      | none => .done (trapEntry .memoryViolation s)
      | some (h, s2) =>
        .loaded image.length ((s2.setDs (offset + h : Nat)).setPc (offset + 2 : Nat))

/-- `Admit(pid)` (R236): refused for a process in the table, else a zero register file (R40). -/
def hostAdmit (p : Nat) (s : State) : HostReply :=
  if s.isFatal || s.hasProc p then .refused
  else .done (s.setFile p RegFile.zero)

/-- `Evict(pid)` (R237): refused for process 0, a trap for an absent process, else the process leaves the
table, and if it was current process 0 becomes current and the engine stops. No exit event. -/
def hostEvict (p : Nat) (s : State) : HostReply :=
  if s.isFatal || p = 0 then .refused
  else if !s.hasProc p then .done (trapEntry .invalidProcessId s)
  else if p = s.cur then .done { s.removeProc p with cur := 0, run := .halted }
  else .done (s.removeProc p)

/-- `Switch(pid)` (R238): a trap for an absent process, else `CUR <- pid`, `RUN <- Running`, nothing else. -/
def hostSwitch (p : Nat) (s : State) : HostReply :=
  if s.isFatal then .refused
  else if !s.hasProc p then .done (trapEntry .invalidProcessId s)
  else .done { s with cur := p, run := .running }

/-- `Allocate(pid, address, size)` (20_memory.md R59): refused for size 0 or a range that leaves memory; any
process id is accepted. -/
def hostAllocate (p : Nat) (addr size : Nat) (s : State) : HostReply :=
  if s.isFatal || size = 0 || s.config.memSize < addr + size then .refused
  else .done (s.allocate p addr size)

/-- The host supplies input units on the `IN` interface (R9, R206). -/
def hostSupply (units : List Byte) (s : State) : HostReply :=
  .done (s.setInput (s.inq ++ units))

/-- `Step` (R239): one step of the engine, nothing where it is stopped or waits. -/
def hostStep (s : State) : HostReply :=
  match step s with
  | .next s' => .done s'
  | .fault _ => .refused
  | .refused _ => .refused

/-- Everything the host may do between two steps. -/
inductive HostOp where
  | reset
  | load (image : List Byte) (offset : Nat)
  | admitProc (p : Nat)
  | evictProc (p : Nat)
  | switchProc (p : Nat)
  | allocate (p : Nat) (addr size : Nat)
  | supply (units : List Byte)
  | step
  deriving DecidableEq, Repr

/-- A host operation performed. -/
def hostPerform (op : HostOp) (s : State) : HostReply :=
  match op with
  | .reset => hostReset s
  | .load image offset => hostLoad image offset s
  | .admitProc p => hostAdmit p s
  | .evictProc p => hostEvict p s
  | .switchProc p => hostSwitch p s
  | .allocate p addr size => hostAllocate p addr size s
  | .supply units => hostSupply units s
  | .step => hostStep s

/-- The machine after a sequence of host operations, first to last (R239, R261). -/
def hostRun : List HostOp → State → State
  | [], s => s
  | op :: ops, s => hostRun ops ((hostPerform op s).after s)

end Sys2Proof.Machine
end

