-- ==== Sys2Proof/Safety.lean ====
section
/-!
DEFINITION. The terms claims are stated in: the machine invariant, what an access check permits and records,
the value and the cells of an operand, and the two shapes of what a step does to the whole state.

`State.Becomes` and `State.Traps` each name EVERY piece of state, so that a claim made with one of them says
what changed and that nothing else did.
-/

namespace Sys2Proof.Machine

/-! ### The invariant -/

/-- The reserved bits 2, 4 and 5 of a flags register are 0 (10_state.md R29). -/
abbrev ReservedFlagsClear (f : Byte) : Prop := f &&& ~~~flagMask = 0

/-- The registers of a file are XLEN-bit unsigned integers (R23, R25, R30) and the reserved flag bits are 0. -/
abbrev RegFile.wf (c : Config) (rf : RegFile) : Prop :=
  (∀ r ∈ Reg.all, rf.get r < 2 ^ c.xlen) ∧ rf.pc < 2 ^ c.xlen ∧ rf.ds < 2 ^ c.xlen ∧
    ReservedFlagsClear rf.f

/-- The well-formed states: process 0 and the current process are in the table (R31, R32), every register is in
the range of its width (R23) and reserved flag bits are 0 (R29), memory and the allocation table are in canonical
form, in range and inside memory (R34, R35, R51, R58), the configuration meets its constraints (00_scope.md R6). -/
abbrev State.wf (s : State) : Prop :=
  TableSorted s.proc ∧ s.hasProc 0 = true ∧ s.hasProc s.cur = true ∧
    (∀ e ∈ s.proc, e.2.wf s.config) ∧ s.mem.wf s.config ∧
    TableSorted s.owned ∧ (∀ e ∈ s.owned, e.2 ≠ [] ∧ ExtentsWf s.config.memSize e.2) ∧
    s.config.wellFormed = true

/-- A run that stands here has gone wrong: `Stopped(Fatal(_))` is never final (60_exceptions.md R233). -/
abbrev State.faulted (s : State) : Prop := s.isFatal = true

/-- The next state of an outcome, if it has one. -/
def nextState (o : Host.Outcome State Fault Refusal) : Option State :=
  match o with
  | .next s => some s
  | .fault _ => none
  | .refused _ => none

/-! ### Accesses -/

/-- An access to `addr` is permitted: in privileged mode, under `LazyGrow`, and at or above the threshold
(20_memory.md R56, R57). -/
def State.permits (s : State) (addr : Nat) : Bool :=
  s.priv || (match s.config.policy with
    | .lazyGrow => true
    | .threshold t => t ≤ addr)

/-- Accesses to all the addresses are permitted. -/
def State.permitsAll (s : State) (addrs : List Nat) : Bool := addrs.all s.permits

/-- The state after a permitted access to `addr`, apart from what is read or written: the growth of
`owned[CUR]` and nothing else (R56, R65). -/
def State.touch (s : State) (addr : Nat) : State := (s.check addr).getD s

/-- The state after permitted accesses to the addresses, in order. -/
def State.touchAll (s : State) (addrs : List Nat) : State := addrs.foldl State.touch s

/-- The `n` cells from `addr` up, in the order the fetch reads them (R73). -/
def fetchCells (addr : Nat) (n : Nat) : List Nat := (List.range n).map fun k => addr + k

/-- An access records its address in `owned[CUR]`: user mode under `LazyGrow` (R56). -/
def State.records (s : State) : Bool := !s.priv && s.config.policy = .lazyGrow

/-- Process `q` owns `a` in `s`, or came to own it by accesses the current process made to the addresses. -/
def State.ownsAfter (s : State) (addrs : List Nat) (q : Nat) (a : Nat) : Bool :=
  s.owns q a || (q = s.cur && s.records && addrs.any fun b => b = a)

/-! ### Operands -/

/-- The index of a register (10_state.md R22; the spec's decision D5, log entry 22). -/
def Reg.index : Reg → Nat
  | .a => 0
  | .s1 => 1
  | .s2 => 2
  | .s3 => 3
  | .s4 => 4
  | .s5 => 5
  | .x => 6
  | .y => 7
  | .aux => 8
  | .sp => 9

/-- The content of the register with index `k`, 0 for an index that names none: `NREG` and above (R24, R88). -/
def State.regAt (s : State) (k : Nat) : Nat :=
  match Reg.all.find? fun r => r.index = k && k < s.config.nreg with
  | some r => s.reg r
  | none => 0

/-- The value of a source operand, by the table of R85 and R88. The value field is used as it stands (R86). -/
def sourceValue (op : Operand) (s : State) : Nat :=
  match op.mode with
  | .register => s.regAt op.value.toNat
  | .immediate => op.value.toNat
  | .absolute => s.cell op.value.toNat
  | .relative => trunc s.config.xlen (s.pc + op.value.toNat)

/-- The cells a source operand reads: cell `value` in Absolute mode, none otherwise (R88). -/
def sourceCells (op : Operand) : List Nat :=
  match op.mode with
  | .register => []
  | .immediate => []
  | .absolute => [op.value.toNat]
  | .relative => []

/-- The target of a control transfer, by the table of 43_control_transfer.md R160. -/
def controlTarget (op : Operand) (s : State) : Nat :=
  match op.mode with
  | .register => s.regAt op.value.toNat
  | .immediate => op.value.toNat
  | .absolute => op.value.toNat
  | .relative => trunc s.config.xlen (s.pc + op.value.toNat)

/-- The operand is no destination: Immediate mode, or Register mode with an index that names no register (R89). -/
def invalidDestination (c : Config) (op : Operand) : Bool :=
  op.mode = .immediate || (op.mode = .register && c.nreg ≤ op.value.toNat)

/-! ### What a step does to the whole state -/

/-- What an instruction that does not trap does: what it names is new, everything else is as before. A number
given for a register, for `pc` or for a cell is the exact one of the rule. What is stored is that number cut to
XLEN or CELLW bits (00_scope.md R10, R11), which `State.Becomes` says. -/
structure Effect where
  /-- New values of general registers of the current process. -/
  reg : Reg → Option Int := fun _ => none
  /-- The new flags register of the current process. -/
  flags : Option Byte := none
  /-- The new `pc` of the current process. -/
  pc : Option Int := none
  /-- `RUN` after the step. -/
  run : RunState
  /-- `PRIV` after the step. -/
  priv : Option Bool := none
  /-- The one cell written and its new value. -/
  cell : Option (Nat × Int) := none
  /-- The cells accessed, the fetch apart. -/
  touched : List Nat := []
  /-- The input stream left. -/
  inq : Option (List Byte) := none
  /-- The output units produced. -/
  out : List Byte := []

/-- What a place of `n` bits that held `old` holds after a number may have been stored in it. -/
def stored (n : Nat) (old : Nat) (new : Option Int) : Nat :=
  match new with
  | none => old
  | some v => trunc n v

/-- A cell of memory after the one write of an effect. -/
def Effect.cellAfter (e : Effect) (s : State) (a : Nat) : Nat :=
  match e.cell with
  | none => s.cell a
  | some (b, v) => if a = b then trunc s.config.cellw v else s.cell a

/-- Going from `s` to `t` is exactly the effect `e`. -/
def State.Becomes (s t : State) (e : Effect) : Prop :=
  t.cur = s.cur ∧ t.priv = e.priv.getD s.priv ∧ t.run = e.run ∧ t.config = s.config ∧
  t.inq = e.inq.getD s.inq ∧ t.outq = s.outq ++ e.out ∧ t.exits = s.exits ∧
  (∀ q, q ≠ s.cur → tableFind t.proc q = tableFind s.proc q) ∧
  (∀ r, t.reg r = stored s.config.xlen (s.reg r) (e.reg r)) ∧
  t.flags = e.flags.getD s.flags ∧ t.pc = stored s.config.xlen s.pc e.pc ∧
  (t.file s.cur).ds = (s.file s.cur).ds ∧
  (∀ a, t.cell a = e.cellAfter s a) ∧
  (∀ q a, t.owns q a = s.ownsAfter e.touched q a)

/-- The effect of a plain instruction with `n` operands: `pc` advances by `2 + 2n`, and the machine stops
when that reaches the end of memory (10_state.md R26). Nothing else. -/
def plainEffect (n : Nat) (s : State) : Effect :=
  { pc := some (s.pc + 2 + 2 * n)
    run := if s.config.memSize ≤ s.pc + 2 + 2 * n then .fatal .endOfMemory else s.run }

/-- The effect of a redirect to `target` (30_encoding.md R93). Nothing else. -/
def jumpEffect (target : Nat) (s : State) : Effect := { pc := some target, run := s.run }

/-- One register written. -/
def writes (r : Reg) (v : Int) : Reg → Option Int := fun q => if q = r then some v else none

/-- Going from `s` to `t` is exactly trap entry with the code `code`, after accesses to `touched`
(60_exceptions.md R222 to R225): process 0 current and privileged, the code cut to XLEN bits in its accumulator,
the engine running, every other register of every process, every cell, every stream and the configuration as
before. -/
def State.Traps (s t : State) (code : Nat) (touched : List Nat) : Prop :=
  t.cur = 0 ∧ t.priv = true ∧ t.run = .running ∧ t.config = s.config ∧
  t.inq = s.inq ∧ t.outq = s.outq ∧ t.exits = s.exits ∧
  (∀ q, q ≠ 0 → tableFind t.proc q = tableFind s.proc q) ∧
  (∀ r, (t.file 0).get r = if r = .a then trunc s.config.xlen code else (s.file 0).get r) ∧
  (t.file 0).pc = (s.file 0).pc ∧ (t.file 0).f = (s.file 0).f ∧ (t.file 0).ds = (s.file 0).ds ∧
  (∀ a, t.cell a = s.cell a) ∧
  (∀ q a, t.owns q a = s.ownsAfter touched q a)

end Sys2Proof.Machine
end

