-- ==== Sys2Proof/Certificates/Slice0/Obligations.lean ====
section
/-!
DEFINITION. The statements for the provers. `State.Becomes` and `State.Traps` (Safety.lean) name every piece
of state, so a statement made with one of them holds its whole frame. Rows of instructions of one shape are
lists. A statement about a row holds for every row of its list.
-/

open Sys2Proof Sys2Proof.Machine

namespace Sys2Proof.Claims

/-- The four modes and their numbers (30_encoding.md R85). -/
def modeNumbers : List (Mode × Nat) :=
  [(.register, 0b00), (.immediate, 0b01), (.absolute, 0b10), (.relative, 0b11)]

/-- Makers of an instruction from its operands. -/
abbrev Maker := List Operand → Instr

/-- The loads and the register each writes. -/
def loads : List (Maker × Reg) := [(Instr.lda, .a), (Instr.ldx, .x), (Instr.ldy, .y)]

/-- The stores and the register each reads. -/
def stores : List (Maker × Reg) := [(Instr.sta, .a), (Instr.stx, .x), (Instr.sty, .y)]

/-- The transfers, source register, destination register. -/
def transfers : List (Maker × Reg × Reg) :=
  [(Instr.tax, .a, .x), (Instr.tay, .a, .y), (Instr.tsx, .sp, .x), (Instr.txa, .x, .a),
   (Instr.txs, .x, .sp), (Instr.tya, .y, .a)]

/-- INC and DEC and what each adds. -/
def steppers : List (Maker × Int) := [(Instr.inc, 1), (Instr.dec, -1)]

/-- The increments and decrements of a named register, and what each adds. -/
def namedSteppers : List (Maker × Reg × Int) :=
  [(Instr.ina, .a, 1), (Instr.inx, .x, 1), (Instr.iny, .y, 1), (Instr.dex, .x, -1), (Instr.dey, .y, -1)]

/-- The accumulator operations that cannot fail: the exact result of each, by the integer laws of R146. -/
def accumulators : List (Maker × (Nat → Nat → Int)) :=
  [(Instr.add, fun a m => (a : Int) + m), (Instr.sub, fun a m => (a : Int) - m),
   (Instr.mul, fun a m => (a : Int) * m), (Instr.and, fun a m => (a &&& m : Nat)),
   (Instr.ora, fun a m => (a ||| m : Nat)), (Instr.xor, fun a m => (a ^^^ m : Nat))]

/-- The divisions on a divisor that is not 0. -/
def divisions : List (Maker × (Nat → Nat → Int)) :=
  [(Instr.div, fun a m => (a / m : Nat)), (Instr.mod, fun a m => (a : Int) - m * (a / m : Nat))]

/-- The shifts and rotates, the opcode of each on this hardware, and what each does to a number of `n` bits. -/
def shifts : List (Maker × Nat × (Nat → Nat → Nat)) :=
  [(Instr.shl, 0x1D, fun n a => 2 * a % 2 ^ n), (Instr.lsr, 0x1E, fun _ a => a / 2),
   (Instr.rol, 0x1F, fun n a => 2 * a % 2 ^ n + a / 2 ^ (n - 1)),
   (Instr.ror, 0x20, fun n a => a / 2 + a % 2 * 2 ^ (n - 1))]

/-- The branches, the mask of the flag tested, and the value of the flag that takes the branch. -/
def branches : List (Maker × Byte × Bool) :=
  [(Instr.bcc, 0x01, false), (Instr.bcs, 0x01, true), (Instr.beq, 0x02, true),
   (Instr.bne, 0x02, false), (Instr.bmi, 0x80, true), (Instr.bpl, 0x80, false),
   (Instr.bvc, 0x40, false), (Instr.bvs, 0x40, true)]

/-- The flag instructions and what each does to `F`. -/
def flagOps : List (Maker × (Byte → Byte)) :=
  [(Instr.sec, fun f => f ||| 0x01), (Instr.clc, fun f => f &&& 0xFE),
   (Instr.sed, fun f => f ||| 0x08), (Instr.cld, fun f => f &&& 0xF7),
   (Instr.clv, fun f => f &&& 0xBF)]

/-- The compares and the register each compares. -/
def compares : List (Maker × Reg) := [(Instr.cmp, .a), (Instr.cpx, .x), (Instr.cpy, .y)]

/-- The pushes and the value each stores. -/
def pushes : List (Maker × (State → Nat)) :=
  [(Instr.pha, fun s => s.reg .a), (Instr.php, fun s => s.flags.toNat)]

/-- The instructions with a destination operand (R89). -/
def destinationMakers : List Maker := [Instr.sta, Instr.stx, Instr.sty, Instr.inc, Instr.dec]

/-- The instructions that read a source operand (20_memory.md R64). -/
def sourceMakers : List Maker :=
  [Instr.lda, Instr.ldx, Instr.ldy, Instr.add, Instr.sub, Instr.mul, Instr.div, Instr.mod,
   Instr.and, Instr.ora, Instr.xor, Instr.bit, Instr.cmp, Instr.cpx, Instr.cpy]

/-- The instructions that may write `F` (10_state.md R28). -/
def flagWriters : List Maker :=
  [Instr.bit, Instr.sec, Instr.clc, Instr.sed, Instr.cld, Instr.clv, Instr.plp,
   Instr.cmp, Instr.cpx, Instr.cpy]

/-- The instructions that may write a cell (R64). -/
def cellWriters : List Maker :=
  [Instr.sta, Instr.stx, Instr.sty, Instr.inc, Instr.dec, Instr.jsr, Instr.pha, Instr.php]

/-- The cell a pop reads: `SP + 1` modulo 2^XLEN (R186). -/
abbrev popCell (s : State) : Nat := trunc s.config.xlen ((s.reg .sp : Int) + 1)

/-- The instruction is made by none of the makers. -/
def NoneOf (makers : List Maker) (i : Instr) : Prop := ∀ mk ∈ makers, i ≠ mk i.operands

end Sys2Proof.Claims

open Sys2Proof.Claims

/-! ### Encoding -/

/-- Decoding the cells of an encoded instruction gives it back, whatever follows, with every operand at every
value (R80 to R84), under every opcode map a configuration may hold (R96). The numbers of this hardware are the
spec's decision D6 (log entry 17). -/
def Obligations.DecodeEncodeRoundTrip : Prop :=
  ∀ (c : Config) (i : Instr) (rest : List Nat), c.wellFormed = true → i.wellFormed c = true →
    decode c (encodeCells c i ++ rest) = .ok (i, rest)

/-- What the decoder accepts is exactly the encoding of a well-formed instruction, under every opcode map a
configuration may hold (R96). The opcode numbers are the spec's decision D6 (log entry 17). -/
def Obligations.EncodeDecodeRoundTrip : Prop :=
  ∀ (c : Config) (cells rest : List Nat) (i : Instr), c.wellFormed = true →
    decode c cells = .ok (i, rest) → i.wellFormed c = true ∧ cells = encodeCells c i ++ rest

/-- R87: the operand codec is a bijection of mode and value pairs with byte pairs. The first half is the
document's. The second, that encoding a decoded byte pair gives it back, is the spec's own inference from R83
and R84. -/
def Obligations.OperandCodecRoundTrip : Prop :=
  (∀ (m : Mode) (v : BitVec 14),
    decodeOperand (encodePair m v.toNat).1 (encodePair m v.toNat).2 = { mode := m, value := v }) ∧
  (∀ b1 b2 : Byte,
    encodePair (decodeOperand b1 b2).mode (decodeOperand b1 b2).value.toNat = (b1, b2))

/-- R99, R92: the decoder is total and rejects by name, with the conditions of each name in the order of the
step: header that does not fit, count above 10, opcode above 63, operands that do not fit, an operand cell
above 255. It refuses nothing else: a count below the arity, which R99 lists too, is decoded, and the meaning
of the instruction raises that trap (log entry 10, DEDUCED), as it does for the destinations R99 lists. The
refusal of wide operand cells is the spec's decision D12, of a short stream D20. -/
def Obligations.DecodeRejectsByName : Prop :=
  ∀ (c : Config) (c0 c1 : Nat) (cells : List Nat), c.wellFormed = true →
    (decode c (c0 :: c1 :: cells) = .error .invalidOperandCount ↔ 10 < c0) ∧
    (decode c (c0 :: c1 :: cells) = .error .noMapping ↔ c0 ≤ 10 ∧ 63 < c1) ∧
    (decode c (c0 :: c1 :: cells) = .error .endOfStream ↔
      c0 ≤ 10 ∧ c1 ≤ 63 ∧ cells.length < 2 * c0) ∧
    (decode c (c0 :: c1 :: cells) = .error .notAByte ↔
      c0 ≤ 10 ∧ c1 ≤ 63 ∧ 2 * c0 ≤ cells.length ∧ ∃ v ∈ cells.take (2 * c0), 255 < v) ∧
    (∀ header : List Nat, header.length < 2 → decode c header = .error .endOfStream)

/-- R83: the operand encoder masks the value to 14 bits, puts the mode above its high 6 bits in the first byte
and its low 8 bits in the second. R84: the decoder reads them back from any two bytes. The worked encodings of
30_encoding.md section 6, written out from the spec, decode to their instructions under this hardware's
configuration: the opcode numbers 0, 2 and 63 they use are the document's own (R95). A sanity statement. -/
def Obligations.WorkedEncodingsDecode : Prop :=
  (∀ row ∈ modeNumbers, ∀ v : Nat,
    (encodePair row.1 v).1.toNat = (row.2 <<< 6) ||| ((v &&& 0x3FFF) >>> 8) ∧
    (encodePair row.1 v).2.toNat = (v &&& 0x3FFF) &&& 0xFF) ∧
  (∀ b1 b2 : Byte, ((decodeOperand b1 b2).mode, b1.toNat >>> 6) ∈ modeNumbers ∧
    (decodeOperand b1 b2).value.toNat = ((b1.toNat &&& 0x3F) <<< 8) ||| b2.toNat) ∧
  decode .hardware [1, 2, 0x40, 5] = .ok (.lda [⟨.immediate, 5⟩], []) ∧
  decode .hardware [1, 2, 0, 6] = .ok (.lda [⟨.register, 6⟩], []) ∧
  decode .hardware [1, 2, 0x81, 0x2C] = .ok (.lda [⟨.absolute, 300⟩], []) ∧
  decode .hardware [1, 2, 0xFF, 0xFF] = .ok (.lda [⟨.relative, 16383⟩], []) ∧
  decode .hardware [0, 0] = .ok (.nop [], []) ∧ decode .hardware [0, 0x3F] = .ok (.out [], [])

/-! ### The step -/

/-- When the cells at `pc` decode to an instruction, its fetch is permitted and it does not wait, a step is
`exec` of it in the state its fetch reads left (R92). The meaning itself advances `pc`. -/
def Obligations.StepRunsTheDecodedInstruction : Prop :=
  ∀ (s : State) (i : Instr) (rest : List Nat), s.run = .running →
    decode s.config s.stream = .ok (i, rest) → s.permitsAll (fetchCells s.pc i.length) = true →
    awaitsInput i s = false → step s = exec i (s.touchAll (fetchCells s.pc i.length))

/-- R206, R241: an IN facing an empty input changes no state at all, `owned` included. That the model answers
the same state, not a stop, is its reading of a step that is not enabled (log entry 8). Its fetch meets no trap
and no stop: where it does, the model takes that first (log entry 23). -/
def Obligations.InputWaitChangesNothing : Prop :=
  ∀ (s : State) (ops : List Operand) (rest : List Nat), s.run = .running →
    decode s.config s.stream = .ok (.inp ops, rest) →
    s.permitsAll (fetchCells s.pc (2 + 2 * ops.length)) = true → s.inq = [] →
    step s = .next s

/-- A stopped engine takes no step: halted it does nothing (R239), after a fatal stop it is the model's fault
state (R233; the form of both answers is the model's, log entries 6 and 7). -/
def Obligations.StoppedEngineTakesNoStep : Prop :=
  ∀ s : State, (s.run = .halted → step s = .next s) ∧
    ∀ r, s.run = .fatal r → step s = .fault (.stopped r)

/-- R92 steps 4 and 5: a count cell above 10, and then an opcode cell above 63, trap with causes 4 and 1, the
whole cell values compared and the two header cells accessed. -/
def Obligations.HeaderChecksTrap : Prop :=
  ∀ s : State, s.config.wellFormed = true → s.run = .running → s.pc + 1 < s.config.memSize →
    s.permitsAll [s.pc, s.pc + 1] = true →
    (10 < s.cell s.pc → ∃ t, step s = .next t ∧ s.Traps t 4 [s.pc, s.pc + 1]) ∧
    (s.cell s.pc ≤ 10 → 63 < s.cell (s.pc + 1) →
      ∃ t, step s = .next t ∧ s.Traps t 1 [s.pc, s.pc + 1])

/-- R92 step 7, R94: the first operand pair `k` with a cell above 255 traps with cause 1. That pair is read
whole, no later one is read. The trap is the spec's decision D12, the whole pair read the model's reading (log
entry 11). That it holds of an IN facing an empty input too is the model's choice (log entry 23). -/
def Obligations.OperandCellsMustBeBytes : Prop :=
  ∀ (s : State) (k : Nat), s.config.wellFormed = true → s.run = .running → s.cell s.pc ≤ 10 →
    s.cell (s.pc + 1) ≤ 63 → k < s.cell s.pc → s.pc + 2 + 2 * s.cell s.pc ≤ s.config.memSize →
    s.permitsAll (fetchCells s.pc (4 + 2 * k)) = true →
    (∀ j, j < 2 * k → s.cell (s.pc + 2 + j) ≤ 255) →
    (255 < s.cell (s.pc + 2 + 2 * k) ∨ 255 < s.cell (s.pc + 3 + 2 * k)) →
    ∃ t, step s = .next t ∧ s.Traps t 1 (fetchCells s.pc (4 + 2 * k))

/-- R92 steps 2 and 6, R234: where the header or the operand cells do not fit in memory the machine stops with
EndOfMemory and nothing else changes but the growth of the reads made. The stop is the spec's decision D20, its
form in the model log entry 6. That the stop at operand cells holds of an IN facing an empty input too is the
model's choice (log entry 23). -/
def Obligations.FetchStopsAtEndOfMemory : Prop :=
  ∀ s : State, s.config.wellFormed = true → s.run = .running →
    (s.config.memSize ≤ s.pc + 1 → step s = .next { s with run := .fatal .endOfMemory }) ∧
    (s.pc + 1 < s.config.memSize → s.permitsAll [s.pc, s.pc + 1] = true →
      s.cell s.pc ≤ 10 → s.cell (s.pc + 1) ≤ 63 →
      s.config.memSize < s.pc + 2 + 2 * s.cell s.pc →
      step s = .next { s.touchAll [s.pc, s.pc + 1] with run := .fatal .endOfMemory })

/-- R57, R227 row 2: a fetch whose first cell is denied traps with cause 2 and no access is made. Only a
machine configured with Threshold denies (log entry 5). That it holds of an IN facing an empty input too is the
model's choice (log entry 23). -/
def Obligations.DeniedFetchTraps : Prop :=
  ∀ s : State, s.run = .running → s.pc + 1 < s.config.memSize → s.permits s.pc = false →
    ∃ t, step s = .next t ∧ s.Traps t 2 []

/-! ### Traps, accesses, the allocation table -/

/-- R220, R224: trap entry makes process 0 current and privileged with the cause's code in its accumulator,
sets the engine running, and changes nothing else. -/
def Obligations.TrapEntryChangesOnlyThis : Prop :=
  ∀ s : State, s.Traps (trapEntry .syscall s) 0 [] ∧ s.Traps (trapEntry .illegalInstruction s) 1 [] ∧
    s.Traps (trapEntry .memoryViolation s) 2 [] ∧ s.Traps (trapEntry .invalidProcessId s) 3 [] ∧
    s.Traps (trapEntry .invalidOperandCount s) 4 [] ∧
    s.Traps (trapEntry .arithmeticFault s) s.config.causeArith [] ∧
    (∀ v, s.Traps (trapEntry (.software v) s) v [])

/-- R56, R57: the access check. Privileged it permits and changes nothing. Under LazyGrow in user mode it
permits, the current process owns the address afterwards and nothing else changes. Under Threshold in user mode
it denies exactly below the threshold and changes nothing. The choice of policy, the growth for process 0 and
the untouched table under Threshold are the spec's decisions D7, D36 and D35. -/
def Obligations.AccessCheckFollowsThePolicy : Prop :=
  ∀ (s : State) (a : Nat),
    (s.priv = true → s.check a = some s) ∧
    (s.priv = false → s.config.policy = .lazyGrow → ∃ s', s.check a = some s' ∧
      (∀ q b, s'.owns q b = (s.owns q b || decide (q = s.cur ∧ a = b))) ∧
      { s' with owned := s.owned } = s ∧ (s.owns s.cur a = true → s' = s)) ∧
    (∀ thr, s.priv = false → s.config.policy = .threshold thr →
      s.check a = if a < thr then none else some s)

/-- R57, R223: an instruction whose source read, destination access, push or pop is denied traps with cause 2
and changes nothing else. Only a machine configured with Threshold denies (log entry 5). -/
def Obligations.DeniedAccessesTrap : Prop :=
  ∀ s : State,
    (∀ mk ∈ sourceMakers, ∀ op rest, s.permitsAll (sourceCells op) = false →
      ∃ t, exec (mk (op :: rest)) s = .next t ∧ s.Traps t 2 []) ∧
    (∀ mk ∈ destinationMakers, ∀ op rest a, resolveTarget op s = some (.cell a) →
      s.permits a = false → ∃ t, exec (mk (op :: rest)) s = .next t ∧ s.Traps t 2 []) ∧
    (s.permits (s.reg .sp) = false →
      (∀ op rest, ∃ t, exec (.jsr (op :: rest)) s = .next t ∧ s.Traps t 2 []) ∧
      (∀ ops, ∃ t, exec (.pha ops) s = .next t ∧ s.Traps t 2 []) ∧
      (∀ ops, ∃ t, exec (.php ops) s = .next t ∧ s.Traps t 2 [])) ∧
    (s.permits (popCell s) = false →
      ∀ mk ∈ [Instr.rts, Instr.rti, Instr.pla, Instr.plp], ∀ ops,
        ∃ t, exec (mk ops) s = .next t ∧ s.Traps t 2 [])

/-- R58: two canonical extent lists that cover the same addresses are the same list. It justifies holding the
set as extents (log entry 12). -/
def Obligations.ExtentsDetermineTheSet : Prop :=
  ∀ (size : Nat) (l l' : List Extent), ExtentsWf size l → ExtentsWf size l' →
    (∀ a, covers l a = covers l' a) → l = l'

/-- R59: allocating the same range twice gives what allocating it once gives, and allocating two ranges that
become adjacent, in either order, gives what allocating their union gives. The host operation adds the range
for any process id, in the process table or not, and changes nothing else, and it refuses a size of 0 and a
range that leaves memory. Union is the spec's decision D28, the operation D18 (its form log entry 13, the
refusals log entry 21). -/
def Obligations.AllocateMergesRanges : Prop :=
  (∀ (s : State) (p addr n m : Nat), ExtentsWf s.config.memSize (s.extents p) → 1 ≤ n → 1 ≤ m →
    addr + n + m ≤ s.config.memSize →
    ((s.allocate p addr n).allocate p addr n).extents p = (s.allocate p addr n).extents p ∧
    ((s.allocate p addr n).allocate p (addr + n) m).extents p =
      (s.allocate p addr (n + m)).extents p ∧
    ((s.allocate p (addr + n) m).allocate p addr n).extents p =
      (s.allocate p addr (n + m)).extents p) ∧
  (∀ (s : State) (p addr n : Nat), s.isFatal = false →
    ((n = 0 ∨ s.config.memSize < addr + n) → hostAllocate p addr n s = .refused) ∧
    (1 ≤ n → addr + n ≤ s.config.memSize →
      hostAllocate p addr n s = .done (s.allocate p addr n) ∧
      (∀ q a, (s.allocate p addr n).owns q a =
        (s.owns q a || decide (q = p ∧ addr ≤ a ∧ a < addr + n))) ∧
      { s.allocate p addr n with owned := s.owned } = s))

/-! ### Whole-machine rules -/

/-- R39: the state after Reset, read through every accessor, and that it is well formed. The values are the
spec's decision D17 (log entry 3). -/
def Obligations.ResetLeavesTheStatedValues : Prop :=
  (∀ q, (tableFind State.reset.proc q).isSome = decide (q = 0)) ∧
  (∀ r, (State.reset.file 0).get r = 0) ∧ (State.reset.file 0).pc = 0 ∧
  (State.reset.file 0).f = 0 ∧ (State.reset.file 0).ds = 0 ∧
  State.reset.cur = 0 ∧ State.reset.priv = true ∧ (∀ a, State.reset.cell a = 0) ∧
  (∀ q a, State.reset.owns q a = false) ∧ State.reset.run = .running ∧ State.reset.inq = [] ∧
  State.reset.outq = [] ∧ State.reset.exits = [] ∧ State.reset.config = .hardware ∧ State.reset.wf

/-- Every step keeps the invariant: process 0 and the current process exist (R31, R32), reserved flag bits are
0 (R29), memory and the allocation table stay canonical and inside memory (R35). The reserved bits stay 0 by
the spec's decision D21. -/
def Obligations.StepKeepsWellFormed : Prop :=
  ∀ s t : State, s.wf → step s = .next t → t.wf

/-- Every host operation keeps the invariant. The operations are the spec's decision D18, their form as
functions log entry 13. -/
def Obligations.HostOperationsKeepWellFormed : Prop :=
  ∀ (s : State) (op : HostOp), s.wf → ((hostPerform op s).after s).wf

/-- R28: an instruction that is not in the list of flag writers changes no flags register of any process. That
the others write no flag is the spec's decision D13. -/
def Obligations.FlagWritersAreClosed : Prop :=
  ∀ (i : Instr) (s t : State), exec i s = .next t → NoneOf flagWriters i →
    ∀ q, t.hasProc q = true → (t.file q).f = (s.file q).f

/-- R28: no instruction sets `V` to 1 except PLP. It rests on the spec's decision D13. -/
def Obligations.OverflowIsSetOnlyByPlp : Prop :=
  ∀ (i : Instr) (s t : State) (q : Nat), exec i s = .next t → t.hasProc q = true →
    (t.file q).f &&& 0x40 ≠ 0 → (s.file q).f &&& 0x40 = 0 → q = s.cur ∧ i = .plp i.operands

/-- R64: an instruction that is no store, no read-modify-write and no push changes no cell. -/
def Obligations.OnlyStoresWriteMemory : Prop :=
  ∀ (i : Instr) (s t : State), exec i s = .next t → NoneOf cellWriters i →
    ∀ a, t.cell a = s.cell a

/-- R30: no step writes a data pointer. It rests on the spec's decision D29. -/
def Obligations.DataPointerIsNeverWritten : Prop :=
  ∀ (s t : State) (q : Nat), step s = .next t → t.hasProc q = true →
    (t.file q).ds = (s.file q).ds

/-- R225, R229: a step leaves the register file of every process but the current one as it was, process 0
apart, and of process 0, when it is not current, it changes at most the accumulator. -/
def Obligations.OtherProcessesAreUntouched : Prop :=
  ∀ s t : State, step s = .next t →
    (∀ q, q ≠ s.cur → q ≠ 0 → tableFind t.proc q = tableFind s.proc q) ∧
    (s.cur ≠ 0 → (t.file 0).pc = (s.file 0).pc ∧ (t.file 0).f = (s.file 0).f ∧
      (t.file 0).ds = (s.file 0).ds ∧ ∀ r, r ≠ .a → (t.file 0).get r = (s.file 0).get r)

/-- R229: no instruction reads the registers of a process other than the current one. Whatever register file
another process has, process 0 included, everything else comes out the same, and that file itself is as it was,
but for process 0 where the instruction traps: then trap entry is made on it. -/
def Obligations.OtherRegistersAreNotRead : Prop :=
  ∀ (i : Instr) (s t : State) (q : Nat) (rf : RegFile), q ≠ s.cur → exec i s = .next t →
    ∃ u, exec i (s.setFile q rf) = .next u ∧
      (∀ p, p ≠ q → tableFind u.proc p = tableFind t.proc p) ∧ { u with proc := t.proc } = t ∧
      ((tableFind t.proc q = tableFind s.proc q ∧ tableFind u.proc q = some rf) ∨
        (q = 0 ∧ ∃ c l, t = trapEntry c (s.touchAll l) ∧
          u = trapEntry c ((s.setFile 0 rf).touchAll l)))

/-- R232: every transition of `PRIV`. Reset, trap entry and SWT set it, CLP clears it, and nothing else changes
it: a step that leaves privileged mode executes CLP, a step that enters it executes SWT or is trap entry on the
stepped state with the accesses it had made, and a host operation other than Reset and Step changes it by trap
entry on the state it found, with cause 2 or 3, alone. The host operations are the spec's decision D18. -/
def Obligations.PrivilegeTransitionsAreClosed : Prop :=
  (∀ s : State, ((hostPerform .reset s).after s).priv = true) ∧
  (∀ c s, (trapEntry c s).priv = true) ∧
  (∀ ops s, ∃ t, exec (.swt ops) s = .next t ∧ t.priv = true) ∧
  (∀ ops s, ∃ t, exec (.clp ops) s = .next t ∧ t.priv = false) ∧
  (∀ s t : State, step s = .next t →
    (s.priv = true → t.priv = false → ∃ ops u, fetch s = .ok (.clp ops) u) ∧
    (s.priv = false → t.priv = true →
      (∃ ops u, fetch s = .ok (.swt ops) u) ∨ ∃ c l, t = trapEntry c (s.touchAll l))) ∧
  (∀ (s : State) (op : HostOp), op ≠ .reset → op ≠ .step →
    ((hostPerform op s).after s).priv = s.priv ∨
      ∃ c, (c = .memoryViolation ∨ c = .invalidProcessId) ∧
        (hostPerform op s).after s = trapEntry c s)

/-- R209: no instruction checks `PRIV`. Under LazyGrow an instruction does the same in both modes, the
allocation table and the flag itself apart. It rests on the spec's decision D15. -/
def Obligations.PrivilegeGatesOnlyTheCheck : Prop :=
  ∀ (i : Instr) (s t u : State), s.config.policy = .lazyGrow →
    exec i { s with priv := true } = .next t → exec i { s with priv := false } = .next u →
    { u with priv := t.priv, owned := t.owned } = t

/-- R56, R61, R60: a step changes what the current process owns and nothing of any other process. Privileged it
adds nothing, and it takes away only what a process owned that leaves the table. -/
def Obligations.OwnershipGrowsOnlyForTheCurrentProcess : Prop :=
  ∀ s t : State, step s = .next t →
    (∀ q a, q ≠ s.cur → t.owns q a = s.owns q a) ∧
    (∀ a, s.owns s.cur a = true → t.owns s.cur a = true ∨ t.hasProc s.cur = false) ∧
    (s.priv = true → ∀ a, t.owns s.cur a = true → s.owns s.cur a = true)

/-! ### Data movement -/

/-- R111, R112, R113: LDA, LDX and LDY write the value of the source operand to their register. That LDX writes
`X` and LDY `Y`, X the first of the two, is the spec's reading G3 (log entry 22), their indices 6 and 7 its
decision D5. No flag: the spec's decision D13. -/
def Obligations.LoadsReadTheirOperand : Prop :=
  ∀ row ∈ loads, ∀ (op : Operand) (rest : List Operand) (s : State),
    s.permitsAll (sourceCells op) = true →
    ∃ t, exec (row.1 (op :: rest)) s = .next t ∧ s.Becomes t
      { plainEffect (rest.length + 1) s with
        reg := writes row.2 (sourceValue op s), touched := sourceCells op }

/-- R114, R115, R116, R89: STA, STX and STY on a cell write their register to it and to no other cell. The cell
is `value` in Absolute mode and `p + value` in Relative mode. That STX stores `X` and STY `Y`, X the first of
the two, is the spec's reading G3 (log entry 22), their indices 6 and 7 its decision D5. No flag: the spec's
decision D13. -/
def Obligations.StoresWriteTheirCell : Prop :=
  ∀ row ∈ stores, ∀ (op : Operand) (rest : List Operand) (s : State) (a : Nat),
    resolveTarget op s = some (.cell a) → s.permits a = true →
    ((op.mode = .absolute ∧ a = op.value.toNat) ∨
      (op.mode = .relative ∧ a = trunc s.config.xlen ((s.pc : Int) + op.value.toNat))) ∧
    ∃ t, exec (row.1 (op :: rest)) s = .next t ∧ s.Becomes t
      { plainEffect (rest.length + 1) s with cell := some (a, s.reg row.2), touched := [a] }

/-- R114, R115, R116, R24: STA, STX and STY with a Register-mode operand up to 9 copy their register to the
register with that index and store nothing in memory. That STX copies `X` and STY `Y`, X the first of the two,
is the spec's reading G3 (log entry 22), the index of each register its decision D5. No flag: the spec's
decision D13. -/
def Obligations.StoresCopyToARegister : Prop :=
  ∀ row ∈ stores, ∀ (op : Operand) (rest : List Operand) (s : State) (r : Reg),
    s.config.wellFormed = true → op.mode = .register → op.value.toNat = r.index →
    ∃ t, exec (row.1 (op :: rest)) s = .next t ∧ s.Becomes t
      { plainEffect (rest.length + 1) s with reg := writes r (s.reg row.2) }

/-- R89: an Immediate-mode destination, and a Register-mode destination with an index above 9, trap with cause
1 in STA, STX, STY, INC and DEC. The cause and the case of an index above 9 are the spec's decisions D9 and
D10. -/
def Obligations.InvalidDestinationsTrap : Prop :=
  ∀ mk ∈ destinationMakers, ∀ (op : Operand) (rest : List Operand) (s : State),
    invalidDestination s.config op = true → ∃ t, exec (mk (op :: rest)) s = .next t ∧ s.Traps t 1 []

/-- R98: an instruction with fewer operands than its arity traps with cause 4, whatever its other conditions.
It is the spec's decision D11, checked by the meaning in the model (log entry 10). -/
def Obligations.MissingOperandsTrap : Prop :=
  ∀ (i : Instr) (s : State), i.hasOperands = false → ∃ t, exec i s = .next t ∧ s.Traps t 4 []

/-- R98: operands after the first are never used. Only their number counts, through the length. It is the
spec's decision D11. -/
def Obligations.ExtraOperandsAreIgnored : Prop :=
  ∀ (m : Mnemonic) (op : Operand) (rest rest' : List Operand) (s : State),
    rest.length = rest'.length → exec (m.make (op :: rest)) s = exec (m.make (op :: rest')) s

/-- R117 to R122: TAX, TAY, TSX, TXA, TXS and TYA copy one register to another. Source and destination are the
spec's reading G2 (log entry 22). -/
def Obligations.TransfersCopyARegister : Prop :=
  ∀ row ∈ transfers, ∀ (ops : List Operand) (s : State),
    ∃ t, exec (row.1 ops) s = .next t ∧ s.Becomes t
      { plainEffect ops.length s with reg := writes row.2.2 (s.reg row.2.1) }

/-! ### Arithmetic, bitwise, shifts -/

/-- R131, R132: INC and DEC add one and subtract one modulo 2^XLEN, on a cell and on a register. Wrapping is
the spec's decision D4. -/
def Obligations.IncAndDecStepTheirDestination : Prop :=
  ∀ row ∈ steppers, ∀ (op : Operand) (rest : List Operand) (s : State),
    (∀ a, resolveTarget op s = some (.cell a) → s.permits a = true →
      ∃ t, exec (row.1 (op :: rest)) s = .next t ∧ s.Becomes t
        { plainEffect (rest.length + 1) s with
          cell := some (a, s.cell a + row.2), touched := [a] }) ∧
    (∀ r : Reg, s.config.wellFormed = true → op.mode = .register → op.value.toNat = r.index →
      ∃ t, exec (row.1 (op :: rest)) s = .next t ∧ s.Becomes t
        { plainEffect (rest.length + 1) s with
          reg := writes r (s.reg r + row.2) })

/-- R133 to R137: INA, INX, INY, DEX and DEY step their register by one modulo 2^XLEN. Wrapping is the spec's
decision D4, the sense of the mnemonics its reading G6 (log entry 22). -/
def Obligations.NamedRegistersStepByOne : Prop :=
  ∀ row ∈ namedSteppers, ∀ (ops : List Operand) (s : State),
    ∃ t, exec (row.1 ops) s = .next t ∧ s.Becomes t
      { plainEffect ops.length s with
        reg := writes row.2.1 (s.reg row.2.1 + row.2.2) }

/-- R138, R139, R140, R143, R144, R145: ADD, SUB, MUL, AND, ORA and XOR combine `A` with the operand as the
integer laws say, and write `A` only. That ORA is the inclusive or is the spec's reading G7 (log entry 22).
Wrapping and no flag are the spec's decisions D4 and D13. -/
def Obligations.AccumulatorOperations : Prop :=
  ∀ row ∈ accumulators, ∀ (op : Operand) (rest : List Operand) (s : State),
    s.permitsAll (sourceCells op) = true →
    ∃ t, exec (row.1 (op :: rest)) s = .next t ∧ s.Becomes t
      { plainEffect (rest.length + 1) s with
        reg := writes .a (row.2 (s.reg .a) (sourceValue op s)), touched := sourceCells op }

/-- R141, R142: DIV and MOD on an operand that is not 0 give the unsigned quotient and remainder. Quotient and
remainder are the spec's decision D33. -/
def Obligations.DivisionResults : Prop :=
  ∀ row ∈ divisions, ∀ (op : Operand) (rest : List Operand) (s : State),
    s.permitsAll (sourceCells op) = true → sourceValue op s ≠ 0 →
    ∃ t, exec (row.1 (op :: rest)) s = .next t ∧ s.Becomes t
      { plainEffect (rest.length + 1) s with
        reg := writes .a (row.2 (s.reg .a) (sourceValue op s)), touched := sourceCells op }

/-- R141, R142: DIV and MOD on the operand 0 trap with `CAUSE_ARITH`, 5 on this hardware, the accumulator not
written. The growth of the operand read stays (R223). The code 5 is the spec's decision D8 (log entry 5), the
growth kept D22. -/
def Obligations.DivisionByZeroTraps : Prop :=
  Config.hardware.causeArith = 5 ∧ ∀ mk ∈ [Instr.div, Instr.mod], ∀ (op : Operand) (rest : List Operand) (s : State),
    s.permitsAll (sourceCells op) = true → sourceValue op s = 0 →
    ∃ t, exec (mk (op :: rest)) s = .next t ∧ s.Traps t s.config.causeArith (sourceCells op)

/-- R151 to R154: SHL, LSR, ROL and ROR (opcodes 29 to 32 on this hardware) move `A` by one place at width
XLEN. No flag takes part. The directions of SHL and LSR are the spec's reading G8 (log entry 22), the opcode
numbers its decision D6 (log entry 17), that no flag is written D13. -/
def Obligations.ShiftsAndRotatesByOne : Prop :=
  ∀ row ∈ shifts, decode .hardware [0, row.2.1] = .ok (row.1 [], []) ∧
    ∀ (ops : List Operand) (s : State), s.wf →
      ∃ t, exec (row.1 ops) s = .next t ∧ s.Becomes t
        { plainEffect ops.length s with reg := writes .a (row.2.2 s.config.xlen (s.reg .a)) }

/-- R155: BIT sets or clears `Z` by `A & operand` and changes no other bit of `F` and no register. -/
def Obligations.BitTestWritesZeroOnly : Prop :=
  ∀ (op : Operand) (rest : List Operand) (s : State), s.permitsAll (sourceCells op) = true →
    ∃ t, exec (.bit (op :: rest)) s = .next t ∧ s.Becomes t
      { plainEffect (rest.length + 1) s with
        flags := some (if s.reg .a &&& sourceValue op s = 0 then s.flags ||| 0x02
          else s.flags &&& 0xFD)
        touched := sourceCells op }

/-! ### Control transfer -/

/-- R161, R160: JMP puts the control-transfer target in `pc`, reads no cell and changes nothing else. -/
def Obligations.JumpGoesToItsTarget : Prop :=
  ∀ (op : Operand) (rest : List Operand) (s : State),
    ∃ t, exec (.jmp (op :: rest)) s = .next t ∧ s.Becomes t (jumpEffect (controlTarget op s) s)

/-- R162: JSR stores `p + 2 + 2n` in the cell `SP`, decrements `SP` modulo 2^XLEN and goes to the target that
was resolved first. The address pushed is the spec's decision D14. -/
def Obligations.CallPushesTheReturnAddress : Prop :=
  ∀ (op : Operand) (rest : List Operand) (s : State), s.permits (s.reg .sp) = true →
    ∃ t, exec (.jsr (op :: rest)) s = .next t ∧ s.Becomes t
      { jumpEffect (controlTarget op s) s with
        reg := writes .sp (s.reg .sp - 1)
        cell := some (s.reg .sp, trunc s.config.xlen (s.pc + 2 + 2 * (rest.length + 1)))
        touched := [s.reg .sp] }

/-- R163, R202: RTS and RTI pop `pc` from the cell `SP + 1` of the current process's stack and change `SP`,
nothing else: not `PRIV`, not `CUR`, not the flags. -/
def Obligations.ReturnsPopTheProgramCounter : Prop :=
  ∀ mk ∈ [Instr.rts, Instr.rti], ∀ (ops : List Operand) (s : State), s.permits (popCell s) = true →
    ∃ t, exec (mk ops) s = .next t ∧ s.Becomes t
      { jumpEffect (s.cell (popCell s)) s with
        reg := writes .sp (s.reg .sp + 1), touched := [popCell s] }

/-- R165 to R172: each branch jumps when its flag has the value that takes it and falls through otherwise.
Which flag and which polarity is the spec's reading G4 (log entry 22). -/
def Obligations.BranchesTestOneFlag : Prop :=
  ∀ row ∈ branches, ∀ (op : Operand) (rest : List Operand) (s : State),
    ∃ t, exec (row.1 (op :: rest)) s = .next t ∧ s.Becomes t
      (if decide (s.flags &&& row.2.1 ≠ 0) = row.2.2 then jumpEffect (controlTarget op s) s
        else plainEffect (rest.length + 1) s)

/-- R163: JSR and then RTS at the target come back to the instruction after the JSR with `SP` as it was. It
rests on the spec's decision D14. -/
def Obligations.CallThenReturnComesBack : Prop :=
  ∀ (op : Operand) (rest ops : List Operand) (s : State), s.wf → s.permits (s.reg .sp) = true →
    ∃ t u, exec (.jsr (op :: rest)) s = .next t ∧ exec (.rts ops) t = .next u ∧
      u.pc = trunc s.config.xlen (s.pc + 2 + 2 * (rest.length + 1)) ∧ ∀ r, u.reg r = s.reg r

/-! ### Flags, stack, compares -/

/-- R180 to R184: SEC, CLC, SED, CLD and CLV set or clear one bit of `F`. Set and clear are the spec's reading
G5 (log entry 22). -/
def Obligations.FlagInstructionsChangeOneBit : Prop :=
  ∀ row ∈ flagOps, ∀ (ops : List Operand) (s : State),
    ∃ t, exec (row.1 ops) s = .next t ∧ s.Becomes t
      { plainEffect ops.length s with flags := some (row.2 s.flags) }

/-- R186, R187, R188: PHA and PHP store `A` and the zero-extended `F` in the cell `SP` and decrement `SP`. The
form of the pushed flags is the spec's decision D21. -/
def Obligations.PushesStoreOneCell : Prop :=
  ∀ row ∈ pushes, ∀ (ops : List Operand) (s : State), s.permits (s.reg .sp) = true →
    ∃ t, exec (row.1 ops) s = .next t ∧ s.Becomes t
      { plainEffect ops.length s with
        reg := writes .sp (s.reg .sp - 1)
        cell := some (s.reg .sp, row.2 s), touched := [s.reg .sp] }

/-- R186, R189, R190: PLA loads `A`, and PLP the defined bits of `F`, from the cell `SP + 1`. `SP` becomes that
address. The mask of PLP is the spec's decision D21. -/
def Obligations.PullsLoadOneCell : Prop :=
  ∀ (ops : List Operand) (s : State), s.permits (popCell s) = true →
    (∃ t, exec (.pla ops) s = .next t ∧ s.Becomes t
      { plainEffect ops.length s with
        reg := fun r => if r = .a then some (s.cell (popCell s))
          else if r = .sp then some (s.reg .sp + 1) else none
        touched := [popCell s] }) ∧
    (∃ t, exec (.plp ops) s = .next t ∧ s.Becomes t
      { plainEffect ops.length s with
        reg := writes .sp (s.reg .sp + 1)
        flags := some (BitVec.ofNat 8 (s.cell (popCell s)) &&& 0xCB)
        touched := [popCell s] })

/-- R186: in a well-formed state PHA then PLA leaves `A` and `SP` unchanged, and PHP then PLP leaves `F` and
`SP` unchanged. For the flags it rests on the spec's decision D21. -/
def Obligations.PushThenPullRestores : Prop :=
  ∀ (ops ops' : List Operand) (s : State), s.wf → s.permits (s.reg .sp) = true →
    (∃ t u, exec (.pha ops) s = .next t ∧ exec (.pla ops') t = .next u ∧
      (∀ r, u.reg r = s.reg r) ∧ u.flags = s.flags) ∧
    (∃ t u, exec (.php ops) s = .next t ∧ exec (.plp ops') t = .next u ∧
      (∀ r, u.reg r = s.reg r) ∧ u.flags = s.flags)

/-- R191 to R194: CMP, CPX and CPY build `F` from nothing: 0x03 when equal, 0x01 when the register is above the
operand, 0x80 when it is below, as unsigned numbers. That CMP compares `A`, CPX `X` and CPY `Y` is the spec's
reading G9, with G3 for the letters (log entry 22). Unsigned is its decision D4. -/
def Obligations.ComparesSetFlagsFromScratch : Prop :=
  ∀ row ∈ compares, ∀ (op : Operand) (rest : List Operand) (s : State),
    s.permitsAll (sourceCells op) = true →
    ∃ t, exec (row.1 (op :: rest)) s = .next t ∧ s.Becomes t
      { plainEffect (rest.length + 1) s with
        flags := some (if s.reg row.2 = sourceValue op s then 0x03
          else if sourceValue op s < s.reg row.2 then 0x01 else 0x80)
        touched := sourceCells op }

/-! ### No operation, privilege, traps by instruction, halt, devices -/

/-- R200: NOP advances `pc` and does nothing else. That NOP does nothing is the spec's reading G10 (log entry
22). -/
def Obligations.NopOnlyAdvances : Prop :=
  ∀ (ops : List Operand) (s : State),
    ∃ t, exec (.nop ops) s = .next t ∧ s.Becomes t (plainEffect ops.length s)

/-- R208, R201: SYSCALL (bytes 00 01) traps with cause 0 and INT (bytes 00 39) with the whole value of `A`. The
trap is the whole effect. The opcode numbers 1 and 57 are the spec's decision D6 (log entry 17), that `pc`
stays at the trapping instruction its decision D22. -/
def Obligations.SoftwareTrapsEnterTheKernel : Prop :=
  decode .hardware [0, 0x01] = .ok (.syscall [], []) ∧ decode .hardware [0, 0x39] = .ok (.int [], []) ∧
  ∀ (ops : List Operand) (s : State),
    (∃ t, exec (.syscall ops) s = .next t ∧ s.Traps t 0 []) ∧
    (∃ t, exec (.int ops) s = .next t ∧ s.Traps t (s.reg .a) [])

/-- R203, R204: CLP (bytes 00 3B) clears `PRIV` and SWT (bytes 00 3C) sets it, in either mode, and nothing else
changes. The opcode numbers 59 and 60 are the spec's decision D6 (log entry 17), execution in either mode its
decision D15. -/
def Obligations.ClpAndSwtWritePrivilege : Prop :=
  decode .hardware [0, 0x3B] = .ok (.clp [], []) ∧ decode .hardware [0, 0x3C] = .ok (.swt [], []) ∧
  ∀ (ops : List Operand) (s : State),
    (∃ t, exec (.clp ops) s = .next t ∧
      s.Becomes t { plainEffect ops.length s with priv := some false }) ∧
    (∃ t, exec (.swt ops) s = .next t ∧
      s.Becomes t { plainEffect ops.length s with priv := some true })

/-- R205: HLT reports the exit and stops the engine. A process other than 0 leaves the table with what it owned
and process 0 becomes current. Process 0 stays, and its `pc` passes the HLT. Nothing else changes. The machine
after HLT is the spec's decision D16. -/
def Obligations.HaltEndsTheProcess : Prop :=
  ∀ (ops : List Operand) (s : State), ∃ t, exec (.hlt ops) s = .next t ∧
    t.cur = 0 ∧ t.run = .halted ∧ t.priv = s.priv ∧ t.config = s.config ∧
    t.inq = s.inq ∧ t.outq = s.outq ∧ t.exits = s.exits ++ [⟨s.cur, s.reg .a⟩] ∧
    (∀ a, t.cell a = s.cell a) ∧
    (∀ q, q ≠ s.cur → tableFind t.proc q = tableFind s.proc q) ∧
    (s.cur ≠ 0 → tableFind t.proc s.cur = none ∧
      ∀ q a, t.owns q a = (decide (q ≠ s.cur) && s.owns q a)) ∧
    (s.cur = 0 → t.file 0 = { s.file 0 with pc := trunc s.config.xlen (s.pc + 2 + 2 * ops.length) } ∧
      ∀ q a, t.owns q a = s.owns q a)

/-- R206, R207: IN takes one unit from the input stream into `A`, zero-extended. OUT appends the low byte of
`A` to the output stream. The unit of 8 bits is the spec's decision D19. -/
def Obligations.InputAndOutputMoveOneUnit : Prop :=
  ∀ (ops : List Operand) (s : State),
    (∀ u rest, s.inq = u :: rest → ∃ t, exec (.inp ops) s = .next t ∧ s.Becomes t
      { plainEffect ops.length s with reg := writes .a u.toNat, inq := some rest }) ∧
    (∃ t, exec (.out ops) s = .next t ∧ s.Becomes t
      { plainEffect ops.length s with out := [BitVec.ofNat 8 (s.reg .a)] })

/-! ### Host control -/

/-- R236, R237, R238: Admit, Evict and Switch where the machine has not stopped for good. R233: after a fatal
stop Load, Admit, Evict, Switch, Allocate and Step are refused and change nothing. R40: an admitted process has
a register file of zeros. The operations are the spec's decision D18 (their form log entry 13, the refusals log
entry 21), that a fatal stop lasts until Reset its decision D20. The zeros are its decision D17 (log entry 3),
that every id not in the table can be admitted its decision D25 (log entry 20). -/
def Obligations.HostProcessOperations : Prop :=
  (∀ (s : State) (op : HostOp), s.isFatal = true → op ≠ .reset → (∀ units, op ≠ .supply units) →
    hostPerform op s = .refused ∧ (hostPerform op s).after s = s) ∧
  ∀ (s : State) (p : Nat), s.isFatal = false →
    (s.hasProc p = true → hostAdmit p s = .refused) ∧
    (s.hasProc p = false → ∃ t, hostAdmit p s = .done t ∧ tableFind t.proc p = some RegFile.zero ∧
      (∀ q, q ≠ p → tableFind t.proc q = tableFind s.proc q) ∧ { t with proc := s.proc } = s) ∧
    (hostEvict 0 s = .refused) ∧
    (p ≠ 0 → s.hasProc p = false → ∃ t, hostEvict p s = .done t ∧ s.Traps t 3 []) ∧
    (p ≠ 0 → s.hasProc p = true → ∃ t, hostEvict p s = .done t ∧ tableFind t.proc p = none ∧
      (∀ q, q ≠ p → tableFind t.proc q = tableFind s.proc q) ∧
      (∀ q a, t.owns q a = (decide (q ≠ p) && s.owns q a)) ∧
      t.cur = (if p = s.cur then 0 else s.cur) ∧ t.run = (if p = s.cur then .halted else s.run) ∧
      { t with proc := s.proc, owned := s.owned, cur := s.cur, run := s.run } = s) ∧
    (s.hasProc p = false → ∃ t, hostSwitch p s = .done t ∧ s.Traps t 3 []) ∧
    (s.hasProc p = true → hostSwitch p s = .done { s with cur := p, run := .running })

/-- R252: Load of an image of fewer than 2 bytes is refused. R254: an image that does not fit stops the machine
with ImageTooLarge and changes nothing else. R252, R253: an image that fits, in cells the check permits, is
loaded: its bytes in consecutive cells and no other cell changed, `DS` and `pc` of the current process set from
the header, its cells added to what the current process owns where accesses are recorded (user mode under
LazyGrow), nothing else changed, its length returned. Where the check denies a cell of the image (user mode
under Threshold) the load is refused whole: trap entry with cause 2 and nothing else. The stop is the spec's
decision D20, the whole refusal D37 (log entry 18), the data pointer its conflict C14, the operation D18 (log
entry 13). -/
def Obligations.LoaderPlacesTheImage : Prop :=
  ∀ (s : State) (image : List Byte) (offset : Nat), s.config.wellFormed = true → s.isFatal = false →
    (image.length < 2 → hostLoad image offset s = .refused) ∧
    (2 ≤ image.length → s.config.memSize < offset + image.length →
      hostLoad image offset s = .done { s with run := .fatal .imageTooLarge }) ∧
    (2 ≤ image.length → offset + image.length ≤ s.config.memSize →
      s.permitsAll (fetchCells offset image.length) = false →
      ∃ t, hostLoad image offset s = .done t ∧ s.Traps t 2 []) ∧
    (2 ≤ image.length → offset + image.length ≤ s.config.memSize →
      s.permitsAll (fetchCells offset image.length) = true →
      ∃ t, hostLoad image offset s = .loaded image.length t ∧
        (∀ a : Nat, t.cell a = if offset ≤ a ∧ a < offset + image.length
          then (image.getD (a - offset) 0).toNat else s.cell a) ∧
        (∀ q, q ≠ s.cur → tableFind t.proc q = tableFind s.proc q) ∧
        t.file s.cur = { s.file s.cur with
          pc := trunc s.config.xlen (offset + 2)
          ds := trunc s.config.xlen
            (offset + (image.getD 0 0).toNat * 256 + (image.getD 1 0).toNat) } ∧
        (∀ q a, t.owns q a = s.ownsAfter (fetchCells offset image.length) q a) ∧
        (s.priv = true → t.owned = s.owned) ∧
        { t with proc := s.proc, mem := s.mem, owned := s.owned } = s)
end

