-- ==== Sys2Proof/Laws/Config.lean ====
section
/-!
SUPPORT. What a well-formed configuration has, field by field (00_scope.md R5, R6), and that its opcode map
numbers every instruction once (30_encoding.md R96).
-/

namespace Sys2Proof

/-- The constraints of a well-formed configuration, one conjunct each. -/
theorem Config.wellFormed_iff {c : Config} : c.wellFormed = true ↔
    16 ≤ c.xlen ∧ c.cellw = c.xlen ∧ c.memSize = 2 ^ c.xlen ∧ c.policy.fits c.memSize = true ∧
    c.nreg = 10 ∧ c.maxOperands = 10 ∧ c.opcodeMap.length = 64 ∧ c.opcodeMap.Nodup ∧
    c.opcodeMap[0]? = some .nop ∧ c.opcodeMap[2]? = some .lda ∧ c.opcodeMap[63]? = some .out ∧
    c.causeArith < 2 ^ c.xlen := by
  simp only [Config.wellFormed, Bool.and_eq_true, decide_eq_true_eq, and_assoc]

section

variable {c : Config} (h : c.wellFormed = true)

include h

theorem Config.xlen_ge : 16 ≤ c.xlen := (wellFormed_iff.mp h).1
theorem Config.cellw_eq : c.cellw = c.xlen := (wellFormed_iff.mp h).2.1
theorem Config.memSize_eq : c.memSize = 2 ^ c.xlen := (wellFormed_iff.mp h).2.2.1
theorem Config.policy_fits : c.policy.fits c.memSize = true := (wellFormed_iff.mp h).2.2.2.1
theorem Config.nreg_eq : c.nreg = 10 := (wellFormed_iff.mp h).2.2.2.2.1
theorem Config.maxOperands_eq : c.maxOperands = 10 := (wellFormed_iff.mp h).2.2.2.2.2.1
theorem Config.opcodeMap_length : c.opcodeMap.length = 64 := (wellFormed_iff.mp h).2.2.2.2.2.2.1
theorem Config.opcodeMap_nodup : c.opcodeMap.Nodup := (wellFormed_iff.mp h).2.2.2.2.2.2.2.1

/-- Every 16-bit number fits in a register. -/
theorem Config.le_two_pow_xlen : 2 ^ 16 ≤ 2 ^ c.xlen :=
  Nat.pow_le_pow_right (by omega) (Config.xlen_ge h)

end

theorem Config.hardware_wellFormed : Config.hardware.wellFormed = true := by decide

/-- The hardware's map lists every mnemonic. -/
theorem mem_hardwareOpcodeMap (m : Mnemonic) : m ∈ hardwareOpcodeMap := by cases m <;> decide

/-- 64 different mnemonics are all the mnemonics. -/
theorem Config.mem_opcodeMap {c : Config} (h : c.wellFormed = true) (m : Mnemonic) : m ∈ c.opcodeMap := by
  have hsub : c.opcodeMap ⊆ hardwareOpcodeMap := fun m _ => mem_hardwareOpcodeMap m
  have hperm := ((Config.opcodeMap_nodup h).subperm hsub).perm_of_length_le (by
    rw [Config.opcodeMap_length h]; decide)
  exact hperm.mem_iff.mpr (mem_hardwareOpcodeMap m)

/-- An instruction is its mnemonic with its operands. -/
@[simp] theorem Instr.make_mnemonic (i : Instr) : i.mnemonic.make i.operands = i := by cases i <;> rfl

@[simp] theorem Mnemonic.mnemonic_make (m : Mnemonic) (ops : List Operand) :
    (m.make ops).mnemonic = m := by cases m <;> rfl

@[simp] theorem Mnemonic.operands_make (m : Mnemonic) (ops : List Operand) :
    (m.make ops).operands = ops := by cases m <;> rfl

/-- The number of an instruction selects its mnemonic in the map (R96). -/
theorem Config.opcodeMap_opcodeOf {c : Config} (h : c.wellFormed = true) (i : Instr) :
    c.opcodeMap[c.opcodeOf i]? = some i.mnemonic :=
  List.getElem?_idxOf (Config.mem_opcodeMap h _)

/-- The opcode numbers are 0 to 63. -/
theorem Config.opcodeOf_lt {c : Config} (h : c.wellFormed = true) (i : Instr) : c.opcodeOf i < 64 := by
  rw [← Config.opcodeMap_length h]
  exact List.idxOf_lt_length_of_mem (Config.mem_opcodeMap h _)

/-- The entry at a number makes the instruction of that number. -/
theorem Config.opcodeOf_make {c : Config} (h : c.wellFormed = true) {k : Nat} {m : Mnemonic}
    (hk : c.opcodeMap[k]? = some m) (ops : List Operand) : c.opcodeOf (m.make ops) = k := by
  obtain ⟨hlt, rfl⟩ := List.getElem?_eq_some_iff.mp hk
  rw [Config.opcodeOf, Mnemonic.mnemonic_make]
  exact (Config.opcodeMap_nodup h).idxOf_getElem k hlt

end Sys2Proof
end

