-- ==== Sys2Proof/Laws/Word.lean ====
section
/-!
SUPPORT. The laws of `trunc` (00_scope.md R10).
-/

namespace Sys2Proof

theorem trunc_lt (n : Nat) (v : Int) : trunc n v < 2 ^ n := by
  have h : (0 : Int) < ((2 ^ n : Nat) : Int) := by exact_mod_cast Nat.two_pow_pos n
  exact (Int.toNat_lt (Int.emod_nonneg v h.ne')).mpr (Int.emod_lt_of_pos v h)

/-- On a natural number `trunc` is the remainder. -/
theorem trunc_natCast (n k : Nat) : trunc n (k : Int) = k % 2 ^ n := by
  unfold trunc
  rw [← Int.natCast_emod, Int.toNat_natCast]

theorem trunc_of_lt {n k : Nat} (h : k < 2 ^ n) : trunc n (k : Int) = k := by
  rw [trunc_natCast, Nat.mod_eq_of_lt h]

@[simp] theorem trunc_zero (n : Nat) : trunc n 0 = 0 := by
  rw [← Nat.cast_zero, trunc_natCast, Nat.zero_mod]

/-- Truncated numbers agree exactly where the numbers agree modulo 2^n. -/
theorem trunc_eq_trunc_iff {n : Nat} {v w : Int} :
    trunc n v = trunc n w ↔ v % ((2 ^ n : Nat) : Int) = w % ((2 ^ n : Nat) : Int) := by
  have h : ((2 ^ n : Nat) : Int) ≠ 0 := by exact_mod_cast (Nat.two_pow_pos n).ne'
  unfold trunc
  have hv := Int.toNat_of_nonneg (Int.emod_nonneg v h)
  have hw := Int.toNat_of_nonneg (Int.emod_nonneg w h)
  exact ⟨fun e => by rw [← hv, e, hw], fun e => by rw [e]⟩

/-- The integer a truncated number is. -/
theorem natCast_trunc (n : Nat) (v : Int) : ((trunc n v : Nat) : Int) = v % ((2 ^ n : Nat) : Int) := by
  have h : ((2 ^ n : Nat) : Int) ≠ 0 := by exact_mod_cast (Nat.two_pow_pos n).ne'
  unfold trunc
  rw [Int.toNat_of_nonneg (Int.emod_nonneg v h)]

/-- Truncating twice to the same width truncates once. -/
@[simp] theorem trunc_trunc (n : Nat) (v : Int) : trunc n (trunc n v : Nat) = trunc n v :=
  trunc_of_lt (trunc_lt n v)

/-- Truncation before an addition does not show after it. -/
theorem trunc_trunc_add (n : Nat) (v w : Int) : trunc n ((trunc n v : Nat) + w) = trunc n (v + w) := by
  rw [trunc_eq_trunc_iff, natCast_trunc, Int.emod_add_emod]

end Sys2Proof
end

