-- ==== Sys2Proof/Laws/Table.lean ====
section
/-!
SUPPORT. The laws of the finite maps, of memory and of the extents: read after write, and that every
operation keeps the canonical form.
-/

namespace Sys2Proof.Machine

section Tables

variable {α : Type}

@[simp] theorem tableFind_nil (k : Nat) : tableFind ([] : List (Nat × α)) k = none := rfl

@[simp] theorem tableFind_put (t : List (Nat × α)) (k k' : Nat) (v : α) :
    tableFind (tablePut t k v) k' = if k = k' then some v else tableFind t k' := by
  induction t with
  | nil => simp [tablePut, tableFind]
  | cons e t ih =>
    obtain ⟨j, w⟩ := e
    by_cases h1 : k < j
    · simp [tablePut, h1, tableFind]
    · by_cases h2 : k = j
      · subst h2
        by_cases h3 : k = k' <;> simp [tablePut, tableFind, h3]
      · by_cases h3 : j = k'
        · subst h3; simp [tablePut, h1, h2, tableFind]
        · simp [tablePut, h1, h2, tableFind, h3, ih]

@[simp] theorem tableFind_erase (t : List (Nat × α)) (k k' : Nat) :
    tableFind (tableErase t k) k' = if k = k' then none else tableFind t k' := by
  induction t with
  | nil => simp [tableErase, tableFind]
  | cons e t ih =>
    obtain ⟨j, w⟩ := e
    unfold tableErase at ih ⊢
    by_cases h1 : j = k
    · subst h1
      by_cases h2 : j = k'
      · simpa [h2, tableFind] using ih
      · simpa [h2, tableFind] using ih
    · by_cases h2 : j = k'
      · subst h2; simp [h1, tableFind, Ne.symm h1]
      · simpa [h1, tableFind, h2] using ih

theorem mem_tablePut {t : List (Nat × α)} {k : Nat} {v : α} {e : Nat × α}
    (h : e ∈ tablePut t k v) : e = (k, v) ∨ e ∈ t := by
  induction t with
  | nil => simpa [tablePut] using h
  | cons f t ih =>
    obtain ⟨j, w⟩ := f
    simp only [tablePut] at h
    split at h
    · simpa using h
    · split at h
      · rcases List.mem_cons.mp h with h | h
        · exact .inl h
        · exact .inr (List.mem_cons_of_mem _ h)
      · rcases List.mem_cons.mp h with h | h
        · exact .inr (h ▸ List.mem_cons_self)
        · rcases ih h with h | h
          · exact .inl h
          · exact .inr (List.mem_cons_of_mem _ h)

theorem mem_tableErase {t : List (Nat × α)} {k : Nat} {e : Nat × α} (h : e ∈ tableErase t k) :
    e ∈ t := (List.mem_filter.mp h).1

theorem tableSorted_put {t : List (Nat × α)} (h : TableSorted t) (k : Nat) (v : α) :
    TableSorted (tablePut t k v) := by
  induction t with
  | nil => simp [tablePut]
  | cons e t ih =>
    obtain ⟨j, w⟩ := e
    obtain ⟨h1, h2⟩ := List.pairwise_cons.mp h
    simp only [tablePut]
    split
    · rename_i hk
      refine List.pairwise_cons.mpr ⟨?_, h⟩
      intro e he
      rcases List.mem_cons.mp he with rfl | he
      · exact hk
      · exact Nat.lt_trans hk (h1 e he)
    · split
      · rename_i hk
        subst hk
        exact List.pairwise_cons.mpr ⟨h1, h2⟩
      · refine List.pairwise_cons.mpr ⟨?_, ih h2⟩
        intro e he
        rcases mem_tablePut he with rfl | he
        · show j < k; omega
        · exact h1 e he

theorem tableSorted_erase {t : List (Nat × α)} (h : TableSorted t) (k : Nat) :
    TableSorted (tableErase t k) := h.filter _

/-- In a sorted table, what is found under a key is listed under it. -/
theorem mem_of_tableFind {t : List (Nat × α)} {k : Nat} {v : α} (h : tableFind t k = some v) :
    (k, v) ∈ t := by
  induction t with
  | nil => simp at h
  | cons e t ih =>
    obtain ⟨j, w⟩ := e
    simp only [tableFind] at h
    split at h
    · rename_i hk
      subst hk
      simp_all
    · exact List.mem_cons_of_mem _ (ih h)

end Tables

/-! ### Memory -/

@[simp] theorem Memory.read_nil (a : Nat) : Memory.read [] a = 0 := rfl

/-- Read after write: the written cell reads as the value written, every other as before (20_memory.md R68). -/
@[simp] theorem Memory.read_write (m : Memory) (a v b : Nat) :
    (m.write a v).read b = if b = a then v else m.read b := by
  unfold Memory.read Memory.write
  by_cases hv : v = 0
  · simp only [hv, if_true, tableFind_erase, eq_comm (a := a)]
    split <;> simp
  · simp only [hv, if_false, tableFind_put, eq_comm (a := a)]
    split <;> simp

/-- Writing a cell of memory keeps the canonical form. -/
theorem Memory.wf_write {c : Config} {m : Memory} (h : m.wf c) {a v : Nat} (ha : a < c.memSize)
    (hv : v < 2 ^ c.cellw) : (m.write a v).wf c := by
  unfold Memory.write
  split
  · exact ⟨tableSorted_erase h.1 _, fun e he => h.2 e (mem_tableErase he)⟩
  · rename_i h0
    refine ⟨tableSorted_put h.1 _ _, fun e he => ?_⟩
    rcases mem_tablePut he with rfl | he
    · exact ⟨ha, hv, h0⟩
    · exact h.2 e he

/-! ### Extents -/

/-- `addExtent` is set union (20_memory.md R59). -/
@[simp] theorem covers_addExtent (l : List Extent) (start stop a : Nat) (h : start ≤ stop) :
    covers (addExtent l start stop) a = (covers l a || (decide (start ≤ a) && decide (a < stop))) := by
  induction l generalizing start stop with
  | nil => simp [addExtent, covers]
  | cons e l ih =>
    simp only [addExtent]
    split
    · simp only [covers, List.any_cons]
      rw [Bool.or_comm]
    · split
      · have := ih start stop h
        simp only [covers, List.any_cons] at this ⊢
        rw [this, Bool.or_assoc]
      · rw [ih _ _ (by omega)]
        simp only [covers, List.any_cons]
        rw [Bool.eq_iff_iff]
        simp only [Bool.or_eq_true, Bool.and_eq_true, decide_eq_true_eq]
        constructor
        · rintro (h | h)
          · exact .inl (.inr h)
          · by_cases h3 : e.start ≤ a ∧ a < e.stop
            · exact .inl (.inl h3)
            · exact .inr (by omega)
        · rintro ((h | h) | h)
          · exact .inr (by omega)
          · exact .inl h
          · exact .inr (by omega)

/-- Every extent after an addition starts no lower than some bound that held before and for the range. -/
theorem addExtent_start_ge {l : List Extent} {start stop b : Nat} (hs : b < start)
    (hl : ∀ e ∈ l, b < e.start) : ∀ e ∈ addExtent l start stop, b < e.start := by
  induction l generalizing start stop with
  | nil => simp [addExtent, hs]
  | cons e l ih =>
    have he := hl e List.mem_cons_self
    have hl' : ∀ e ∈ l, b < e.start := fun f hf => hl f (List.mem_cons_of_mem _ hf)
    simp only [addExtent]
    split
    · intro f hf
      rcases List.mem_cons.mp hf with rfl | hf
      · exact hs
      · exact hl f hf
    · split
      · intro f hf
        rcases List.mem_cons.mp hf with rfl | hf
        · exact he
        · exact ih hs hl' f hf
      · exact ih (by omega) hl'

/-- `addExtent` keeps the canonical form: extents that touch are one extent (R35, R58). -/
theorem extentsWf_addExtent {size : Nat} {l : List Extent} {start stop : Nat} (h : ExtentsWf size l)
    (h1 : start < stop) (h2 : stop ≤ size) : ExtentsWf size (addExtent l start stop) := by
  induction l generalizing start stop with
  | nil => exact ⟨by simpa [addExtent] using ⟨h1, h2⟩, by simp [addExtent]⟩
  | cons e l ih =>
    obtain ⟨hb, hp⟩ := h
    obtain ⟨hp1, hp2⟩ := List.pairwise_cons.mp hp
    have he := hb e List.mem_cons_self
    have hl : ExtentsWf size l := ⟨fun f hf => hb f (List.mem_cons_of_mem _ hf), hp2⟩
    simp only [addExtent]
    split
    · rename_i hlt
      refine ⟨?_, List.pairwise_cons.mpr ⟨?_, hp⟩⟩
      · intro f hf
        rcases List.mem_cons.mp hf with rfl | hf
        · exact ⟨h1, h2⟩
        · exact hb f hf
      · intro f hf
        rcases List.mem_cons.mp hf with rfl | hf
        · exact hlt
        · have := hp1 f hf
          show stop < f.start
          omega
    · split
      · rename_i hge hlt
        have := ih hl h1 h2
        refine ⟨?_, List.pairwise_cons.mpr ⟨?_, this.2⟩⟩
        · intro f hf
          rcases List.mem_cons.mp hf with rfl | hf
          · exact he
          · exact this.1 f hf
        · exact addExtent_start_ge hlt hp1
      · exact ih hl (by omega) (by omega)

theorem addExtent_ne_nil (l : List Extent) (start stop : Nat) : addExtent l start stop ≠ [] := by
  induction l generalizing start stop with
  | nil => simp [addExtent]
  | cons e l ih =>
    simp only [addExtent]
    split
    · simp
    · split
      · simp
      · exact ih _ _

end Sys2Proof.Machine
end

