-- ==== Sys2Proof/Laws/State.lean ====
section
/-!
SUPPORT. One lemma per field per update of the state, and the reading of a register file after each update,
so that no later proof unfolds a record update.
-/

namespace Sys2Proof.Machine

/-! ### Register files -/

@[simp] theorem RegFile.get_set (rf : RegFile) (r r' : Reg) (v : Nat) :
    (rf.set r v).get r' = if r' = r then v else rf.get r' := by
  cases r <;> cases r' <;> rfl

@[simp] theorem RegFile.set_pc (rf : RegFile) (r : Reg) (v : Nat) : (rf.set r v).pc = rf.pc := by
  cases r <;> rfl

@[simp] theorem RegFile.set_f (rf : RegFile) (r : Reg) (v : Nat) : (rf.set r v).f = rf.f := by
  cases r <;> rfl

@[simp] theorem RegFile.set_ds (rf : RegFile) (r : Reg) (v : Nat) : (rf.set r v).ds = rf.ds := by
  cases r <;> rfl

@[simp] theorem RegFile.get_withPc (rf : RegFile) (r : Reg) (v : Nat) :
    RegFile.get { rf with pc := v } r = rf.get r := by cases r <;> rfl

@[simp] theorem RegFile.get_withF (rf : RegFile) (r : Reg) (v : Byte) :
    RegFile.get { rf with f := v } r = rf.get r := by cases r <;> rfl

@[simp] theorem RegFile.get_withDs (rf : RegFile) (r : Reg) (v : Nat) :
    RegFile.get { rf with ds := v } r = rf.get r := by cases r <;> rfl

@[simp] theorem RegFile.get_zero (r : Reg) : RegFile.zero.get r = 0 := by cases r <;> rfl

/-! ### Fields after updates -/

@[simp] theorem State.setFile_cur (s : State) (p : Nat) (rf : RegFile) : (s.setFile p rf).cur = s.cur := rfl
@[simp] theorem State.setFile_priv (s : State) (p : Nat) (rf : RegFile) : (s.setFile p rf).priv = s.priv := rfl
@[simp] theorem State.setFile_mem (s : State) (p : Nat) (rf : RegFile) : (s.setFile p rf).mem = s.mem := rfl
@[simp] theorem State.setFile_owned (s : State) (p : Nat) (rf : RegFile) : (s.setFile p rf).owned = s.owned := rfl
@[simp] theorem State.setFile_run (s : State) (p : Nat) (rf : RegFile) : (s.setFile p rf).run = s.run := rfl
@[simp] theorem State.setFile_inq (s : State) (p : Nat) (rf : RegFile) : (s.setFile p rf).inq = s.inq := rfl
@[simp] theorem State.setFile_outq (s : State) (p : Nat) (rf : RegFile) : (s.setFile p rf).outq = s.outq := rfl
@[simp] theorem State.setFile_exits (s : State) (p : Nat) (rf : RegFile) : (s.setFile p rf).exits = s.exits := rfl
@[simp] theorem State.setFile_config (s : State) (p : Nat) (rf : RegFile) : (s.setFile p rf).config = s.config := rfl

@[simp] theorem State.setReg_cur (s : State) (r : Reg) (v : Int) : (s.setReg r v).cur = s.cur := rfl
@[simp] theorem State.setReg_priv (s : State) (r : Reg) (v : Int) : (s.setReg r v).priv = s.priv := rfl
@[simp] theorem State.setReg_mem (s : State) (r : Reg) (v : Int) : (s.setReg r v).mem = s.mem := rfl
@[simp] theorem State.setReg_owned (s : State) (r : Reg) (v : Int) : (s.setReg r v).owned = s.owned := rfl
@[simp] theorem State.setReg_run (s : State) (r : Reg) (v : Int) : (s.setReg r v).run = s.run := rfl
@[simp] theorem State.setReg_inq (s : State) (r : Reg) (v : Int) : (s.setReg r v).inq = s.inq := rfl
@[simp] theorem State.setReg_outq (s : State) (r : Reg) (v : Int) : (s.setReg r v).outq = s.outq := rfl
@[simp] theorem State.setReg_exits (s : State) (r : Reg) (v : Int) : (s.setReg r v).exits = s.exits := rfl
@[simp] theorem State.setReg_config (s : State) (r : Reg) (v : Int) : (s.setReg r v).config = s.config := rfl

@[simp] theorem State.setPc_cur (s : State) (v : Int) : (s.setPc v).cur = s.cur := rfl
@[simp] theorem State.setPc_priv (s : State) (v : Int) : (s.setPc v).priv = s.priv := rfl
@[simp] theorem State.setPc_mem (s : State) (v : Int) : (s.setPc v).mem = s.mem := rfl
@[simp] theorem State.setPc_owned (s : State) (v : Int) : (s.setPc v).owned = s.owned := rfl
@[simp] theorem State.setPc_run (s : State) (v : Int) : (s.setPc v).run = s.run := rfl
@[simp] theorem State.setPc_inq (s : State) (v : Int) : (s.setPc v).inq = s.inq := rfl
@[simp] theorem State.setPc_outq (s : State) (v : Int) : (s.setPc v).outq = s.outq := rfl
@[simp] theorem State.setPc_exits (s : State) (v : Int) : (s.setPc v).exits = s.exits := rfl
@[simp] theorem State.setPc_config (s : State) (v : Int) : (s.setPc v).config = s.config := rfl

@[simp] theorem State.setFlags_cur (s : State) (v : Byte) : (s.setFlags v).cur = s.cur := rfl
@[simp] theorem State.setFlags_priv (s : State) (v : Byte) : (s.setFlags v).priv = s.priv := rfl
@[simp] theorem State.setFlags_mem (s : State) (v : Byte) : (s.setFlags v).mem = s.mem := rfl
@[simp] theorem State.setFlags_owned (s : State) (v : Byte) : (s.setFlags v).owned = s.owned := rfl
@[simp] theorem State.setFlags_run (s : State) (v : Byte) : (s.setFlags v).run = s.run := rfl
@[simp] theorem State.setFlags_inq (s : State) (v : Byte) : (s.setFlags v).inq = s.inq := rfl
@[simp] theorem State.setFlags_outq (s : State) (v : Byte) : (s.setFlags v).outq = s.outq := rfl
@[simp] theorem State.setFlags_exits (s : State) (v : Byte) : (s.setFlags v).exits = s.exits := rfl
@[simp] theorem State.setFlags_config (s : State) (v : Byte) : (s.setFlags v).config = s.config := rfl

@[simp] theorem State.setDs_cur (s : State) (v : Int) : (s.setDs v).cur = s.cur := rfl
@[simp] theorem State.setDs_priv (s : State) (v : Int) : (s.setDs v).priv = s.priv := rfl
@[simp] theorem State.setDs_mem (s : State) (v : Int) : (s.setDs v).mem = s.mem := rfl
@[simp] theorem State.setDs_owned (s : State) (v : Int) : (s.setDs v).owned = s.owned := rfl
@[simp] theorem State.setDs_run (s : State) (v : Int) : (s.setDs v).run = s.run := rfl
@[simp] theorem State.setDs_inq (s : State) (v : Int) : (s.setDs v).inq = s.inq := rfl
@[simp] theorem State.setDs_outq (s : State) (v : Int) : (s.setDs v).outq = s.outq := rfl
@[simp] theorem State.setDs_exits (s : State) (v : Int) : (s.setDs v).exits = s.exits := rfl
@[simp] theorem State.setDs_config (s : State) (v : Int) : (s.setDs v).config = s.config := rfl

@[simp] theorem State.setCell_proc (s : State) (a : Nat) (v : Int) : (s.setCell a v).proc = s.proc := rfl
@[simp] theorem State.setCell_cur (s : State) (a : Nat) (v : Int) : (s.setCell a v).cur = s.cur := rfl
@[simp] theorem State.setCell_priv (s : State) (a : Nat) (v : Int) : (s.setCell a v).priv = s.priv := rfl
@[simp] theorem State.setCell_owned (s : State) (a : Nat) (v : Int) : (s.setCell a v).owned = s.owned := rfl
@[simp] theorem State.setCell_run (s : State) (a : Nat) (v : Int) : (s.setCell a v).run = s.run := rfl
@[simp] theorem State.setCell_inq (s : State) (a : Nat) (v : Int) : (s.setCell a v).inq = s.inq := rfl
@[simp] theorem State.setCell_outq (s : State) (a : Nat) (v : Int) : (s.setCell a v).outq = s.outq := rfl
@[simp] theorem State.setCell_exits (s : State) (a : Nat) (v : Int) : (s.setCell a v).exits = s.exits := rfl
@[simp] theorem State.setCell_config (s : State) (a : Nat) (v : Int) : (s.setCell a v).config = s.config := rfl
@[simp] theorem State.setCell_mem (s : State) (a : Nat) (v : Int) : (s.setCell a v).mem = s.mem.write a (trunc s.config.cellw v) := rfl

@[simp] theorem State.setPriv_proc (s : State) (b : Bool) : (s.setPriv b).proc = s.proc := rfl
@[simp] theorem State.setPriv_cur (s : State) (b : Bool) : (s.setPriv b).cur = s.cur := rfl
@[simp] theorem State.setPriv_priv (s : State) (b : Bool) : (s.setPriv b).priv = b := rfl
@[simp] theorem State.setPriv_mem (s : State) (b : Bool) : (s.setPriv b).mem = s.mem := rfl
@[simp] theorem State.setPriv_owned (s : State) (b : Bool) : (s.setPriv b).owned = s.owned := rfl
@[simp] theorem State.setPriv_run (s : State) (b : Bool) : (s.setPriv b).run = s.run := rfl
@[simp] theorem State.setPriv_inq (s : State) (b : Bool) : (s.setPriv b).inq = s.inq := rfl
@[simp] theorem State.setPriv_outq (s : State) (b : Bool) : (s.setPriv b).outq = s.outq := rfl
@[simp] theorem State.setPriv_exits (s : State) (b : Bool) : (s.setPriv b).exits = s.exits := rfl
@[simp] theorem State.setPriv_config (s : State) (b : Bool) : (s.setPriv b).config = s.config := rfl

@[simp] theorem State.setInput_proc (s : State) (l : List Byte) : (s.setInput l).proc = s.proc := rfl
@[simp] theorem State.setInput_cur (s : State) (l : List Byte) : (s.setInput l).cur = s.cur := rfl
@[simp] theorem State.setInput_priv (s : State) (l : List Byte) : (s.setInput l).priv = s.priv := rfl
@[simp] theorem State.setInput_mem (s : State) (l : List Byte) : (s.setInput l).mem = s.mem := rfl
@[simp] theorem State.setInput_owned (s : State) (l : List Byte) : (s.setInput l).owned = s.owned := rfl
@[simp] theorem State.setInput_run (s : State) (l : List Byte) : (s.setInput l).run = s.run := rfl
@[simp] theorem State.setInput_inq (s : State) (l : List Byte) : (s.setInput l).inq = l := rfl
@[simp] theorem State.setInput_outq (s : State) (l : List Byte) : (s.setInput l).outq = s.outq := rfl
@[simp] theorem State.setInput_exits (s : State) (l : List Byte) : (s.setInput l).exits = s.exits := rfl
@[simp] theorem State.setInput_config (s : State) (l : List Byte) : (s.setInput l).config = s.config := rfl

@[simp] theorem State.emit_proc (s : State) (u : Byte) : (s.emit u).proc = s.proc := rfl
@[simp] theorem State.emit_cur (s : State) (u : Byte) : (s.emit u).cur = s.cur := rfl
@[simp] theorem State.emit_priv (s : State) (u : Byte) : (s.emit u).priv = s.priv := rfl
@[simp] theorem State.emit_mem (s : State) (u : Byte) : (s.emit u).mem = s.mem := rfl
@[simp] theorem State.emit_owned (s : State) (u : Byte) : (s.emit u).owned = s.owned := rfl
@[simp] theorem State.emit_run (s : State) (u : Byte) : (s.emit u).run = s.run := rfl
@[simp] theorem State.emit_inq (s : State) (u : Byte) : (s.emit u).inq = s.inq := rfl
@[simp] theorem State.emit_outq (s : State) (u : Byte) : (s.emit u).outq = s.outq ++ [u] := rfl
@[simp] theorem State.emit_exits (s : State) (u : Byte) : (s.emit u).exits = s.exits := rfl
@[simp] theorem State.emit_config (s : State) (u : Byte) : (s.emit u).config = s.config := rfl

@[simp] theorem State.report_proc (s : State) (e : ExitEvent) : (s.report e).proc = s.proc := rfl
@[simp] theorem State.report_cur (s : State) (e : ExitEvent) : (s.report e).cur = s.cur := rfl
@[simp] theorem State.report_priv (s : State) (e : ExitEvent) : (s.report e).priv = s.priv := rfl
@[simp] theorem State.report_mem (s : State) (e : ExitEvent) : (s.report e).mem = s.mem := rfl
@[simp] theorem State.report_owned (s : State) (e : ExitEvent) : (s.report e).owned = s.owned := rfl
@[simp] theorem State.report_run (s : State) (e : ExitEvent) : (s.report e).run = s.run := rfl
@[simp] theorem State.report_inq (s : State) (e : ExitEvent) : (s.report e).inq = s.inq := rfl
@[simp] theorem State.report_outq (s : State) (e : ExitEvent) : (s.report e).outq = s.outq := rfl
@[simp] theorem State.report_exits (s : State) (e : ExitEvent) : (s.report e).exits = s.exits ++ [e] := rfl
@[simp] theorem State.report_config (s : State) (e : ExitEvent) : (s.report e).config = s.config := rfl

@[simp] theorem State.allocate_proc (s : State) (p a n : Nat) : (s.allocate p a n).proc = s.proc := rfl
@[simp] theorem State.allocate_cur (s : State) (p a n : Nat) : (s.allocate p a n).cur = s.cur := rfl
@[simp] theorem State.allocate_priv (s : State) (p a n : Nat) : (s.allocate p a n).priv = s.priv := rfl
@[simp] theorem State.allocate_mem (s : State) (p a n : Nat) : (s.allocate p a n).mem = s.mem := rfl
@[simp] theorem State.allocate_run (s : State) (p a n : Nat) : (s.allocate p a n).run = s.run := rfl
@[simp] theorem State.allocate_inq (s : State) (p a n : Nat) : (s.allocate p a n).inq = s.inq := rfl
@[simp] theorem State.allocate_outq (s : State) (p a n : Nat) : (s.allocate p a n).outq = s.outq := rfl
@[simp] theorem State.allocate_exits (s : State) (p a n : Nat) : (s.allocate p a n).exits = s.exits := rfl
@[simp] theorem State.allocate_config (s : State) (p a n : Nat) : (s.allocate p a n).config = s.config := rfl

@[simp] theorem State.release_proc (s : State) (p : Nat) : (s.release p).proc = s.proc := rfl
@[simp] theorem State.release_cur (s : State) (p : Nat) : (s.release p).cur = s.cur := rfl
@[simp] theorem State.release_priv (s : State) (p : Nat) : (s.release p).priv = s.priv := rfl
@[simp] theorem State.release_mem (s : State) (p : Nat) : (s.release p).mem = s.mem := rfl
@[simp] theorem State.release_run (s : State) (p : Nat) : (s.release p).run = s.run := rfl
@[simp] theorem State.release_inq (s : State) (p : Nat) : (s.release p).inq = s.inq := rfl
@[simp] theorem State.release_outq (s : State) (p : Nat) : (s.release p).outq = s.outq := rfl
@[simp] theorem State.release_exits (s : State) (p : Nat) : (s.release p).exits = s.exits := rfl
@[simp] theorem State.release_config (s : State) (p : Nat) : (s.release p).config = s.config := rfl

@[simp] theorem State.removeProc_cur (s : State) (p : Nat) : (s.removeProc p).cur = s.cur := rfl
@[simp] theorem State.removeProc_priv (s : State) (p : Nat) : (s.removeProc p).priv = s.priv := rfl
@[simp] theorem State.removeProc_mem (s : State) (p : Nat) : (s.removeProc p).mem = s.mem := rfl
@[simp] theorem State.removeProc_run (s : State) (p : Nat) : (s.removeProc p).run = s.run := rfl
@[simp] theorem State.removeProc_inq (s : State) (p : Nat) : (s.removeProc p).inq = s.inq := rfl
@[simp] theorem State.removeProc_outq (s : State) (p : Nat) : (s.removeProc p).outq = s.outq := rfl
@[simp] theorem State.removeProc_exits (s : State) (p : Nat) : (s.removeProc p).exits = s.exits := rfl
@[simp] theorem State.removeProc_config (s : State) (p : Nat) : (s.removeProc p).config = s.config := rfl

@[simp] theorem State.setFile_proc (s : State) (p : Nat) (rf : RegFile) :
    (s.setFile p rf).proc = tablePut s.proc p rf := rfl
@[simp] theorem State.removeProc_proc (s : State) (p : Nat) :
    (s.removeProc p).proc = tableErase s.proc p := rfl

@[simp] theorem trapEntry_mem (c : Cause) (s : State) : (trapEntry c s).mem = s.mem := rfl
@[simp] theorem trapEntry_owned (c : Cause) (s : State) : (trapEntry c s).owned = s.owned := rfl
@[simp] theorem trapEntry_inq (c : Cause) (s : State) : (trapEntry c s).inq = s.inq := rfl
@[simp] theorem trapEntry_outq (c : Cause) (s : State) : (trapEntry c s).outq = s.outq := rfl
@[simp] theorem trapEntry_exits (c : Cause) (s : State) : (trapEntry c s).exits = s.exits := rfl
@[simp] theorem trapEntry_config (c : Cause) (s : State) : (trapEntry c s).config = s.config := rfl
@[simp] theorem trapEntry_cur (c : Cause) (s : State) : (trapEntry c s).cur = 0 := rfl
@[simp] theorem trapEntry_priv (c : Cause) (s : State) : (trapEntry c s).priv = true := rfl
@[simp] theorem trapEntry_run (c : Cause) (s : State) : (trapEntry c s).run = .running := rfl
theorem trapEntry_proc (c : Cause) (s : State) :
    (trapEntry c s).proc = tablePut s.proc 0 ((s.file 0).set .a (trunc s.config.xlen (c.code s.config))) := rfl

@[simp] theorem raiseFatal_proc (r : FatalReason) (s : State) : (raiseFatal r s).proc = s.proc := rfl
@[simp] theorem raiseFatal_cur (r : FatalReason) (s : State) : (raiseFatal r s).cur = s.cur := rfl
@[simp] theorem raiseFatal_priv (r : FatalReason) (s : State) : (raiseFatal r s).priv = s.priv := rfl
@[simp] theorem raiseFatal_mem (r : FatalReason) (s : State) : (raiseFatal r s).mem = s.mem := rfl
@[simp] theorem raiseFatal_owned (r : FatalReason) (s : State) : (raiseFatal r s).owned = s.owned := rfl
@[simp] theorem raiseFatal_inq (r : FatalReason) (s : State) : (raiseFatal r s).inq = s.inq := rfl
@[simp] theorem raiseFatal_outq (r : FatalReason) (s : State) : (raiseFatal r s).outq = s.outq := rfl
@[simp] theorem raiseFatal_exits (r : FatalReason) (s : State) : (raiseFatal r s).exits = s.exits := rfl
@[simp] theorem raiseFatal_config (r : FatalReason) (s : State) : (raiseFatal r s).config = s.config := rfl
@[simp] theorem raiseFatal_run (r : FatalReason) (s : State) : (raiseFatal r s).run = .fatal r := rfl

@[simp] theorem advance_cur (n : Nat) (s : State) : (advance n s).cur = s.cur := by
  unfold advance; dsimp only; split <;> rfl
@[simp] theorem advance_priv (n : Nat) (s : State) : (advance n s).priv = s.priv := by
  unfold advance; dsimp only; split <;> rfl
@[simp] theorem advance_mem (n : Nat) (s : State) : (advance n s).mem = s.mem := by
  unfold advance; dsimp only; split <;> rfl
@[simp] theorem advance_owned (n : Nat) (s : State) : (advance n s).owned = s.owned := by
  unfold advance; dsimp only; split <;> rfl
@[simp] theorem advance_inq (n : Nat) (s : State) : (advance n s).inq = s.inq := by
  unfold advance; dsimp only; split <;> rfl
@[simp] theorem advance_outq (n : Nat) (s : State) : (advance n s).outq = s.outq := by
  unfold advance; dsimp only; split <;> rfl
@[simp] theorem advance_exits (n : Nat) (s : State) : (advance n s).exits = s.exits := by
  unfold advance; dsimp only; split <;> rfl
@[simp] theorem advance_config (n : Nat) (s : State) : (advance n s).config = s.config := by
  unfold advance; dsimp only; split <;> rfl
@[simp] theorem advance_run (n : Nat) (s : State) :
    (advance n s).run = if s.config.memSize ≤ s.nextPc n then .fatal .endOfMemory else s.run := by
  unfold advance; dsimp only; split <;> rfl
theorem advance_proc (n : Nat) (s : State) :
    (advance n s).proc = (s.setPc (s.nextPc n)).proc := by
  unfold advance; dsimp only; split <;> rfl

/-! ### Register files after updates -/

theorem State.file_eq (s : State) (q : Nat) : s.file q = (tableFind s.proc q).getD RegFile.zero := rfl

/-- States with the same process table have the same register files. -/
theorem State.file_congr {s t : State} (h : s.proc = t.proc) (q : Nat) : s.file q = t.file q := by
  simp [State.file, h]

@[simp] theorem State.file_setFile (s : State) (p q : Nat) (rf : RegFile) :
    (s.setFile p rf).file q = if p = q then rf else s.file q := by
  simp only [State.file, State.setFile_proc, tableFind_put]; split <;> rfl

@[simp] theorem State.file_setReg (s : State) (q : Nat) (r : Reg) (v : Int) :
    (s.setReg r v).file q =
      if s.cur = q then (s.file s.cur).set r (trunc s.config.xlen v) else s.file q :=
  s.file_setFile s.cur q _

@[simp] theorem State.file_setPc (s : State) (q : Nat) (v : Int) :
    (s.setPc v).file q =
      if s.cur = q then { s.file s.cur with pc := trunc s.config.xlen v } else s.file q :=
  s.file_setFile s.cur q _

@[simp] theorem State.file_setFlags (s : State) (q : Nat) (v : Byte) :
    (s.setFlags v).file q = if s.cur = q then { s.file s.cur with f := v } else s.file q :=
  s.file_setFile s.cur q _

@[simp] theorem State.file_setDs (s : State) (q : Nat) (v : Int) :
    (s.setDs v).file q =
      if s.cur = q then { s.file s.cur with ds := trunc s.config.xlen v } else s.file q :=
  s.file_setFile s.cur q _

@[simp] theorem State.file_allocate (s : State) (p a n q : Nat) : (s.allocate p a n).file q = s.file q := rfl

@[simp] theorem State.file_setCell (s : State) (a : Nat) (v : Int) (q : Nat) :
    (s.setCell a v).file q = s.file q := rfl

@[simp] theorem State.file_setPriv (s : State) (b : Bool) (q : Nat) : (s.setPriv b).file q = s.file q := rfl
@[simp] theorem State.file_setInput (s : State) (l : List Byte) (q : Nat) : (s.setInput l).file q = s.file q := rfl
@[simp] theorem State.file_emit (s : State) (u : Byte) (q : Nat) : (s.emit u).file q = s.file q := rfl
@[simp] theorem State.file_report (s : State) (e : ExitEvent) (q : Nat) : (s.report e).file q = s.file q := rfl

@[simp] theorem State.file_removeProc (s : State) (p q : Nat) :
    (s.removeProc p).file q = if p = q then RegFile.zero else s.file q := by
  simp only [State.file, State.removeProc_proc, tableFind_erase]; split <;> rfl

@[simp] theorem State.file_raiseFatal (r : FatalReason) (s : State) (q : Nat) :
    (raiseFatal r s).file q = s.file q := rfl

@[simp] theorem State.file_advance (n : Nat) (s : State) (q : Nat) :
    (advance n s).file q =
      if s.cur = q then { s.file s.cur with pc := trunc s.config.xlen (s.nextPc n) } else s.file q := by
  rw [State.file_congr (advance_proc n s)]; exact s.file_setPc q _

@[simp] theorem State.file_trapEntry (c : Cause) (s : State) (q : Nat) :
    (trapEntry c s).file q =
      if 0 = q then (s.file 0).set .a (trunc s.config.xlen (c.code s.config)) else s.file q :=
  s.file_setFile 0 q _

/-! ### The current process after updates -/

@[simp] theorem State.reg_setReg (s : State) (r r' : Reg) (v : Int) :
    (s.setReg r v).reg r' = if r' = r then trunc s.config.xlen v else s.reg r' := by simp [State.reg]

@[simp] theorem State.reg_setPc (s : State) (r : Reg) (v : Int) : (s.setPc v).reg r = s.reg r := by
  simp [State.reg]

@[simp] theorem State.reg_setFlags (s : State) (r : Reg) (v : Byte) :
    (s.setFlags v).reg r = s.reg r := by simp [State.reg]

@[simp] theorem State.reg_advance (n : Nat) (s : State) (r : Reg) : (advance n s).reg r = s.reg r := by
  simp [State.reg]

@[simp] theorem State.reg_allocate (s : State) (p a n : Nat) (r : Reg) :
    (s.allocate p a n).reg r = s.reg r := rfl

@[simp] theorem State.reg_setCell (s : State) (a : Nat) (v : Int) (r : Reg) :
    (s.setCell a v).reg r = s.reg r := rfl

@[simp] theorem State.reg_raiseFatal (e : FatalReason) (s : State) (r : Reg) :
    (raiseFatal e s).reg r = s.reg r := rfl

@[simp] theorem State.reg_setPriv (s : State) (b : Bool) (r : Reg) : (s.setPriv b).reg r = s.reg r := rfl
@[simp] theorem State.reg_setInput (s : State) (l : List Byte) (r : Reg) : (s.setInput l).reg r = s.reg r := rfl
@[simp] theorem State.reg_emit (s : State) (u : Byte) (r : Reg) : (s.emit u).reg r = s.reg r := rfl
@[simp] theorem State.reg_report (s : State) (e : ExitEvent) (r : Reg) : (s.report e).reg r = s.reg r := rfl

@[simp] theorem State.pc_setReg (s : State) (r : Reg) (v : Int) : (s.setReg r v).pc = s.pc := by
  simp [State.pc]

@[simp] theorem State.pc_setPc (s : State) (v : Int) : (s.setPc v).pc = trunc s.config.xlen v := by simp [State.pc]

@[simp] theorem State.pc_setFlags (s : State) (v : Byte) : (s.setFlags v).pc = s.pc := by
  simp [State.pc]

@[simp] theorem State.pc_advance (n : Nat) (s : State) : (advance n s).pc = trunc s.config.xlen (s.nextPc n) := by
  simp [State.pc]

@[simp] theorem State.pc_allocate (s : State) (p a n : Nat) : (s.allocate p a n).pc = s.pc := rfl

@[simp] theorem State.pc_setCell (s : State) (a : Nat) (v : Int) : (s.setCell a v).pc = s.pc := rfl

@[simp] theorem State.pc_raiseFatal (e : FatalReason) (s : State) : (raiseFatal e s).pc = s.pc := rfl

@[simp] theorem State.pc_setPriv (s : State) (b : Bool) : (s.setPriv b).pc = s.pc := rfl
@[simp] theorem State.pc_setInput (s : State) (l : List Byte) : (s.setInput l).pc = s.pc := rfl
@[simp] theorem State.pc_emit (s : State) (u : Byte) : (s.emit u).pc = s.pc := rfl
@[simp] theorem State.pc_report (s : State) (e : ExitEvent) : (s.report e).pc = s.pc := rfl

@[simp] theorem State.flags_setReg (s : State) (r : Reg) (v : Int) :
    (s.setReg r v).flags = s.flags := by simp [State.flags]

@[simp] theorem State.flags_setPc (s : State) (v : Int) : (s.setPc v).flags = s.flags := by
  simp [State.flags]

@[simp] theorem State.flags_setFlags (s : State) (v : Byte) : (s.setFlags v).flags = v := by
  simp [State.flags]

@[simp] theorem State.flags_advance (n : Nat) (s : State) : (advance n s).flags = s.flags := by
  simp [State.flags]

@[simp] theorem State.flags_allocate (s : State) (p a n : Nat) : (s.allocate p a n).flags = s.flags := rfl

@[simp] theorem State.flags_setCell (s : State) (a : Nat) (v : Int) : (s.setCell a v).flags = s.flags := rfl

@[simp] theorem State.flags_raiseFatal (e : FatalReason) (s : State) :
    (raiseFatal e s).flags = s.flags := rfl

@[simp] theorem State.flags_setPriv (s : State) (b : Bool) : (s.setPriv b).flags = s.flags := rfl
@[simp] theorem State.flags_setInput (s : State) (l : List Byte) : (s.setInput l).flags = s.flags := rfl
@[simp] theorem State.flags_emit (s : State) (u : Byte) : (s.emit u).flags = s.flags := rfl
@[simp] theorem State.flags_report (s : State) (e : ExitEvent) : (s.report e).flags = s.flags := rfl

/-! ### The process table after updates -/

@[simp] theorem State.find_setReg (s : State) (q : Nat) (r : Reg) (v : Int) (h : q ≠ s.cur) :
    tableFind (s.setReg r v).proc q = tableFind s.proc q := by
  simp [State.setReg, Ne.symm h]

@[simp] theorem State.find_setPc (s : State) (q : Nat) (v : Int) (h : q ≠ s.cur) :
    tableFind (s.setPc v).proc q = tableFind s.proc q := by
  simp [State.setPc, Ne.symm h]

@[simp] theorem State.find_setFlags (s : State) (q : Nat) (v : Byte) (h : q ≠ s.cur) :
    tableFind (s.setFlags v).proc q = tableFind s.proc q := by
  simp [State.setFlags, Ne.symm h]

@[simp] theorem State.find_advance (n : Nat) (s : State) (q : Nat) (h : q ≠ s.cur) :
    tableFind (advance n s).proc q = tableFind s.proc q := by
  rw [advance_proc]; exact s.find_setPc q _ h

@[simp] theorem State.find_trapEntry (c : Cause) (s : State) (q : Nat) (h : q ≠ 0) :
    tableFind (trapEntry c s).proc q = tableFind s.proc q := by
  simp [trapEntry_proc, Ne.symm h]

/-! ### Ownership and cells after updates -/

@[simp] theorem State.owns_setReg (s : State) (r : Reg) (v : Int) (q a : Nat) :
    (s.setReg r v).owns q a = s.owns q a := rfl
@[simp] theorem State.owns_setPc (s : State) (v : Int) (q a : Nat) :
    (s.setPc v).owns q a = s.owns q a := rfl
@[simp] theorem State.owns_setFlags (s : State) (v : Byte) (q a : Nat) :
    (s.setFlags v).owns q a = s.owns q a := rfl
@[simp] theorem State.owns_setCell (s : State) (b : Nat) (v : Int) (q a : Nat) :
    (s.setCell b v).owns q a = s.owns q a := rfl
@[simp] theorem State.owns_raiseFatal (e : FatalReason) (s : State) (q a : Nat) :
    (raiseFatal e s).owns q a = s.owns q a := rfl
@[simp] theorem State.owns_setPriv (s : State) (b : Bool) (q c : Nat) : (s.setPriv b).owns q c = s.owns q c := rfl
@[simp] theorem State.owns_setInput (s : State) (l : List Byte) (q b : Nat) : (s.setInput l).owns q b = s.owns q b := rfl
@[simp] theorem State.owns_emit (s : State) (u : Byte) (q b : Nat) : (s.emit u).owns q b = s.owns q b := rfl
@[simp] theorem State.owns_report (s : State) (e : ExitEvent) (q b : Nat) : (s.report e).owns q b = s.owns q b := rfl
@[simp] theorem State.owns_advance (n : Nat) (s : State) (q a : Nat) :
    (advance n s).owns q a = s.owns q a := by simp [State.owns, State.extents]
@[simp] theorem State.owns_trapEntry (c : Cause) (s : State) (q a : Nat) :
    (trapEntry c s).owns q a = s.owns q a := rfl

/-- `allocate` adds the range to the one process (20_memory.md R59). -/
@[simp] theorem State.owns_allocate (s : State) (p start n q a : Nat) :
    (s.allocate p start n).owns q a =
      (s.owns q a || (decide (p = q) && (decide (start ≤ a) && decide (a < start + n)))) := by
  simp only [State.owns, State.extents, State.allocate, tableFind_put]
  split
  · rename_i h
    subst h
    simp [covers_addExtent _ _ _ _ (Nat.le_add_right start n)]
  · rename_i h
    simp [h]

/-- `release` empties the set of the one process (R60). -/
@[simp] theorem State.owns_release (s : State) (p q a : Nat) :
    (s.release p).owns q a = (decide (p ≠ q) && s.owns q a) := by
  simp only [State.owns, State.extents, State.release, tableFind_erase]
  split <;> simp_all [covers]

@[simp] theorem State.cell_setReg (s : State) (r : Reg) (v : Int) (a : Nat) :
    (s.setReg r v).cell a = s.cell a := rfl
@[simp] theorem State.cell_setPc (s : State) (v : Int) (a : Nat) : (s.setPc v).cell a = s.cell a := rfl
@[simp] theorem State.cell_setFlags (s : State) (v : Byte) (a : Nat) :
    (s.setFlags v).cell a = s.cell a := rfl
@[simp] theorem State.cell_allocate (s : State) (p x n : Nat) (a : Nat) :
    (s.allocate p x n).cell a = s.cell a := rfl
@[simp] theorem State.cell_raiseFatal (e : FatalReason) (s : State) (a : Nat) :
    (raiseFatal e s).cell a = s.cell a := rfl
/-- Read after write: the written cell holds the value written, every other what it held (20_memory.md R68). -/
@[simp] theorem State.cell_setCell (s : State) (a : Nat) (v : Int) (b : Nat) :
    (s.setCell a v).cell b = if b = a then trunc s.config.cellw v else s.cell b := s.mem.read_write a _ b
@[simp] theorem State.cell_setPriv (s : State) (b : Bool) (c : Nat) : (s.setPriv b).cell c = s.cell c := rfl
@[simp] theorem State.cell_setInput (s : State) (l : List Byte) (c : Nat) : (s.setInput l).cell c = s.cell c := rfl
@[simp] theorem State.cell_emit (s : State) (u : Byte) (c : Nat) : (s.emit u).cell c = s.cell c := rfl
@[simp] theorem State.cell_report (s : State) (e : ExitEvent) (c : Nat) : (s.report e).cell c = s.cell c := rfl
@[simp] theorem State.cell_advance (n : Nat) (s : State) (a : Nat) :
    (advance n s).cell a = s.cell a := by simp [State.cell]
@[simp] theorem State.cell_trapEntry (c : Cause) (s : State) (a : Nat) :
    (trapEntry c s).cell a = s.cell a := rfl

end Sys2Proof.Machine
end

