-- ==== Sys2Proof/Laws/Ops.lean ====
section
/-!
SUPPORT. One lemma per shared operation that says everything it can do: the access check, the memory
primitives, the stack, the operand forms.
-/

namespace Sys2Proof.Machine

/-! ### The access check -/

/-- The check permits exactly where `permits` says, and then the state is the touched one. -/
theorem check_eq (s : State) (a : Nat) :
    s.check a = if s.permits a then some (s.touch a) else none := by
  unfold State.permits State.touch State.check
  by_cases hp : s.priv
  · simp [hp]
  · cases hpol : s.config.policy with
    | lazyGrow => by_cases ho : s.owns s.cur a <;> simp [hp, ho]
    | threshold t => by_cases ht : a < t <;> simp [hp, ht]

/-- A touch does nothing, or adds the one address to what the current process owns. -/
theorem touch_cases (s : State) (a : Nat) :
    s.touch a = s ∨ (s.records = true ∧ s.touch a = s.allocate s.cur a 1) := by
  unfold State.touch State.check State.records
  by_cases hp : s.priv
  · simp [hp]
  · cases hpol : s.config.policy with
    | lazyGrow => by_cases ho : s.owns s.cur a <;> simp [hp, ho]
    | threshold t => by_cases ht : a < t <;> simp [hp, ht]

@[simp] theorem State.touch_proc (s : State) (a : Nat) : (s.touch a).proc = s.proc := by
  rcases touch_cases s a with h | ⟨_, h⟩ <;> simp [h]
@[simp] theorem State.touch_cur (s : State) (a : Nat) : (s.touch a).cur = s.cur := by
  rcases touch_cases s a with h | ⟨_, h⟩ <;> simp [h]
@[simp] theorem State.touch_priv (s : State) (a : Nat) : (s.touch a).priv = s.priv := by
  rcases touch_cases s a with h | ⟨_, h⟩ <;> simp [h]
@[simp] theorem State.touch_mem (s : State) (a : Nat) : (s.touch a).mem = s.mem := by
  rcases touch_cases s a with h | ⟨_, h⟩ <;> simp [h]
@[simp] theorem State.touch_run (s : State) (a : Nat) : (s.touch a).run = s.run := by
  rcases touch_cases s a with h | ⟨_, h⟩ <;> simp [h]
@[simp] theorem State.touch_inq (s : State) (a : Nat) : (s.touch a).inq = s.inq := by
  rcases touch_cases s a with h | ⟨_, h⟩ <;> simp [h]
@[simp] theorem State.touch_outq (s : State) (a : Nat) : (s.touch a).outq = s.outq := by
  rcases touch_cases s a with h | ⟨_, h⟩ <;> simp [h]
@[simp] theorem State.touch_exits (s : State) (a : Nat) : (s.touch a).exits = s.exits := by
  rcases touch_cases s a with h | ⟨_, h⟩ <;> simp [h]
@[simp] theorem State.touch_config (s : State) (a : Nat) : (s.touch a).config = s.config := by
  rcases touch_cases s a with h | ⟨_, h⟩ <;> simp [h]

@[simp] theorem State.touch_file (s : State) (a : Nat) (q : Nat) : (s.touch a).file q = s.file q :=
  State.file_congr (s.touch_proc a) q
@[simp] theorem State.touch_reg (s : State) (a : Nat) (r : Reg) : (s.touch a).reg r = s.reg r := by
  simp [State.reg]
@[simp] theorem State.touch_pc (s : State) (a : Nat) : (s.touch a).pc = s.pc := by simp [State.pc]
@[simp] theorem State.touch_flags (s : State) (a : Nat) : (s.touch a).flags = s.flags := by
  simp [State.flags]
@[simp] theorem State.touch_cell (s : State) (a b : Nat) : (s.touch a).cell b = s.cell b := by
  simp [State.cell]
@[simp] theorem State.touch_permits (s : State) (a b : Nat) : (s.touch a).permits b = s.permits b := by
  simp [State.permits]
@[simp] theorem State.touch_records (s : State) (a : Nat) : (s.touch a).records = s.records := by
  simp [State.records]
@[simp] theorem State.touch_hasProc (s : State) (a : Nat) (q : Nat) :
    (s.touch a).hasProc q = s.hasProc q := by simp [State.hasProc]

/-- What is owned after a touch: the address is owned by the current process where the access records. -/
theorem State.owns_touch (s : State) (a : Nat) (q b : Nat) :
    (s.touch a).owns q b = (s.owns q b || (decide (q = s.cur) && s.records && decide (a = b))) := by
  by_cases hr : s.records = true
  · obtain ⟨hp, hl⟩ : s.priv = false ∧ s.config.policy = .lazyGrow := by
      simpa [State.records] using hr
    have ht : s.touch a = if s.owns s.cur a then s else s.allocate s.cur a 1 := by
      unfold State.touch State.check
      simp only [hp, hl, Bool.false_eq_true, if_false]
      split <;> rfl
    rw [ht, hr]
    split
    · rename_i ho
      by_cases hq : q = s.cur
      · by_cases hb : a = b
        · subst hq hb; simp [ho]
        · simp [hb]
      · simp [hq]
    · have hb : (decide (a ≤ b) && decide (b < a + 1)) = decide (a = b) := by
        rw [Bool.eq_iff_iff]
        simp only [Bool.and_eq_true, decide_eq_true_eq]
        omega
      rw [State.owns_allocate, hb, Bool.and_true, decide_eq_decide.mpr (eq_comm (a := s.cur))]
  · have : s.touch a = s := by
      rcases touch_cases s a with h | ⟨h, _⟩
      · exact h
      · exact absurd h hr
    simp [this, hr]

/-! ### Several accesses -/

@[simp] theorem State.touchAll_nil (s : State) : s.touchAll [] = s := rfl
@[simp] theorem State.touchAll_cons (s : State) (a : Nat) (l : List Nat) :
    s.touchAll (a :: l) = (s.touch a).touchAll l := rfl
theorem State.touchAll_append (s : State) (l l' : List Nat) :
    s.touchAll (l ++ l') = (s.touchAll l).touchAll l' := by simp [State.touchAll]

@[simp] theorem State.touchAll_proc (s : State) (l : List Nat) : (s.touchAll l).proc = s.proc := by
  induction l generalizing s with
  | nil => rfl
  | cons a l ih => simp [ih]
@[simp] theorem State.touchAll_cur (s : State) (l : List Nat) : (s.touchAll l).cur = s.cur := by
  induction l generalizing s with
  | nil => rfl
  | cons a l ih => simp [ih]
@[simp] theorem State.touchAll_priv (s : State) (l : List Nat) : (s.touchAll l).priv = s.priv := by
  induction l generalizing s with
  | nil => rfl
  | cons a l ih => simp [ih]
@[simp] theorem State.touchAll_mem (s : State) (l : List Nat) : (s.touchAll l).mem = s.mem := by
  induction l generalizing s with
  | nil => rfl
  | cons a l ih => simp [ih]
@[simp] theorem State.touchAll_run (s : State) (l : List Nat) : (s.touchAll l).run = s.run := by
  induction l generalizing s with
  | nil => rfl
  | cons a l ih => simp [ih]
@[simp] theorem State.touchAll_inq (s : State) (l : List Nat) : (s.touchAll l).inq = s.inq := by
  induction l generalizing s with
  | nil => rfl
  | cons a l ih => simp [ih]
@[simp] theorem State.touchAll_outq (s : State) (l : List Nat) : (s.touchAll l).outq = s.outq := by
  induction l generalizing s with
  | nil => rfl
  | cons a l ih => simp [ih]
@[simp] theorem State.touchAll_exits (s : State) (l : List Nat) : (s.touchAll l).exits = s.exits := by
  induction l generalizing s with
  | nil => rfl
  | cons a l ih => simp [ih]
@[simp] theorem State.touchAll_config (s : State) (l : List Nat) : (s.touchAll l).config = s.config := by
  induction l generalizing s with
  | nil => rfl
  | cons a l ih => simp [ih]

@[simp] theorem State.touchAll_file (s : State) (l : List Nat) (q : Nat) :
    (s.touchAll l).file q = s.file q := State.file_congr (s.touchAll_proc l) q
@[simp] theorem State.touchAll_reg (s : State) (l : List Nat) (r : Reg) :
    (s.touchAll l).reg r = s.reg r := by simp [State.reg]
@[simp] theorem State.touchAll_pc (s : State) (l : List Nat) : (s.touchAll l).pc = s.pc := by
  simp [State.pc]
@[simp] theorem State.touchAll_flags (s : State) (l : List Nat) : (s.touchAll l).flags = s.flags := by
  simp [State.flags]
@[simp] theorem State.touchAll_cell (s : State) (l : List Nat) (b : Nat) :
    (s.touchAll l).cell b = s.cell b := by simp [State.cell]
@[simp] theorem State.touchAll_permits (s : State) (l : List Nat) (b : Nat) :
    (s.touchAll l).permits b = s.permits b := by simp [State.permits]
@[simp] theorem State.touchAll_records (s : State) (l : List Nat) :
    (s.touchAll l).records = s.records := by simp [State.records]

/-- What is owned after several accesses. -/
theorem State.owns_touchAll (s : State) (l : List Nat) (q b : Nat) :
    (s.touchAll l).owns q b = s.ownsAfter l q b := by
  induction l generalizing s with
  | nil => simp [State.ownsAfter]
  | cons a l ih =>
    rw [State.touchAll_cons, ih, State.ownsAfter, State.ownsAfter, State.owns_touch]
    simp only [State.touch_cur, State.touch_records, List.any_cons]
    cases s.owns q b <;> cases decide (q = s.cur) <;> cases s.records <;> simp

/-! ### Memory primitives and the stack -/

/-- `MemRead`: denied, or the cell's content and the growth (20_memory.md R55). -/
theorem memRead_eq (a : Nat) (s : State) :
    memRead a s = if s.permits a then some (s.cell a, s.touch a) else none := by
  unfold memRead
  rw [check_eq]
  by_cases h : s.permits a <;> simp [h]

/-- `MemWrite`: denied, or the growth and the one cell written (R55). -/
theorem memWrite_eq (a : Nat) (v : Int) (s : State) :
    memWrite a v s =
      if s.permits a then some ((s.touch a).setCell a v) else none := by
  unfold memWrite
  rw [check_eq]
  by_cases h : s.permits a <;> simp [h]

/-- `Push(v)` (44_flags_stack_compare.md R186). -/
theorem push_eq (v : Nat) (s : State) :
    push v s = if s.permits (s.reg .sp) then
      some (((s.touch (s.reg .sp)).setCell (s.reg .sp) v).setReg .sp (s.reg .sp - 1))
      else none := by
  unfold push
  rw [memWrite_eq]
  by_cases h : s.permits (s.reg .sp) <;> simp [h]

/-- `Pop()` (R186). -/
theorem pop_eq (s : State) :
    pop s = if s.permits s.stackTop then
      some (s.cell s.stackTop, (s.touch s.stackTop).setReg .sp s.stackTop)
      else none := by
  unfold pop
  rw [memRead_eq]
  by_cases h : s.permits s.stackTop <;> simp [h]

/-! ### Operand forms -/

theorem Reg.mem_all (r : Reg) : r ∈ Reg.all := by cases r <;> decide

/-- The register table of 10_state.md R22, read from both sides. -/
theorem Reg.all_getElem? {k : Nat} {r : Reg} : Reg.all[k]? = some r ↔ k = r.index := by
  constructor
  · intro h
    have hlt : k < 10 := (List.getElem?_eq_some_iff.mp h).1
    interval_cases k <;> cases h <;> rfl
  · rintro rfl
    cases r <;> rfl

/-- The registers a Register-mode value can name. -/
theorem regOfValue_eq_some {c : Config} {v : BitVec 14} {r : Reg} :
    regOfValue c v = some r ↔ v.toNat = r.index ∧ v.toNat < c.nreg := by
  unfold regOfValue
  split
  · simp_all [Reg.all_getElem?]
  · simp only [reduceCtorEq, false_iff]
    omega

/-- Where the register count is the ten of the spec, a value above 9 names none (R24). -/
theorem regOfValue_eq_none {c : Config} (hc : c.nreg = 10) {v : BitVec 14} :
    regOfValue c v = none ↔ 9 < v.toNat := by
  simp only [regOfValue, hc, List.getElem?_eq_none_iff, ite_eq_right_iff]
  simp only [List.length_cons, List.length_nil]
  omega

/-- A Register-mode value reads the register with that index, 0 where it names none (R24, R88). -/
theorem regAt_eq (s : State) (v : BitVec 14) :
    s.regAt v.toNat = match regOfValue s.config v with
      | some r => s.reg r
      | none => 0 := by
  have key : (Reg.all.find? fun r => r.index = v.toNat && v.toNat < s.config.nreg) =
      regOfValue s.config v := by
    cases h : regOfValue s.config v with
    | some r =>
      obtain ⟨h1, h2⟩ := regOfValue_eq_some.mp h
      have h2' : r.index < s.config.nreg := h1 ▸ h2
      simp only [h1, h2']
      cases r <;> rfl
    | none =>
      rw [List.find?_eq_none]
      intro r _ hr
      have : regOfValue s.config v = some r := regOfValue_eq_some.mpr (by
        simp only [Bool.and_eq_true, decide_eq_true_eq] at hr
        exact ⟨hr.1.symm, hr.2⟩)
      simp [h] at this
  cases h : regOfValue s.config v <;> simp only [State.regAt, key, h]

/-- The address of Relative mode, as a sum of integers (R91, 20_memory.md R52). -/
theorem State.relative_eq (s : State) (v : BitVec 14) :
    s.relative v = trunc s.config.xlen ((s.pc : Int) + v.toNat) := rfl

/-- A source operand resolves to its value, the cells it reads touched; none where its one read is denied
(30_encoding.md R88). -/
theorem resolve_source (op : Operand) (s : State) :
    resolve op false s = if s.permitsAll (sourceCells op) then
      some (sourceValue op s, s.touchAll (sourceCells op)) else none := by
  obtain ⟨m, v⟩ := op
  cases m
  · simp only [resolve, sourceCells, sourceValue, regAt_eq]
    cases regOfValue s.config v <;> rfl
  · simp [resolve, sourceCells, sourceValue, State.permitsAll]
  · simp [resolve, sourceCells, sourceValue, State.permitsAll, memRead_eq]
  · simp only [resolve, sourceCells, sourceValue, State.relative_eq]
    rfl

/-- A control-transfer operand always resolves, to its target, with no access (R88, R160). -/
theorem resolve_control (op : Operand) (s : State) :
    resolve op true s = some (controlTarget op s, s) := by
  obtain ⟨m, v⟩ := op
  cases m
  · simp only [resolve, controlTarget, regAt_eq]
    cases regOfValue s.config v <;> rfl
  · simp [resolve, controlTarget]
  · simp [resolve, controlTarget]
  · simp only [resolve, controlTarget, State.relative_eq]

/-- The shape of a source-operand instruction, resolved (R88, R98). -/
theorem withOperand_source (op : Operand) (rest : List Operand) (s : State)
    (k : Nat → State → Result) :
    withOperand false (op :: rest) s k = if s.permitsAll (sourceCells op) then
      k (sourceValue op s) (s.touchAll (sourceCells op)) else raiseTrap .memoryViolation s := by
  simp only [withOperand, resolve_source]
  split <;> simp_all

/-- The shape of a control transfer, resolved. -/
theorem withOperand_control (op : Operand) (rest : List Operand) (s : State)
    (k : Nat → State → Result) :
    withOperand true (op :: rest) s k = k (controlTarget op s) s := by
  simp only [withOperand, resolve_control]

/-- An operand is no destination exactly where `invalidDestination` says (R89), on a machine of ten
registers. -/
theorem resolveTarget_eq_none (op : Operand) (s : State) (hc : s.config.nreg = 10) :
    resolveTarget op s = none ↔ invalidDestination s.config op = true := by
  obtain ⟨m, v⟩ := op
  cases m <;> simp [resolveTarget, invalidDestination, regOfValue_eq_none hc, hc]
  omega

end Sys2Proof.Machine
end

