-- ==== Sys2Proof/Laws/PerInstr.lean ====
section
/-!
SUPPORT. The per-instruction family `OpcodeRow`: under every well-formed configuration the opcode map and the
opcode number of the encoder agree on the instruction (30_encoding.md R96), and no instruction uses more than one
operand (R97).
-/

namespace Sys2Proof.Laws.OpcodeRow

/-- The row the instruction's number selects in the opcode map makes the instruction again. -/
def Statement (i : Instr) : Prop :=
  (∀ c : Config, c.wellFormed = true →
    (c.opcodeMap[c.opcodeOf i]?).map (fun m => m.make i.operands) = some i ∧ c.opcodeOf i < 64) ∧
  i.arity ≤ 1

theorem of_arity {i : Instr} (ha : i.arity ≤ 1) : Statement i :=
  ⟨fun _ h => ⟨by rw [Config.opcodeMap_opcodeOf h, Option.map_some, Instr.make_mnemonic],
    Config.opcodeOf_lt h i⟩, ha⟩

theorem nop (ops : List Operand) : Statement (.nop ops) := of_arity (Nat.zero_le 1)
theorem syscall (ops : List Operand) : Statement (.syscall ops) := of_arity (Nat.zero_le 1)
theorem lda (ops : List Operand) : Statement (.lda ops) := of_arity (Nat.le_refl 1)
theorem ldx (ops : List Operand) : Statement (.ldx ops) := of_arity (Nat.le_refl 1)
theorem ldy (ops : List Operand) : Statement (.ldy ops) := of_arity (Nat.le_refl 1)
theorem sta (ops : List Operand) : Statement (.sta ops) := of_arity (Nat.le_refl 1)
theorem stx (ops : List Operand) : Statement (.stx ops) := of_arity (Nat.le_refl 1)
theorem sty (ops : List Operand) : Statement (.sty ops) := of_arity (Nat.le_refl 1)
theorem tax (ops : List Operand) : Statement (.tax ops) := of_arity (Nat.zero_le 1)
theorem tay (ops : List Operand) : Statement (.tay ops) := of_arity (Nat.zero_le 1)
theorem tsx (ops : List Operand) : Statement (.tsx ops) := of_arity (Nat.zero_le 1)
theorem txa (ops : List Operand) : Statement (.txa ops) := of_arity (Nat.zero_le 1)
theorem txs (ops : List Operand) : Statement (.txs ops) := of_arity (Nat.zero_le 1)
theorem tya (ops : List Operand) : Statement (.tya ops) := of_arity (Nat.zero_le 1)
theorem inc (ops : List Operand) : Statement (.inc ops) := of_arity (Nat.le_refl 1)
theorem dec (ops : List Operand) : Statement (.dec ops) := of_arity (Nat.le_refl 1)
theorem ina (ops : List Operand) : Statement (.ina ops) := of_arity (Nat.zero_le 1)
theorem inx (ops : List Operand) : Statement (.inx ops) := of_arity (Nat.zero_le 1)
theorem iny (ops : List Operand) : Statement (.iny ops) := of_arity (Nat.zero_le 1)
theorem dex (ops : List Operand) : Statement (.dex ops) := of_arity (Nat.zero_le 1)
theorem dey (ops : List Operand) : Statement (.dey ops) := of_arity (Nat.zero_le 1)
theorem add (ops : List Operand) : Statement (.add ops) := of_arity (Nat.le_refl 1)
theorem sub (ops : List Operand) : Statement (.sub ops) := of_arity (Nat.le_refl 1)
theorem mul (ops : List Operand) : Statement (.mul ops) := of_arity (Nat.le_refl 1)
theorem div (ops : List Operand) : Statement (.div ops) := of_arity (Nat.le_refl 1)
theorem mod (ops : List Operand) : Statement (.mod ops) := of_arity (Nat.le_refl 1)
theorem and (ops : List Operand) : Statement (.and ops) := of_arity (Nat.le_refl 1)
theorem ora (ops : List Operand) : Statement (.ora ops) := of_arity (Nat.le_refl 1)
theorem xor (ops : List Operand) : Statement (.xor ops) := of_arity (Nat.le_refl 1)
theorem shl (ops : List Operand) : Statement (.shl ops) := of_arity (Nat.zero_le 1)
theorem lsr (ops : List Operand) : Statement (.lsr ops) := of_arity (Nat.zero_le 1)
theorem rol (ops : List Operand) : Statement (.rol ops) := of_arity (Nat.zero_le 1)
theorem ror (ops : List Operand) : Statement (.ror ops) := of_arity (Nat.zero_le 1)
theorem bit (ops : List Operand) : Statement (.bit ops) := of_arity (Nat.le_refl 1)
theorem jmp (ops : List Operand) : Statement (.jmp ops) := of_arity (Nat.le_refl 1)
theorem jsr (ops : List Operand) : Statement (.jsr ops) := of_arity (Nat.le_refl 1)
theorem rts (ops : List Operand) : Statement (.rts ops) := of_arity (Nat.zero_le 1)
theorem bcc (ops : List Operand) : Statement (.bcc ops) := of_arity (Nat.le_refl 1)
theorem bcs (ops : List Operand) : Statement (.bcs ops) := of_arity (Nat.le_refl 1)
theorem beq (ops : List Operand) : Statement (.beq ops) := of_arity (Nat.le_refl 1)
theorem bne (ops : List Operand) : Statement (.bne ops) := of_arity (Nat.le_refl 1)
theorem bmi (ops : List Operand) : Statement (.bmi ops) := of_arity (Nat.le_refl 1)
theorem bpl (ops : List Operand) : Statement (.bpl ops) := of_arity (Nat.le_refl 1)
theorem bvc (ops : List Operand) : Statement (.bvc ops) := of_arity (Nat.le_refl 1)
theorem bvs (ops : List Operand) : Statement (.bvs ops) := of_arity (Nat.le_refl 1)
theorem sec (ops : List Operand) : Statement (.sec ops) := of_arity (Nat.zero_le 1)
theorem clc (ops : List Operand) : Statement (.clc ops) := of_arity (Nat.zero_le 1)
theorem sed (ops : List Operand) : Statement (.sed ops) := of_arity (Nat.zero_le 1)
theorem cld (ops : List Operand) : Statement (.cld ops) := of_arity (Nat.zero_le 1)
theorem clv (ops : List Operand) : Statement (.clv ops) := of_arity (Nat.zero_le 1)
theorem pha (ops : List Operand) : Statement (.pha ops) := of_arity (Nat.zero_le 1)
theorem php (ops : List Operand) : Statement (.php ops) := of_arity (Nat.zero_le 1)
theorem pla (ops : List Operand) : Statement (.pla ops) := of_arity (Nat.zero_le 1)
theorem plp (ops : List Operand) : Statement (.plp ops) := of_arity (Nat.zero_le 1)
theorem cmp (ops : List Operand) : Statement (.cmp ops) := of_arity (Nat.le_refl 1)
theorem cpx (ops : List Operand) : Statement (.cpx ops) := of_arity (Nat.le_refl 1)
theorem cpy (ops : List Operand) : Statement (.cpy ops) := of_arity (Nat.le_refl 1)
theorem int (ops : List Operand) : Statement (.int ops) := of_arity (Nat.zero_le 1)
theorem rti (ops : List Operand) : Statement (.rti ops) := of_arity (Nat.zero_le 1)
theorem clp (ops : List Operand) : Statement (.clp ops) := of_arity (Nat.zero_le 1)
theorem swt (ops : List Operand) : Statement (.swt ops) := of_arity (Nat.zero_le 1)
theorem hlt (ops : List Operand) : Statement (.hlt ops) := of_arity (Nat.zero_le 1)
theorem inp (ops : List Operand) : Statement (.inp ops) := of_arity (Nat.zero_le 1)
theorem out (ops : List Operand) : Statement (.out ops) := of_arity (Nat.zero_le 1)

end Sys2Proof.Laws.OpcodeRow
end

