-- ==== Sys2Proof/Laws/Shapes.lean ====
section
/-!
SUPPORT. How each update of the state moves an effect: from "`u` is `s` with the effect `e`" to the effect of
the updated `u`. An instruction's whole effect is composed from these. Trap entry has one lemma.
-/

namespace Sys2Proof.Machine

/-! ### Effects -/

/-- Nothing has happened yet. -/
theorem becomes_refl (s : State) : s.Becomes s { run := s.run } :=
  ⟨rfl, rfl, rfl, rfl, rfl, by simp, rfl, fun _ _ => rfl, fun _ => rfl, rfl, rfl, rfl,
    fun _ => rfl, fun q a => by simp [State.ownsAfter]⟩

section

variable {s u : State} {e : Effect}

theorem becomes_setReg (h : s.Becomes u e) (r : Reg) (v : Int) :
    s.Becomes (u.setReg r v) { e with reg := fun q => if q = r then some v else e.reg q } := by
  obtain ⟨h1, h2, h3, h4, h5, h6, h7, h8, h9, h10, h11, h12, h13, h14⟩ := h
  refine ⟨h1, h2, h3, h4, h5, h6, h7, fun q hq => ?_, fun q => ?_, ?_, ?_, ?_, h13, h14⟩
  · rw [State.find_setReg _ _ _ _ (h1 ▸ hq), h8 q hq]
  · rw [State.reg_setReg, h9, h4]; dsimp only; split <;> rfl
  · rw [State.flags_setReg, h10]
  · rw [State.pc_setReg, h11]
  · simp [h1, ← h12]

theorem becomes_setFlags (h : s.Becomes u e) (v : Byte) :
    s.Becomes (u.setFlags v) { e with flags := some v } := by
  obtain ⟨h1, h2, h3, h4, h5, h6, h7, h8, h9, h10, h11, h12, h13, h14⟩ := h
  refine ⟨h1, h2, h3, h4, h5, h6, h7, fun q hq => ?_, fun q => ?_, ?_, ?_, ?_, h13, h14⟩
  · rw [State.find_setFlags _ _ _ (h1 ▸ hq), h8 q hq]
  · rw [State.reg_setFlags, h9]
  · rw [State.flags_setFlags]; rfl
  · simp [State.pc] at h11 ⊢; exact h11
  · simp [h1, ← h12]

theorem becomes_setPc (h : s.Becomes u e) (v : Int) :
    s.Becomes (u.setPc v) { e with pc := some v } := by
  obtain ⟨h1, h2, h3, h4, h5, h6, h7, h8, h9, h10, h11, h12, h13, h14⟩ := h
  refine ⟨h1, h2, h3, h4, h5, h6, h7, fun q hq => ?_, fun q => ?_, ?_, ?_, ?_, h13, h14⟩
  · rw [State.find_setPc _ _ _ (h1 ▸ hq), h8 q hq]
  · rw [State.reg_setPc, h9]
  · rw [State.flags_setPc, h10]
  · rw [State.pc_setPc, h4]; rfl
  · simp [h1, ← h12]

/-- A cell is written; no cell was before. -/
theorem becomes_setCell (h : s.Becomes u e) (hc : e.cell = none) (a : Nat) (v : Int) :
    s.Becomes (u.setCell a v) { e with cell := some (a, v) } := by
  obtain ⟨h1, h2, h3, h4, h5, h6, h7, h8, h9, h10, h11, h12, h13, h14⟩ := h
  refine ⟨h1, h2, h3, h4, h5, h6, h7, h8, h9, h10, h11, h12, fun b => ?_, h14⟩
  rw [State.cell_setCell, h13, h4]
  simp [Effect.cellAfter, hc]

theorem becomes_setPriv (h : s.Becomes u e) (b : Bool) :
    s.Becomes (u.setPriv b) { e with priv := some b } := by
  obtain ⟨h1, h2, h3, h4, h5, h6, h7, h8, h9, h10, h11, h12, h13, h14⟩ := h
  exact ⟨h1, rfl, h3, h4, h5, h6, h7, h8, h9, h10, h11, h12, h13, h14⟩

theorem becomes_setInput (h : s.Becomes u e) (l : List Byte) :
    s.Becomes (u.setInput l) { e with inq := some l } := by
  obtain ⟨h1, h2, h3, h4, h5, h6, h7, h8, h9, h10, h11, h12, h13, h14⟩ := h
  exact ⟨h1, h2, h3, h4, rfl, h6, h7, h8, h9, h10, h11, h12, h13, h14⟩

theorem becomes_emit (h : s.Becomes u e) (b : Byte) :
    s.Becomes (u.emit b) { e with out := e.out ++ [b] } := by
  obtain ⟨h1, h2, h3, h4, h5, h6, h7, h8, h9, h10, h11, h12, h13, h14⟩ := h
  exact ⟨h1, h2, h3, h4, h5, by simp [h6], h7, h8, h9, h10, h11, h12, h13, h14⟩

/-- One more access is made. -/
theorem becomes_touch (h : s.Becomes u e) (hp : e.priv = none) (a : Nat) :
    s.Becomes (u.touch a) { e with touched := e.touched ++ [a] } := by
  obtain ⟨h1, h2, h3, h4, h5, h6, h7, h8, h9, h10, h11, h12, h13, h14⟩ := h
  have hr : u.records = s.records := by simp [State.records, h2, h4, hp]
  refine ⟨by simp [h1], by simp [h2], by simp [h3], by simp [h4], by simp [h5], by simp [h6],
    by simp [h7], fun q hq => by simp [h8 q hq], fun r => by simp [h9], by simp [h10], by simp [h11],
    by simp [h12], fun b => by simp [h13, Effect.cellAfter], fun q b => ?_⟩
  rw [State.owns_touch, h14, hr, h1]
  simp only [State.ownsAfter, List.any_append, List.any_cons, List.any_nil]
  cases s.owns q b <;> cases decide (q = s.cur) <;> cases s.records <;> simp

/-- Several more accesses are made. -/
theorem becomes_touchAll (h : s.Becomes u e) (hp : e.priv = none) (l : List Nat) :
    s.Becomes (u.touchAll l) { e with touched := e.touched ++ l } := by
  induction l generalizing u e with
  | nil => simpa using h
  | cons a l ih =>
    have := ih (becomes_touch h hp a) hp
    simpa using this

/-- A plain instruction ends: `pc` advances and the machine stops at the end of memory (R92 step 10). -/
theorem becomes_advance (h : s.Becomes u e) (hp : e.pc = none) (hr : e.run = s.run) (n : Nat) :
    s.Becomes (advance n u) { e with pc := (plainEffect n s).pc, run := (plainEffect n s).run } := by
  obtain ⟨h1, h2, h3, h4, h5, h6, h7, h8, h9, h10, h11, h12, h13, h14⟩ := h
  refine ⟨by simp [h1], by simp [h2], ?_, by simp [h4], by simp [h5], by simp [h6], by simp [h7],
    fun q hq => ?_, fun r => by simp [h9], by simp [h10], ?_, by simp [h1, ← h12],
    fun b => by simp [h13, Effect.cellAfter], fun q b => by simp [h14]⟩
  · simp [h3, hr, h4, h11, hp, plainEffect, stored, State.nextPc]
  · rw [State.find_advance _ _ _ (h1 ▸ hq), h8 q hq]
  · simp [h4, h11, hp, plainEffect, stored, State.nextPc]

end

/-- Trap entry after some accesses, whole (60_exceptions.md R222 to R225). -/
theorem traps_trapEntry (s : State) (c : Cause) (l : List Nat) :
    s.Traps (trapEntry c (s.touchAll l)) (c.code s.config) l := by
  refine ⟨rfl, rfl, rfl, by simp, by simp, by simp, by simp, fun q hq => by simp [hq], fun r => ?_,
    by simp, by simp, by simp, fun a => by simp, fun q a => by simp [State.owns_touchAll]⟩
  simp

/-- Trap entry with no access made. -/
theorem traps_trapEntry_nil (s : State) (c : Cause) : s.Traps (trapEntry c s) (c.code s.config) [] :=
  traps_trapEntry s c []

end Sys2Proof.Machine
end

