-- ==== Sys2Proof/Laws/Step.lean ====
section
/-!
SUPPORT. What a step can do, said once: the fetch, each shape of a meaning, `exec`, `step`. Every invariant
is then a short induction over `Update` and the few other endings, with no meaning unfolded.
-/

namespace Sys2Proof.Machine

/-! ### The fetch -/

/-- The two cells of a pair, or the trap at the one that is denied (20_memory.md R73). -/
theorem fetchPair_eq (a : Nat) (s : State) :
    fetchPair a s =
      if s.permits a then
        if s.permits (a + 1) then .ok (s.cell a, s.cell (a + 1)) (s.touchAll [a, a + 1])
        else .stop (trapEntry .memoryViolation (s.touch a))
      else .stop (trapEntry .memoryViolation s) := by
  unfold fetchPair
  rw [memRead_eq]
  by_cases h : s.permits a
  · simp only [h, if_true, memRead_eq, State.touch_permits, State.touch_cell]
    by_cases h' : s.permits (a + 1)
    · simp only [h', if_true]; rfl
    · simp only [h']; rfl
  · simp only [h]; rfl

/-! ### Addresses inside memory

A well-formed machine accesses no address outside memory (00_scope.md R6). -/

/-- The address lies in memory, where the state the step started in is well formed. -/
def Inside (s : State) (a : Nat) : Prop := s.wf → a < s.config.memSize

/-- Every file of a well-formed machine is well formed, that of an absent process (all zero) too. -/
theorem State.wf_file {s : State} (h : s.wf) (q : Nat) : (s.file q).wf s.config := by
  unfold State.file
  cases hf : tableFind s.proc q with
  | some rf => exact h.2.2.2.1 _ (mem_of_tableFind hf)
  | none =>
    exact ⟨fun r _ => by simp, Nat.two_pow_pos _, Nat.two_pow_pos _, by decide⟩

theorem State.wf_config {s : State} (h : s.wf) : s.config.wellFormed = true := h.2.2.2.2.2.2.2

/-- A register of a well-formed machine is an XLEN-bit number (10_state.md R23). -/
theorem State.reg_lt {s : State} (h : s.wf) (r : Reg) : s.reg r < 2 ^ s.config.xlen :=
  (State.wf_file h s.cur).1 r r.mem_all

theorem State.pc_lt {s : State} (h : s.wf) : s.pc < 2 ^ s.config.xlen := (State.wf_file h s.cur).2.1

theorem inside_trunc (s : State) (v : Int) : Inside s (trunc s.config.xlen v) := fun h => by
  rw [Config.memSize_eq (State.wf_config h)]; exact trunc_lt _ _

theorem inside_value (s : State) (v : BitVec 14) : Inside s v.toNat := fun h => by
  have h1 := Config.le_two_pow_xlen (State.wf_config h)
  have h2 := v.isLt
  rw [Config.memSize_eq (State.wf_config h)]
  omega

theorem inside_reg (s : State) (r : Reg) : Inside s (s.reg r) := fun h => by
  rw [Config.memSize_eq (State.wf_config h)]; exact State.reg_lt h r

/-- All the addresses lie in memory. -/
def InsideAll (s : State) (l : List Nat) : Prop := ∀ a ∈ l, Inside s a

theorem insideAll_nil (s : State) : InsideAll s [] := fun _ h => by cases h

theorem insideAll_cons {s : State} {a : Nat} {l : List Nat} (ha : Inside s a) (hl : InsideAll s l) :
    InsideAll s (a :: l) := fun b hb => by
  rcases List.mem_cons.mp hb with rfl | hb
  · exact ha
  · exact hl b hb

theorem insideAll_append {s : State} {l l' : List Nat} (h : InsideAll s l) (h' : InsideAll s l') :
    InsideAll s (l ++ l') := fun a ha => (List.mem_append.mp ha).elim (h a) (h' a)

theorem insideAll_sourceCells (s : State) (op : Operand) : InsideAll s (sourceCells op) := by
  obtain ⟨m, v⟩ := op
  cases m
  case absolute => exact insideAll_cons (inside_value s v) (insideAll_nil s)
  all_goals exact insideAll_nil s

/-- A cell that is a destination lies in memory. -/
theorem inside_target {op : Operand} {s : State} {a : Nat} (h : resolveTarget op s = some (.cell a)) :
    Inside s a := by
  obtain ⟨m, v⟩ := op
  cases m <;> simp only [resolveTarget, Option.map_eq_some_iff, reduceCtorEq, and_false, exists_false,
    Option.some.injEq, Target.cell.injEq] at h
  · exact h ▸ inside_value s v
  · exact h ▸ inside_trunc s _

/-! ### How a fetch ends -/

/-- How a fetch stops: in a trap or at the end of memory, after some accesses inside memory. -/
def FetchStops (s u : State) : Prop :=
  ∃ l, (∀ a ∈ l, a < s.config.memSize) ∧
    ((∃ c, u = trapEntry c (s.touchAll l)) ∨ u = raiseFatal .endOfMemory (s.touchAll l))

theorem fetchStops_touchAll {s u : State} {l : List Nat} (hl : ∀ a ∈ l, a < s.config.memSize)
    (h : FetchStops (s.touchAll l) u) : FetchStops s u := by
  obtain ⟨l', hl', h⟩ := h
  refine ⟨l ++ l', fun a ha => (List.mem_append.mp ha).elim (hl a) fun h => ?_,
    by simpa [State.touchAll_append] using h⟩
  simpa using hl' a h

theorem fetchStops_decodeError (s : State) (e : DecodeError) {l : List Nat}
    (hl : ∀ a ∈ l, a < s.config.memSize) : FetchStops s (raiseDecodeError e (s.touchAll l)) := by
  cases e <;> first | exact ⟨l, hl, .inl ⟨_, rfl⟩⟩ | exact ⟨l, hl, .inr rfl⟩

theorem fetchPair_cases {a : Nat} {s : State} (ha : a + 1 < s.config.memSize) :
    (∃ v l, fetchPair a s = .ok v (s.touchAll l) ∧ ∀ b ∈ l, b < s.config.memSize) ∨
      ∃ u, fetchPair a s = .stop u ∧ FetchStops s u := by
  rw [fetchPair_eq]
  split
  · split
    · exact .inl ⟨_, _, rfl, by simp; omega⟩
    · exact .inr ⟨_, rfl, [a], by simp; omega, .inl ⟨_, rfl⟩⟩
  · exact .inr ⟨_, rfl, [], by simp, .inl ⟨_, rfl⟩⟩

theorem fetchOperands_cases (n : Nat) {a : Nat} {s : State} (ha : a + 2 * n ≤ s.config.memSize) :
    (∃ ops l, fetchOperands n a s = .ok ops (s.touchAll l) ∧ ∀ b ∈ l, b < s.config.memSize) ∨
      ∃ u, fetchOperands n a s = .stop u ∧ FetchStops s u := by
  induction n generalizing a s with
  | zero => exact .inl ⟨[], [], rfl, by simp⟩
  | succ n ih =>
    simp only [fetchOperands]
    obtain ⟨v, l, h, hl⟩ | ⟨u, h, hu⟩ := fetchPair_cases (a := a) (s := s) (by omega)
    · rw [h]
      dsimp only
      cases hd : decodePair v.1 v.2 with
      | error e => exact .inr ⟨_, rfl, fetchStops_decodeError s e hl⟩
      | ok op =>
        dsimp only
        obtain ⟨ops, l', h', hl'⟩ | ⟨u, h', hu⟩ :=
          ih (a := a + 2) (s := s.touchAll l) (by rw [State.touchAll_config]; omega)
        · rw [h']
          refine .inl ⟨_, l ++ l', by rw [State.touchAll_append], fun b hb => ?_⟩
          exact (List.mem_append.mp hb).elim (hl b) fun h => by simpa using hl' b h
        · rw [h']
          exact .inr ⟨u, rfl, fetchStops_touchAll hl hu⟩
    · rw [h]
      exact .inr ⟨u, rfl, hu⟩

/-- A fetch gives an instruction in a state that differs by accesses inside memory only, or stops the step. -/
theorem fetch_cases (s : State) :
    (∃ i l, fetch s = .ok i (s.touchAll l) ∧ ∀ a ∈ l, a < s.config.memSize) ∨
      ∃ u, fetch s = .stop u ∧ FetchStops s u := by
  simp only [fetch]
  split
  · exact .inr ⟨_, rfl, [], by simp, .inr rfl⟩
  · rename_i hpc
    obtain ⟨v, l, h, hl⟩ | ⟨u, h, hu⟩ := fetchPair_cases (a := s.pc) (s := s) (by omega)
    · rw [h]
      dsimp only
      cases hd : decodeHeader s.config v.1 v.2 with
      | error e => exact .inr ⟨_, rfl, fetchStops_decodeError s e hl⟩
      | ok r =>
        dsimp only
        split
        · exact .inr ⟨_, rfl, l, hl, .inr rfl⟩
        · rename_i hn
          obtain ⟨ops, l', h', hl'⟩ | ⟨u, h', hu⟩ :=
            fetchOperands_cases r.1 (a := s.pc + 2) (s := s.touchAll l) (by
              rw [State.touchAll_config]; unfold State.nextPc at hn; omega)
          · rw [h']
            refine .inl ⟨_, l ++ l', by rw [State.touchAll_append], fun b hb => ?_⟩
            exact (List.mem_append.mp hb).elim (hl b) fun h => by simpa using hl' b h
          · rw [h']
            exact .inr ⟨u, rfl, fetchStops_touchAll hl hu⟩
    · rw [h]
      exact .inr ⟨u, rfl, hu⟩

/-! ### The meanings -/

/-- `t` is `s` after some of the updates that instructions make. The cells accessed lie in memory. A flags
register written keeps its reserved bits or has them 0. -/
inductive Update (s : State) : State → Prop where
  | refl : Update s s
  | touch {u : State} (h : Update s u) {a : Nat} (ha : Inside s a) : Update s (u.touch a)
  | setReg {u : State} (h : Update s u) (r : Reg) (v : Int) : Update s (u.setReg r v)
  | setFlags {u : State} (h : Update s u) (v : Byte)
      (hv : v &&& ~~~flagMask = 0 ∨ v &&& ~~~flagMask = u.flags &&& ~~~flagMask) :
      Update s (u.setFlags v)
  | setPc {u : State} (h : Update s u) (v : Int) : Update s (u.setPc v)
  | setCell {u : State} (h : Update s u) {a : Nat} (ha : Inside s a) (v : Int) : Update s (u.setCell a v)
  | setPriv {u : State} (h : Update s u) (b : Bool) : Update s (u.setPriv b)
  | setInput {u : State} (h : Update s u) (l : List Byte) : Update s (u.setInput l)
  | emit {u : State} (h : Update s u) (b : Byte) : Update s (u.emit b)
  | advance {u : State} (h : Update s u) (n : Nat) : Update s (advance n u)

theorem update_touchAll {s u : State} (h : Update s u) {l : List Nat} (hl : InsideAll s l) :
    Update s (u.touchAll l) := by
  induction l generalizing u with
  | nil => exact h
  | cons a l ih =>
    exact ih (h.touch (hl a List.mem_cons_self)) fun b hb => hl b (List.mem_cons_of_mem _ hb)

/-- How every instruction but HLT ends: in updates of the state, or in trap entry after accesses. -/
def Ends (s : State) (r : Result) : Prop :=
  (∃ t, r = .next t ∧ Update s t) ∨ ∃ c l, InsideAll s l ∧ r = .next (trapEntry c (s.touchAll l))

theorem ends_finish {s u : State} (h : Update s u) (n : Nat) : Ends s (finish n u) :=
  .inl ⟨_, rfl, h.advance n⟩

theorem ends_trap {s : State} (c : Cause) {l : List Nat} (hl : InsideAll s l) :
    Ends s (raiseTrap c (s.touchAll l)) := .inr ⟨c, l, hl, rfl⟩

theorem ends_trap_nil (s : State) (c : Cause) : Ends s (raiseTrap c s) := ends_trap c (insideAll_nil s)

theorem ends_withOperand {s : State} {k : Nat → State → Result} (ct : Bool) (ops : List Operand)
    (h : ∀ m l, InsideAll s l → Ends s (k m (s.touchAll l))) : Ends s (withOperand ct ops s k) := by
  cases ops with
  | nil => exact ends_trap_nil s _
  | cons op rest =>
    cases ct with
    | true => rw [withOperand_control]; exact h _ [] (insideAll_nil s)
    | false =>
      rw [withOperand_source]
      split
      · exact h _ _ (insideAll_sourceCells s op)
      · exact ends_trap_nil s _

/-- The destination is a register or a cell of memory. -/
def InsideTarget (s : State) (t : Target) : Prop := ∀ a, t = .cell a → Inside s a

theorem ends_withTarget {s : State} {k : Target → Result} (ops : List Operand)
    (h : ∀ t, InsideTarget s t → Ends s (k t)) : Ends s (withTarget ops s k) := by
  cases ops with
  | nil => exact ends_trap_nil s _
  | cons op rest =>
    simp only [withTarget]
    split
    · exact ends_trap_nil s _
    · rename_i t ht
      exact h _ fun a ha => inside_target (ha ▸ ht)

theorem writeTarget_cases (t : Target) (v : Int) (s : State) :
    writeTarget t v s = none ∨ ∃ u, writeTarget t v s = some u ∧
      ((∃ r, u = s.setReg r v) ∨ ∃ a, t = .cell a ∧ u = (s.touch a).setCell a v) := by
  cases t with
  | reg r => exact .inr ⟨_, rfl, .inl ⟨r, rfl⟩⟩
  | cell a =>
    simp only [writeTarget, memWrite_eq]
    split
    · exact .inr ⟨_, rfl, .inr ⟨a, rfl, rfl⟩⟩
    · exact .inl rfl

theorem readTarget_cases {t : Target} {s : State} (ht : InsideTarget s t) :
    readTarget t s = none ∨ ∃ v l, readTarget t s = some (v, s.touchAll l) ∧ InsideAll s l := by
  cases t with
  | reg r => exact .inr ⟨_, [], rfl, insideAll_nil s⟩
  | cell a =>
    simp only [readTarget, memRead_eq]
    split
    · exact .inr ⟨_, [a], rfl, insideAll_cons (ht a rfl) (insideAll_nil s)⟩
    · exact .inl rfl

theorem ends_loadReg (r : Reg) (ops : List Operand) (s : State) : Ends s (loadReg r ops s) :=
  ends_withOperand _ _ fun _ _ hl => ends_finish ((update_touchAll .refl hl).setReg _ _) _

theorem ends_storeReg (r : Reg) (ops : List Operand) (s : State) : Ends s (storeReg r ops s) :=
  ends_withTarget _ fun t ht => by
    obtain h | ⟨u, h, ⟨q, rfl⟩ | ⟨a, ha, rfl⟩⟩ := writeTarget_cases t (s.reg r) s <;> rw [h]
    · exact ends_trap_nil s _
    · exact ends_finish (Update.refl.setReg _ _) _
    · exact ends_finish ((Update.refl.touch (ht a ha)).setCell (ht a ha) _) _

theorem ends_copyReg (src dst : Reg) (ops : List Operand) (s : State) :
    Ends s (copyReg src dst ops s) := ends_finish (Update.refl.setReg _ _) _

theorem ends_modifyTarget (f : Nat → Int) (ops : List Operand) (s : State) :
    Ends s (modifyTarget f ops s) :=
  ends_withTarget _ fun t ht => by
    obtain h | ⟨v, l, h, hl⟩ := readTarget_cases ht <;> rw [h]
    · exact ends_trap_nil s _
    · dsimp only
      obtain h | ⟨u, h, ⟨q, rfl⟩ | ⟨a, ha, rfl⟩⟩ := writeTarget_cases t (f v) (s.touchAll l) <;> rw [h]
      · exact ends_trap _ hl
      · exact ends_finish ((update_touchAll .refl hl).setReg _ _) _
      · exact ends_finish (((update_touchAll .refl hl).touch (ht a ha)).setCell (ht a ha) _) _

theorem ends_modifyReg (f : Nat → Int) (r : Reg) (ops : List Operand) (s : State) :
    Ends s (modifyReg f r ops s) := ends_finish (Update.refl.setReg _ _) _

theorem ends_accumulate (f : Nat → Nat → Int) (ops : List Operand) (s : State) :
    Ends s (accumulate f ops s) :=
  ends_withOperand _ _ fun _ _ hl => ends_finish ((update_touchAll .refl hl).setReg _ _) _

theorem ends_accumulateDivide (f : Nat → Nat → Int) (ops : List Operand) (s : State) :
    Ends s (accumulateDivide f ops s) :=
  ends_withOperand _ _ fun m l hl => by
    split
    · exact ends_trap _ hl
    · exact ends_finish ((update_touchAll .refl hl).setReg _ _) _

theorem compareFlags_reserved (r m : Nat) : compareFlags r m &&& ~~~flagMask = 0 := by
  unfold compareFlags
  split <;> split <;> split <;> decide

theorem flagsOfCell_reserved (v : Nat) : flagsOfCell v &&& ~~~flagMask = 0 := by
  unfold flagsOfCell
  rw [BitVec.and_assoc]
  exact BitVec.and_zero

theorem setFlag_reserved {m : Byte} (hm : m &&& ~~~flagMask = 0) (f : Byte) :
    setFlag m f &&& ~~~flagMask = f &&& ~~~flagMask := by
  unfold setFlag
  ext i hi
  have := congrArg (fun v => v[i]) hm
  simp only [BitVec.getElem_and, BitVec.getElem_or] at this ⊢
  cases h1 : m[i] <;> simp_all

theorem clearFlag_reserved {m : Byte} (hm : m &&& ~~~flagMask = 0) (f : Byte) :
    clearFlag m f &&& ~~~flagMask = f &&& ~~~flagMask := by
  have : ~~~m &&& ~~~flagMask = ~~~flagMask := by
    ext i hi
    have := congrArg (fun v => v[i]) hm
    simp only [BitVec.getElem_and, BitVec.getElem_not] at this ⊢
    cases h1 : m[i] <;> simp_all
  rw [clearFlag, BitVec.and_assoc, this]

theorem ends_compareReg (r : Reg) (ops : List Operand) (s : State) : Ends s (compareReg r ops s) :=
  ends_withOperand _ _ fun _ _ hl =>
    ends_finish ((update_touchAll .refl hl).setFlags _ (.inl (compareFlags_reserved _ _))) _

theorem ends_modifyFlags (f : Byte → Byte)
    (hf : ∀ b, f b &&& ~~~flagMask = b &&& ~~~flagMask) (ops : List Operand) (s : State) :
    Ends s (modifyFlags f ops s) := ends_finish (Update.refl.setFlags _ (.inr (hf _))) _

theorem ends_branch (b : Bool) (ops : List Operand) (s : State) : Ends s (branch b ops s) :=
  ends_withOperand _ _ fun _ _ hl => by
    split
    · exact .inl ⟨_, rfl, (update_touchAll .refl hl).setPc _⟩
    · exact ends_finish (update_touchAll .refl hl) _

theorem push_cases (v : Nat) (s : State) : push v s = none ∨
    push v s = some (((s.touch (s.reg .sp)).setCell (s.reg .sp) v).setReg .sp (s.reg .sp - 1)) := by
  rw [push_eq]
  split
  · exact .inr rfl
  · exact .inl rfl

theorem pop_cases (s : State) : pop s = none ∨
    pop s = some (s.cell s.stackTop, (s.touch s.stackTop).setReg .sp s.stackTop) := by
  rw [pop_eq]
  split
  · exact .inr rfl
  · exact .inl rfl

theorem ends_pushValue (v : Nat) (ops : List Operand) (s : State) : Ends s (pushValue v ops s) := by
  rw [pushValue]
  obtain h | h := push_cases v s <;> rw [h]
  · exact ends_trap_nil s _
  · exact ends_finish (((Update.refl.touch (inside_reg s _)).setCell (inside_reg s _) _).setReg _ _) _

theorem ends_popValue {k : Nat → State → State} (ops : List Operand) (s : State)
    (hk : ∀ v u, Update s u → Update s (k v u)) : Ends s (popValue k ops s) := by
  rw [popValue]
  obtain h | h := pop_cases s <;> rw [h]
  · exact ends_trap_nil s _
  · exact ends_finish (hk _ _ ((Update.refl.touch (inside_trunc s _)).setReg _ _)) _

theorem ends_returnPop (s : State) : Ends s (returnPop s) := by
  rw [returnPop]
  obtain h | h := pop_cases s <;> rw [h]
  · exact ends_trap_nil s _
  · exact .inl ⟨_, rfl, ((Update.refl.touch (inside_trunc s _)).setReg _ _).setPc _⟩

theorem ends_exec_bit (ops : List Operand) (s : State) : Ends s (execBit ops s) :=
  ends_withOperand _ _ fun _ _ hl => ends_finish ((update_touchAll .refl hl).setFlags _ (.inr (by
    unfold bitTestFlags
    split
    · exact setFlag_reserved rfl _
    · exact clearFlag_reserved rfl _))) _

theorem ends_exec_jsr (ops : List Operand) (s : State) : Ends s (execJsr ops s) :=
  ends_withOperand _ _ fun t l hl => by
    obtain h | h := push_cases (trunc (s.touchAll l).config.xlen ((s.touchAll l).nextPc ops.length))
      (s.touchAll l) <;> rw [h]
    · exact ends_trap _ hl
    · have hsp : Inside s ((s.touchAll l).reg .sp) := by
        rw [State.touchAll_reg]; exact inside_reg s _
      exact .inl ⟨_, rfl,
        ((((update_touchAll .refl hl).touch hsp).setCell hsp _).setReg _ _).setPc _⟩

theorem ends_exec_inp (ops : List Operand) (s : State) : Ends s (execInp ops s) := by
  unfold execInp
  split
  · exact .inl ⟨_, rfl, .refl⟩
  · exact ends_finish ((Update.refl.setInput _).setReg _ _) _

theorem ends_exec_jmp (ops : List Operand) (s : State) : Ends s (execJmp ops s) :=
  ends_withOperand _ _ fun _ _ hl => .inl ⟨_, rfl, (update_touchAll .refl hl).setPc _⟩

/-! The same by instruction. -/

theorem ends_nop (ops : List Operand) (s : State) : Ends s (exec (.nop ops) s) :=
  ends_finish .refl _
theorem ends_syscall (ops : List Operand) (s : State) : Ends s (exec (.syscall ops) s) :=
  ends_trap_nil s .syscall
theorem ends_int (ops : List Operand) (s : State) : Ends s (exec (.int ops) s) :=
  ends_trap_nil s (.software (s.reg .a))
theorem ends_lda (ops : List Operand) (s : State) : Ends s (exec (.lda ops) s) :=
  ends_loadReg _ _ _
theorem ends_ldx (ops : List Operand) (s : State) : Ends s (exec (.ldx ops) s) :=
  ends_loadReg _ _ _
theorem ends_ldy (ops : List Operand) (s : State) : Ends s (exec (.ldy ops) s) :=
  ends_loadReg _ _ _
theorem ends_sta (ops : List Operand) (s : State) : Ends s (exec (.sta ops) s) :=
  ends_storeReg _ _ _
theorem ends_stx (ops : List Operand) (s : State) : Ends s (exec (.stx ops) s) :=
  ends_storeReg _ _ _
theorem ends_sty (ops : List Operand) (s : State) : Ends s (exec (.sty ops) s) :=
  ends_storeReg _ _ _
theorem ends_tax (ops : List Operand) (s : State) : Ends s (exec (.tax ops) s) :=
  ends_copyReg _ _ _ _
theorem ends_tay (ops : List Operand) (s : State) : Ends s (exec (.tay ops) s) :=
  ends_copyReg _ _ _ _
theorem ends_tsx (ops : List Operand) (s : State) : Ends s (exec (.tsx ops) s) :=
  ends_copyReg _ _ _ _
theorem ends_txa (ops : List Operand) (s : State) : Ends s (exec (.txa ops) s) :=
  ends_copyReg _ _ _ _
theorem ends_txs (ops : List Operand) (s : State) : Ends s (exec (.txs ops) s) :=
  ends_copyReg _ _ _ _
theorem ends_tya (ops : List Operand) (s : State) : Ends s (exec (.tya ops) s) :=
  ends_copyReg _ _ _ _
theorem ends_inc (ops : List Operand) (s : State) : Ends s (exec (.inc ops) s) := by
  show Ends s (execInc ops s)
  unfold execInc
  exact ends_modifyTarget _ _ _
theorem ends_dec (ops : List Operand) (s : State) : Ends s (exec (.dec ops) s) := by
  show Ends s (execDec ops s)
  unfold execDec
  exact ends_modifyTarget _ _ _
theorem ends_ina (ops : List Operand) (s : State) : Ends s (exec (.ina ops) s) := by
  show Ends s (execIna ops s)
  unfold execIna
  exact ends_modifyReg _ _ _ _
theorem ends_inx (ops : List Operand) (s : State) : Ends s (exec (.inx ops) s) := by
  show Ends s (execInx ops s)
  unfold execInx
  exact ends_modifyReg _ _ _ _
theorem ends_iny (ops : List Operand) (s : State) : Ends s (exec (.iny ops) s) := by
  show Ends s (execIny ops s)
  unfold execIny
  exact ends_modifyReg _ _ _ _
theorem ends_dex (ops : List Operand) (s : State) : Ends s (exec (.dex ops) s) := by
  show Ends s (execDex ops s)
  unfold execDex
  exact ends_modifyReg _ _ _ _
theorem ends_dey (ops : List Operand) (s : State) : Ends s (exec (.dey ops) s) := by
  show Ends s (execDey ops s)
  unfold execDey
  exact ends_modifyReg _ _ _ _
theorem ends_add (ops : List Operand) (s : State) : Ends s (exec (.add ops) s) := by
  show Ends s (execAdd ops s)
  unfold execAdd
  exact ends_accumulate _ _ _
theorem ends_sub (ops : List Operand) (s : State) : Ends s (exec (.sub ops) s) := by
  show Ends s (execSub ops s)
  unfold execSub
  exact ends_accumulate _ _ _
theorem ends_mul (ops : List Operand) (s : State) : Ends s (exec (.mul ops) s) := by
  show Ends s (execMul ops s)
  unfold execMul
  exact ends_accumulate _ _ _
theorem ends_div (ops : List Operand) (s : State) : Ends s (exec (.div ops) s) := by
  show Ends s (execDiv ops s)
  unfold execDiv
  exact ends_accumulateDivide _ _ _
theorem ends_mod (ops : List Operand) (s : State) : Ends s (exec (.mod ops) s) := by
  show Ends s (execMod ops s)
  unfold execMod
  exact ends_accumulateDivide _ _ _
theorem ends_and (ops : List Operand) (s : State) : Ends s (exec (.and ops) s) := by
  show Ends s (execAnd ops s)
  unfold execAnd
  exact ends_accumulate _ _ _
theorem ends_ora (ops : List Operand) (s : State) : Ends s (exec (.ora ops) s) := by
  show Ends s (execOra ops s)
  unfold execOra
  exact ends_accumulate _ _ _
theorem ends_xor (ops : List Operand) (s : State) : Ends s (exec (.xor ops) s) := by
  show Ends s (execXor ops s)
  unfold execXor
  exact ends_accumulate _ _ _
theorem ends_shl (ops : List Operand) (s : State) : Ends s (exec (.shl ops) s) := by
  show Ends s (execShl ops s)
  unfold execShl
  exact ends_modifyReg _ _ _ _
theorem ends_lsr (ops : List Operand) (s : State) : Ends s (exec (.lsr ops) s) := by
  show Ends s (execLsr ops s)
  unfold execLsr
  exact ends_modifyReg _ _ _ _
theorem ends_rol (ops : List Operand) (s : State) : Ends s (exec (.rol ops) s) := by
  show Ends s (execRol ops s)
  unfold execRol
  exact ends_modifyReg _ _ _ _
theorem ends_ror (ops : List Operand) (s : State) : Ends s (exec (.ror ops) s) := by
  show Ends s (execRor ops s)
  unfold execRor
  exact ends_modifyReg _ _ _ _
theorem ends_bit (ops : List Operand) (s : State) : Ends s (exec (.bit ops) s) :=
  ends_exec_bit ops s
theorem ends_jmp (ops : List Operand) (s : State) : Ends s (exec (.jmp ops) s) :=
  ends_exec_jmp ops s
theorem ends_jsr (ops : List Operand) (s : State) : Ends s (exec (.jsr ops) s) :=
  ends_exec_jsr ops s
theorem ends_rts (ops : List Operand) (s : State) : Ends s (exec (.rts ops) s) :=
  ends_returnPop s
theorem ends_rti (ops : List Operand) (s : State) : Ends s (exec (.rti ops) s) :=
  ends_returnPop s
theorem ends_bcc (ops : List Operand) (s : State) : Ends s (exec (.bcc ops) s) :=
  ends_branch _ _ _
theorem ends_bcs (ops : List Operand) (s : State) : Ends s (exec (.bcs ops) s) :=
  ends_branch _ _ _
theorem ends_beq (ops : List Operand) (s : State) : Ends s (exec (.beq ops) s) :=
  ends_branch _ _ _
theorem ends_bne (ops : List Operand) (s : State) : Ends s (exec (.bne ops) s) :=
  ends_branch _ _ _
theorem ends_bmi (ops : List Operand) (s : State) : Ends s (exec (.bmi ops) s) :=
  ends_branch _ _ _
theorem ends_bpl (ops : List Operand) (s : State) : Ends s (exec (.bpl ops) s) :=
  ends_branch _ _ _
theorem ends_bvc (ops : List Operand) (s : State) : Ends s (exec (.bvc ops) s) :=
  ends_branch _ _ _
theorem ends_bvs (ops : List Operand) (s : State) : Ends s (exec (.bvs ops) s) :=
  ends_branch _ _ _
theorem ends_sec (ops : List Operand) (s : State) : Ends s (exec (.sec ops) s) :=
  ends_modifyFlags _ (setFlag_reserved rfl) _ _
theorem ends_clc (ops : List Operand) (s : State) : Ends s (exec (.clc ops) s) :=
  ends_modifyFlags _ (clearFlag_reserved rfl) _ _
theorem ends_sed (ops : List Operand) (s : State) : Ends s (exec (.sed ops) s) :=
  ends_modifyFlags _ (setFlag_reserved rfl) _ _
theorem ends_cld (ops : List Operand) (s : State) : Ends s (exec (.cld ops) s) :=
  ends_modifyFlags _ (clearFlag_reserved rfl) _ _
theorem ends_clv (ops : List Operand) (s : State) : Ends s (exec (.clv ops) s) :=
  ends_modifyFlags _ (clearFlag_reserved rfl) _ _
theorem ends_pha (ops : List Operand) (s : State) : Ends s (exec (.pha ops) s) :=
  ends_pushValue _ _ _
theorem ends_php (ops : List Operand) (s : State) : Ends s (exec (.php ops) s) :=
  ends_pushValue _ _ _
theorem ends_pla (ops : List Operand) (s : State) : Ends s (exec (.pla ops) s) :=
  ends_popValue _ _ fun _ _ h => h.setReg _ _
theorem ends_plp (ops : List Operand) (s : State) : Ends s (exec (.plp ops) s) :=
  ends_popValue _ _ fun _ _ h => h.setFlags _ (.inl (flagsOfCell_reserved _))
theorem ends_cmp (ops : List Operand) (s : State) : Ends s (exec (.cmp ops) s) :=
  ends_compareReg _ _ _
theorem ends_cpx (ops : List Operand) (s : State) : Ends s (exec (.cpx ops) s) :=
  ends_compareReg _ _ _
theorem ends_cpy (ops : List Operand) (s : State) : Ends s (exec (.cpy ops) s) :=
  ends_compareReg _ _ _
theorem ends_clp (ops : List Operand) (s : State) : Ends s (exec (.clp ops) s) :=
  ends_finish (Update.refl.setPriv _) _
theorem ends_swt (ops : List Operand) (s : State) : Ends s (exec (.swt ops) s) :=
  ends_finish (Update.refl.setPriv _) _
theorem ends_inp (ops : List Operand) (s : State) : Ends s (exec (.inp ops) s) :=
  ends_exec_inp ops s
theorem ends_out (ops : List Operand) (s : State) : Ends s (exec (.out ops) s) :=
  ends_finish (Update.refl.emit _) _

/-- How HLT ends (45_privileged_io_system.md R205). -/
def HaltEnds (ops : List Operand) (s : State) (r : Result) : Prop :=
  (s.cur = 0 ∧
    r = .next { (s.report ⟨0, s.reg .a⟩).setPc (s.nextPc ops.length) with run := .halted }) ∨
  (s.cur ≠ 0 ∧
    r = .next { (s.report ⟨s.cur, s.reg .a⟩).removeProc s.cur with cur := 0, run := .halted })

theorem exec_hlt (ops : List Operand) (s : State) : HaltEnds ops s (exec (.hlt ops) s) := by
  by_cases h : s.cur = 0
  · exact .inl ⟨h, if_pos h⟩
  · exact .inr ⟨h, if_neg h⟩

/-- Every instruction ends in updates or in trap entry, but for HLT. -/
theorem exec_cases (i : Instr) (s : State) :
    Ends s (exec i s) ∨ ∃ ops, i = .hlt ops ∧ HaltEnds ops s (exec i s) := by
  cases i
  case hlt ops => exact .inr ⟨ops, rfl, exec_hlt ops s⟩
  all_goals refine .inl ?_
  case nop ops => exact ends_nop ops s
  case syscall ops => exact ends_syscall ops s
  case int ops => exact ends_int ops s
  case lda ops => exact ends_lda ops s
  case ldx ops => exact ends_ldx ops s
  case ldy ops => exact ends_ldy ops s
  case sta ops => exact ends_sta ops s
  case stx ops => exact ends_stx ops s
  case sty ops => exact ends_sty ops s
  case tax ops => exact ends_tax ops s
  case tay ops => exact ends_tay ops s
  case tsx ops => exact ends_tsx ops s
  case txa ops => exact ends_txa ops s
  case txs ops => exact ends_txs ops s
  case tya ops => exact ends_tya ops s
  case inc ops => exact ends_inc ops s
  case dec ops => exact ends_dec ops s
  case ina ops => exact ends_ina ops s
  case inx ops => exact ends_inx ops s
  case iny ops => exact ends_iny ops s
  case dex ops => exact ends_dex ops s
  case dey ops => exact ends_dey ops s
  case add ops => exact ends_add ops s
  case sub ops => exact ends_sub ops s
  case mul ops => exact ends_mul ops s
  case div ops => exact ends_div ops s
  case mod ops => exact ends_mod ops s
  case and ops => exact ends_and ops s
  case ora ops => exact ends_ora ops s
  case xor ops => exact ends_xor ops s
  case shl ops => exact ends_shl ops s
  case lsr ops => exact ends_lsr ops s
  case rol ops => exact ends_rol ops s
  case ror ops => exact ends_ror ops s
  case bit ops => exact ends_bit ops s
  case jmp ops => exact ends_jmp ops s
  case jsr ops => exact ends_jsr ops s
  case rts ops => exact ends_rts ops s
  case rti ops => exact ends_rti ops s
  case bcc ops => exact ends_bcc ops s
  case bcs ops => exact ends_bcs ops s
  case beq ops => exact ends_beq ops s
  case bne ops => exact ends_bne ops s
  case bmi ops => exact ends_bmi ops s
  case bpl ops => exact ends_bpl ops s
  case bvc ops => exact ends_bvc ops s
  case bvs ops => exact ends_bvs ops s
  case sec ops => exact ends_sec ops s
  case clc ops => exact ends_clc ops s
  case sed ops => exact ends_sed ops s
  case cld ops => exact ends_cld ops s
  case clv ops => exact ends_clv ops s
  case pha ops => exact ends_pha ops s
  case php ops => exact ends_php ops s
  case pla ops => exact ends_pla ops s
  case plp ops => exact ends_plp ops s
  case cmp ops => exact ends_cmp ops s
  case cpx ops => exact ends_cpx ops s
  case cpy ops => exact ends_cpy ops s
  case clp ops => exact ends_clp ops s
  case swt ops => exact ends_swt ops s
  case inp ops => exact ends_inp ops s
  case out ops => exact ends_out ops s

/-! ### The step -/

/-- Everything a step that gives a next state can have done. -/
theorem step_cases {s t : State} (h : step s = .next t) :
    (s.run = .halted ∧ t = s) ∨
    (s.run = .running ∧
      ((fetch s = .stop t ∧ FetchStops s t) ∨
      ∃ i l, fetch s = .ok i (s.touchAll l) ∧ (∀ a ∈ l, a < s.config.memSize) ∧
        ((awaitsInput i s = true ∧ t = s) ∨
          (awaitsInput i s = false ∧ exec i (s.touchAll l) = .next t)))) := by
  unfold step at h
  split at h
  · cases h
  · rename_i hr
    cases h
    exact .inl ⟨hr, rfl⟩
  · rename_i hr
    refine .inr ⟨hr, ?_⟩
    obtain ⟨i, l, hf, hl⟩ | ⟨u, hf, hu⟩ := fetch_cases s
    · rw [hf] at h
      refine .inr ⟨i, l, hf, hl, ?_⟩
      dsimp only at h
      split at h
      · rename_i hw
        cases h
        exact .inl ⟨hw, rfl⟩
      · rename_i hw
        exact .inr ⟨by simpa using hw, h⟩
    · rw [hf] at h
      cases h
      exact .inl ⟨hf, hu⟩

end Sys2Proof.Machine
end

