-- ==== Sys2Proof/Tests/Slice0.lean ====
section
/-!
SUPPORT. The model's own tests. Expected results are those of spec/95_test_vectors.md, whose number is in the
name (V1.1 is `test_v1_01`), or are worked by hand from the rule a comment names. The last part shows, for
every statement with hypotheses, a state and operands that meet them all.
-/

open Sys2Proof Sys2Proof.Machine Sys2Proof.Claims

namespace Sys2Proof.Tests

/-! ### Well-formedness -/

/-- Ten operands are the most (R80, R92 step 4). -/
theorem test_wf_ten_operands : (Instr.nop (List.replicate 10 ⟨.register, 0⟩)).wellFormed .hardware = true := by decide

/-- Eleven operands are refused, by the check and by the decoder. -/
theorem test_wf_eleven_operands :
    (Instr.nop (List.replicate 11 ⟨.register, 0⟩)).wellFormed .hardware = false ∧
      decode .hardware (encodeCells .hardware (.nop (List.replicate 11 ⟨.register, 0⟩))) =
        .error .invalidOperandCount :=
  ⟨rfl, rfl⟩

/-- A missing operand fails the arity check, an extra one does not (R98). -/
theorem test_arity : (Instr.lda []).hasOperands = false ∧ (Instr.lda [⟨.register, 0⟩]).hasOperands = true ∧
    (Instr.nop [⟨.register, 0⟩]).hasOperands = true := by decide

/-- The hardware's configuration meets every constraint of R6, and each constraint is checked. -/
theorem test_config_wellFormed :
    Config.hardware.wellFormed = true ∧
      [{ Config.hardware with xlen := 15 }, { Config.hardware with cellw := 8 },
        { Config.hardware with memSize := 65535 }, { Config.hardware with policy := .threshold 65537 },
        { Config.hardware with nreg := 9 }, { Config.hardware with maxOperands := 11 },
        { Config.hardware with opcodeMap := hardwareOpcodeMap.drop 1 },
        { Config.hardware with opcodeMap := hardwareOpcodeMap.reverse },
        { Config.hardware with opcodeMap := .nop :: .nop :: hardwareOpcodeMap.drop 2 },
        { Config.hardware with causeArith := 65536 }].all (fun c => !c.wellFormed) = true := by decide

/-! ### Other configurations (R5, R6, R96) -/

/-- XLEN = CELLW = 32, a threshold policy, and another opcode map: INX and INY exchanged. -/
def wide : Config :=
  { Config.hardware with
    xlen := 32, cellw := 32, memSize := 2 ^ 32, causeArith := 1
    opcodeMap := hardwareOpcodeMap.take 17 ++ [.iny, .inx] ++ hardwareOpcodeMap.drop 19 }

theorem test_wide_wellFormed : wide.wellFormed = true := by decide

/-- A map takes effect in the decoder and in the encoder. -/
theorem test_other_opcode_map :
    decode wide [0, 0x11] = .ok (.iny [], []) ∧ decode wide [0, 0x12] = .ok (.inx [], []) ∧
      decode .hardware [0, 0x11] = .ok (.inx [], []) ∧
      encode wide (.inx []) = [0, 0x12] ∧ encode .hardware (.inx []) = [0, 0x11] := by decide

/-! ### Decoding: words written out from 30_encoding.md R80 to R84 and the opcode map R96 -/

/-- Opcodes 0 to 15: the header word, and operand pair 0x81 0x2C (Absolute, 300) where there is one. -/
theorem test_decode_opcodes_0 :
    [
      (16, 0x0000), (16, 0x0001), (32, 0x812C0102), (32, 0x812C0103), (32, 0x812C0104),
      (32, 0x812C0105), (32, 0x812C0106), (32, 0x812C0107), (16, 0x0008), (16, 0x0009),
      (16, 0x000A), (16, 0x000B), (16, 0x000C), (16, 0x000D), (32, 0x812C010E), (32, 0x812C010F)
    ].map (fun w : Nat × Nat => decodeTableWord w.1 w.2) = [
      .nop [], .syscall [], .lda [⟨.absolute, 300⟩], .ldx [⟨.absolute, 300⟩],
      .ldy [⟨.absolute, 300⟩], .sta [⟨.absolute, 300⟩], .stx [⟨.absolute, 300⟩],
      .sty [⟨.absolute, 300⟩], .tax [], .tay [], .tsx [], .txa [], .txs [], .tya [],
      .inc [⟨.absolute, 300⟩], .dec [⟨.absolute, 300⟩]
    ].map some := by decide

/-- Opcodes 16 to 31: the header word, and operand pair 0x81 0x2C (Absolute, 300) where there is one. -/
theorem test_decode_opcodes_16 :
    [
      (16, 0x0010), (16, 0x0011), (16, 0x0012), (16, 0x0013), (16, 0x0014), (32, 0x812C0115),
      (32, 0x812C0116), (32, 0x812C0117), (32, 0x812C0118), (32, 0x812C0119), (32, 0x812C011A),
      (32, 0x812C011B), (32, 0x812C011C), (16, 0x001D), (16, 0x001E), (16, 0x001F)
    ].map (fun w : Nat × Nat => decodeTableWord w.1 w.2) = [
      .ina [], .inx [], .iny [], .dex [], .dey [], .add [⟨.absolute, 300⟩],
      .sub [⟨.absolute, 300⟩], .mul [⟨.absolute, 300⟩], .div [⟨.absolute, 300⟩],
      .mod [⟨.absolute, 300⟩], .and [⟨.absolute, 300⟩], .ora [⟨.absolute, 300⟩],
      .xor [⟨.absolute, 300⟩], .shl [], .lsr [], .rol []
    ].map some := by decide

/-- Opcodes 32 to 47: the header word, and operand pair 0x81 0x2C (Absolute, 300) where there is one. -/
theorem test_decode_opcodes_32 :
    [
      (16, 0x0020), (32, 0x812C0121), (32, 0x812C0122), (32, 0x812C0123), (16, 0x0024),
      (32, 0x812C0125), (32, 0x812C0126), (32, 0x812C0127), (32, 0x812C0128), (32, 0x812C0129),
      (32, 0x812C012A), (32, 0x812C012B), (32, 0x812C012C), (16, 0x002D), (16, 0x002E),
      (16, 0x002F)
    ].map (fun w : Nat × Nat => decodeTableWord w.1 w.2) = [
      .ror [], .bit [⟨.absolute, 300⟩], .jmp [⟨.absolute, 300⟩], .jsr [⟨.absolute, 300⟩],
      .rts [], .bcc [⟨.absolute, 300⟩], .bcs [⟨.absolute, 300⟩], .beq [⟨.absolute, 300⟩],
      .bne [⟨.absolute, 300⟩], .bmi [⟨.absolute, 300⟩], .bpl [⟨.absolute, 300⟩],
      .bvc [⟨.absolute, 300⟩], .bvs [⟨.absolute, 300⟩], .sec [], .clc [], .sed []
    ].map some := by decide

/-- Opcodes 48 to 63: the header word, and operand pair 0x81 0x2C (Absolute, 300) where there is one. -/
theorem test_decode_opcodes_48 :
    [
      (16, 0x0030), (16, 0x0031), (16, 0x0032), (16, 0x0033), (16, 0x0034), (16, 0x0035),
      (32, 0x812C0136), (32, 0x812C0137), (32, 0x812C0138), (16, 0x0039), (16, 0x003A),
      (16, 0x003B), (16, 0x003C), (16, 0x003D), (16, 0x003E), (16, 0x003F)
    ].map (fun w : Nat × Nat => decodeTableWord w.1 w.2) = [
      .cld [], .clv [], .pha [], .php [], .pla [], .plp [], .cmp [⟨.absolute, 300⟩],
      .cpx [⟨.absolute, 300⟩], .cpy [⟨.absolute, 300⟩], .int [], .rti [], .clp [], .swt [],
      .hlt [], .inp [], .out []
    ].map some := by decide

/-- The four modes, the top value, the byte order of a pair (30_encoding.md section 6). -/
theorem test_decode_modes :
    decodeOperand 0x00 0x06 = ⟨.register, 6⟩ ∧ decodeOperand 0x40 0x05 = ⟨.immediate, 5⟩ ∧
      decodeOperand 0x81 0x2C = ⟨.absolute, 300⟩ ∧ decodeOperand 0xFF 0xFF = ⟨.relative, 16383⟩ ∧
      decodeOperand 0x3F 0xFF = ⟨.register, 16383⟩ := by decide

/-- A value outside 14 bits is masked by the encoder (R83, R86). -/
theorem test_encode_masks : encodePair .immediate 16389 = (0x40, 0x05) := by decide

/-- Reserved encodings are refused by name, the count first (R92, V7.2). -/
theorem test_decode_rejects :
    decode .hardware [0x0B, 0x00] = .error .invalidOperandCount ∧ decode .hardware [0xC8, 0xC8] = .error .invalidOperandCount ∧
      decode .hardware [0x00, 0x40] = .error .noMapping ∧ decode .hardware [0x0102, 0x00] = .error .invalidOperandCount ∧
      decode .hardware [1, 2, 0x0140, 5] = .error .notAByte ∧ decode .hardware [1, 2, 0x40] = .error .endOfStream ∧
      decode .hardware [7] = .error .endOfStream := ⟨rfl, rfl, rfl, rfl, rfl, rfl, rfl⟩

/-! ### Small states -/

/-- A register file at 0x0100 with every other register 0. -/
def p100 : RegFile := { RegFile.zero with pc := 0x100 }

/-- Memory with the given cells. -/
def cells (l : List (Nat × Nat)) : Memory := l.foldl (fun m e => m.write e.1 e.2) []

/-- Process 0 current and privileged, the code at its `pc`, then the data. -/
def kernel (rf : RegFile) (code : List Nat) (data : List (Nat × Nat)) : State :=
  { State.reset with proc := [(0, rf)], mem := placeCells 65536 (cells data) rf.pc code }

/-- Process 3 current in user mode, process 0 at 0x0040. -/
def user (rf : RegFile) (code : List Nat) (data : List (Nat × Nat)) : State :=
  { kernel rf code data with
    proc := [(0, { RegFile.zero with pc := 0x40 }), (3, rf)], cur := 3, priv := false }

/-- The same under `Threshold` with `KERNEL_THRESHOLD = 0x1000` (V8). -/
def guarded (rf : RegFile) (code : List Nat) (data : List (Nat × Nat)) : State :=
  { user rf code data with config := { Config.hardware with policy := .threshold 0x1000 } }

/-- A view of the state one step later. -/
def after {α : Type} (s : State) (view : State → α) : Option α := (nextState (step s)).map view

/-- What a trap shows: `CUR`, `PRIV`, `proc[0].A`, and whether process 3 is as it was. -/
def trapView (before : RegFile) (t : State) : Nat × Bool × Nat × Bool :=
  (t.cur, t.priv, (t.file 0).a, decide (t.file 3 = before))

/-- A wider machine: sums, stores and rotates are cut at 32 bits and no lower. -/
theorem test_wide_steps :
    let s (rf : RegFile) (code : List Nat) : State := { kernel rf code [] with config := wide }
    after (s { p100 with a := 0xFFFFFFFF } [1, 0x15, 0x40, 2]) (fun t => t.reg .a) = some 1 ∧
      after (s { p100 with a := 0xFFFF } [0, 0x10]) (fun t => t.reg .a) = some 0x10000 ∧
      after (s { p100 with a := 0x80000001 } [0, 0x1F]) (fun t => t.reg .a) = some 3 ∧
      after (s { p100 with a := 0x55 } [0, 0x32]) (fun t => (t.reg .sp, t.cell 0)) =
        some (0xFFFFFFFF, 0x55) ∧
      after (s { p100 with a := 1 } [1, 0x18, 0x40, 0]) (fun t => t.reg .a) = some 1 := by decide

/-! ### One step of each instruction -/

theorem test_v1_01 :
    after (kernel p100 [0x01, 0x02, 0x7F, 0xFF] [])
      (fun t => (t.reg .a, t.pc)) = some (0x3FFF, 0x104) := by decide

theorem test_v1_06 :
    after (kernel p100 [0x01, 0x02, 0xC0, 0x06] [])
      (fun t => (t.reg .a, t.pc)) = some (0x106, 0x104) := by decide

theorem test_v1_08 :
    after (kernel p100 [0x01, 0x03, 0x80, 0x10] [(0x10, 0x1234)])
      (fun t => (t.reg .x, t.pc)) = some (0x1234, 0x104) := by decide

theorem test_v1_09 :
    after (kernel { p100 with a := 9 } [0x01, 0x04, 0x00, 0x00] [])
      (fun t => (t.reg .y, t.pc)) = some (9, 0x104) := by decide

theorem test_v1_12 :
    after (kernel { p100 with a := 0x41 } [0x01, 0x05, 0xC0, 0x02] [])
      (fun t => (t.cell 0x102, t.pc)) = some (0x41, 0x104) := by decide

theorem test_v1_11 :
    after (kernel { p100 with a := 0x200 } [0x01, 0x05, 0x00, 0x09] [])
      (fun t => (t.reg .sp, t.pc)) = some (0x200, 0x104) := by decide

theorem test_v1_14 :
    after (kernel { p100 with x := 3 } [0x01, 0x06, 0x00, 0x07] [])
      (fun t => (t.reg .y, t.pc)) = some (3, 0x104) := by decide

theorem test_v1_15 :
    after (user { p100 with y := 5 } [0x01, 0x07, 0x40, 0x01] [])
      (fun t => (trapView { p100 with y := 5 } t, t.extents 3)) = some ((0, true, 1, true), [⟨0x100, 0x104⟩]) := by decide

theorem test_v1_18 :
    after (kernel { p100 with a := 0xBEEF } [0x00, 0x08] [])
      (fun t => (t.reg .x, t.pc)) = some (0xBEEF, 0x102) := by decide

theorem test_v1_19 :
    after (kernel { p100 with a := 1 } [0x00, 0x09] [])
      (fun t => (t.reg .y, t.pc)) = some (1, 0x102) := by decide

theorem test_v1_20 :
    after (kernel { p100 with sp := 0x1FF } [0x00, 0x0A] [])
      (fun t => (t.reg .x, t.pc)) = some (0x1FF, 0x102) := by decide

theorem test_v1_21 :
    after (kernel { p100 with x := 7 } [0x00, 0x0B] [])
      (fun t => (t.reg .a, t.pc)) = some (7, 0x102) := by decide

theorem test_v1_22 :
    after (kernel { p100 with x := 0x200 } [0x00, 0x0C] [])
      (fun t => (t.reg .sp, t.pc)) = some (0x200, 0x102) := by decide

theorem test_v1_23 :
    after (kernel { p100 with y := 0x8000 } [0x00, 0x0D] [])
      (fun t => (t.reg .a, t.pc)) = some (0x8000, 0x102) := by decide

theorem test_v2_01 :
    after (kernel p100 [0x01, 0x0E, 0x80, 0x40] [(0x40, 0xFFFF)])
      (fun t => (t.cell 0x40, t.mem.length, t.pc)) = some (0, 4, 0x104) := by decide

theorem test_v2_04 :
    after (kernel p100 [0x01, 0x0F, 0x00, 0x09] [])
      (fun t => (t.reg .sp, t.pc)) = some (0xFFFF, 0x104) := by decide

theorem test_v2_06 :
    after (kernel { p100 with a := 0xFFFF } [0x00, 0x10] [])
      (fun t => (t.reg .a, t.flags, t.pc)) = some (0, 0, 0x102) := by decide

theorem test_v2_07 :
    after (kernel { p100 with x := 9 } [0x00, 0x11] [])
      (fun t => (t.reg .x, t.pc)) = some (0xA, 0x102) := by decide

theorem test_v2_08 :
    after (kernel { p100 with y := 0xFFFF } [0x00, 0x12] [])
      (fun t => (t.reg .y, t.pc)) = some (0, 0x102) := by decide

theorem test_v2_09 :
    after (kernel p100 [0x00, 0x13] [])
      (fun t => (t.reg .x, t.pc)) = some (0xFFFF, 0x102) := by decide

theorem test_v2_10 :
    after (kernel { p100 with y := 1 } [0x00, 0x14] [])
      (fun t => (t.reg .y, t.flags, t.pc)) = some (0, 0, 0x102) := by decide

theorem test_v2_11 :
    after (kernel { p100 with a := 5, f := 1 } [0x01, 0x15, 0x40, 0x03] [])
      (fun t => (t.reg .a, t.flags)) = some (8, 1) := by decide

theorem test_v2_12 :
    after (kernel { p100 with a := 0xFFFF } [0x01, 0x15, 0x80, 0x10] [(0x10, 2)])
      (fun t => t.reg .a) = some 1 := by decide

theorem test_v2_14 :
    after (kernel { p100 with a := 5 } [0x01, 0x16, 0x40, 0x07] [])
      (fun t => t.reg .a) = some 0xFFFE := by decide

theorem test_v2_17 :
    after (kernel { p100 with a := 0xFFFF } [0x01, 0x17, 0x80, 0x10] [(0x10, 0xFFFF)])
      (fun t => t.reg .a) = some 1 := by decide

theorem test_v2_19 :
    after (kernel { p100 with a := 0xFFFF } [0x01, 0x18, 0x80, 0x10] [(0x10, 2)])
      (fun t => t.reg .a) = some 0x7FFF := by decide

theorem test_v2_20 :
    after (kernel p100 [0x01, 0x18, 0x00, 0x00] [])
      (fun t => (t.reg .a, t.pc, t.priv)) = some (5, 0x100, true) := by decide

theorem test_v2_21 :
    after (kernel { p100 with a := 17 } [0x01, 0x19, 0x40, 0x05] [])
      (fun t => t.reg .a) = some 2 := by decide

theorem test_v2_23 :
    after (user { p100 with a := 17 } [0x01, 0x19, 0x40, 0x00] [])
      (fun t => trapView { p100 with a := 17 } t) = some (0, true, 5, true) := by decide

theorem test_v2_24 :
    after (kernel { p100 with a := 0x1234 } [0x01, 0x1A, 0x40, 0x0F] [])
      (fun t => t.reg .a) = some 4 := by decide

theorem test_v2_25 :
    after (kernel { p100 with a := 1 } [0x01, 0x1B, 0x41, 0x00] [])
      (fun t => t.reg .a) = some 0x101 := by decide

theorem test_v2_26 :
    after (kernel { p100 with a := 0x0F0F } [0x01, 0x1C, 0x40, 0xFF] [])
      (fun t => t.reg .a) = some 0x0FF0 := by decide

theorem test_v3_shl :
    [0x8001, 0x0001, 0x8000, 0x0000].map (fun v : Nat =>
      after (kernel { p100 with a := v, f := 1 } [0, 0x1D] []) (fun t => (t.reg .a, t.flags, t.pc))) =
    [2, 2, 0, 0].map (fun v : Nat => some (v, 1, 0x102)) := by decide

theorem test_v3_lsr :
    [0x8001, 0x0001, 0x8000, 0x0000].map (fun v : Nat =>
      after (kernel { p100 with a := v, f := 1 } [0, 0x1E] []) (fun t => (t.reg .a, t.flags, t.pc))) =
    [0x4000, 0, 0x4000, 0].map (fun v : Nat => some (v, 1, 0x102)) := by decide

theorem test_v3_rol :
    [0x8001, 0x0001, 0x8000, 0x0000].map (fun v : Nat =>
      after (kernel { p100 with a := v, f := 1 } [0, 0x1F] []) (fun t => (t.reg .a, t.flags, t.pc))) =
    [3, 2, 1, 0].map (fun v : Nat => some (v, 1, 0x102)) := by decide

theorem test_v3_ror :
    [0x8001, 0x0001, 0x8000, 0x0000].map (fun v : Nat =>
      after (kernel { p100 with a := v, f := 1 } [0, 0x20] []) (fun t => (t.reg .a, t.flags, t.pc))) =
    [0xC000, 0x8000, 0x4000, 0].map (fun v : Nat => some (v, 1, 0x102)) := by decide

theorem test_v3_1 :
    after (kernel { p100 with a := 0xEF, f := 0x81 } [0x01, 0x21, 0x40, 0x10] [])
      (fun t => (t.flags, t.reg .a, t.pc)) = some (0x83, 0xEF, 0x104) := by decide

theorem test_v3_3 :
    after (kernel { p100 with a := 0x8000, f := 0xCB } [0x01, 0x21, 0x80, 0x10] [(0x10, 0x8000)])
      (fun t => t.flags) = some 0xC9 := by decide

theorem test_v4_01 :
    after (kernel p100 [0x01, 0x22, 0x81, 0x20] [])
      (fun t => t.pc) = some 0x120 := by decide

theorem test_v4_07 :
    after (kernel { p100 with pc := 0xFFF0 } [0x01, 0x22, 0xFF, 0xFF] [])
      (fun t => t.pc) = some 0x3FEF := by decide

theorem test_v4_09 :
    after (kernel { p100 with sp := 0x300 } [0x01, 0x23, 0x00, 0x09] [])
      (fun t => (t.cell 0x300, t.reg .sp, t.pc)) = some (0x104, 0x2FF, 0x300) := by decide

theorem test_v4_11 :
    after (kernel { p100 with sp := 0x200 } [0x02, 0x23, 0x81, 0x20, 0x00, 0x00] [])
      (fun t => (t.cell 0x200, t.reg .sp, t.pc)) = some (0x106, 0x1FF, 0x120) := by decide

theorem test_v4_12 :
    after (kernel { p100 with sp := 0xFFFF } [0x00, 0x24] [(0, 0x1234)])
      (fun t => (t.reg .sp, t.pc)) = some (0, 0x1234) := by decide

theorem test_v4_bcc :
    [0x00, 0x01].map (fun f : Byte =>
      after (kernel { p100 with f := f } [1, 0x25, 0x82, 0x00] []) (fun t => (t.pc, t.flags))) =
    [some (0x200, 0x00), some (0x104, 0x01)] := by decide

theorem test_v4_bcs :
    [0x01, 0x00].map (fun f : Byte =>
      after (kernel { p100 with f := f } [1, 0x26, 0x82, 0x00] []) (fun t => (t.pc, t.flags))) =
    [some (0x200, 0x01), some (0x104, 0x00)] := by decide

theorem test_v4_beq :
    [0x02, 0x00].map (fun f : Byte =>
      after (kernel { p100 with f := f } [1, 0x27, 0x82, 0x00] []) (fun t => (t.pc, t.flags))) =
    [some (0x200, 0x02), some (0x104, 0x00)] := by decide

theorem test_v4_bne :
    [0x00, 0x02].map (fun f : Byte =>
      after (kernel { p100 with f := f } [1, 0x28, 0x82, 0x00] []) (fun t => (t.pc, t.flags))) =
    [some (0x200, 0x00), some (0x104, 0x02)] := by decide

theorem test_v4_bmi :
    [0x80, 0x00].map (fun f : Byte =>
      after (kernel { p100 with f := f } [1, 0x29, 0x82, 0x00] []) (fun t => (t.pc, t.flags))) =
    [some (0x200, 0x80), some (0x104, 0x00)] := by decide

theorem test_v4_bpl :
    [0x00, 0x80].map (fun f : Byte =>
      after (kernel { p100 with f := f } [1, 0x2A, 0x82, 0x00] []) (fun t => (t.pc, t.flags))) =
    [some (0x200, 0x00), some (0x104, 0x80)] := by decide

theorem test_v4_bvc :
    [0x00, 0x40].map (fun f : Byte =>
      after (kernel { p100 with f := f } [1, 0x2B, 0x82, 0x00] []) (fun t => (t.pc, t.flags))) =
    [some (0x200, 0x00), some (0x104, 0x40)] := by decide

theorem test_v4_bvs :
    [0x40, 0x00].map (fun f : Byte =>
      after (kernel { p100 with f := f } [1, 0x2C, 0x82, 0x00] []) (fun t => (t.pc, t.flags))) =
    [some (0x200, 0x40), some (0x104, 0x00)] := by decide

theorem test_v4_14 :
    after (user p100 [0x00, 0x27] [])
      (fun t => trapView p100 t) = some (0, true, 4, true) := by decide

theorem test_v5_01 :
    after (kernel { p100 with f := 0x82 } [0x00, 0x2D] [])
      (fun t => t.flags) = some 0x83 := by decide

theorem test_v5_03 :
    after (kernel { p100 with f := 0x83 } [0x00, 0x2E] [])
      (fun t => t.flags) = some 0x82 := by decide

theorem test_v5_04 :
    after (kernel p100 [0x00, 0x2F] [])
      (fun t => t.flags) = some 0x08 := by decide

theorem test_v5_05 :
    after (kernel { p100 with f := 0x09 } [0x00, 0x30] [])
      (fun t => t.flags) = some 0x01 := by decide

theorem test_v5_06 :
    after (kernel { p100 with f := 0xC1 } [0x00, 0x31] [])
      (fun t => t.flags) = some 0x81 := by decide

theorem test_v5_07 :
    after (kernel { p100 with a := 0x55 } [0x00, 0x32] [])
      (fun t => (t.cell 0, t.reg .sp, t.pc)) = some (0x55, 0xFFFF, 0x102) := by decide

theorem test_v5_08 :
    after (kernel { p100 with f := 0x83, sp := 0x200 } [0x00, 0x33] [])
      (fun t => (t.cell 0x200, t.reg .sp)) = some (0x83, 0x1FF) := by decide

theorem test_v5_09 :
    after (kernel { p100 with sp := 0x1FF, f := 2 } [0x00, 0x34] [(0x200, 0x1234)])
      (fun t => (t.reg .a, t.reg .sp, t.flags)) = some (0x1234, 0x200, 2) := by decide

theorem test_v5_11 :
    after (kernel { p100 with sp := 0x1FF } [0x00, 0x35] [(0x200, 0x00FF)])
      (fun t => (t.flags, t.reg .sp)) = some (0xCB, 0x200) := by decide

theorem test_v5_13 :
    after (kernel { p100 with sp := 0x1FF, f := 0xCB } [0x00, 0x35] [(0x200, 0x0034)])
      (fun t => t.flags) = some 0 := by decide

theorem test_v5_14 :
    after (kernel { p100 with a := 1 } [0x01, 0x36, 0x80, 0x40] [(0x40, 0xFFFF)])
      (fun t => t.flags) = some 0x80 := by decide

theorem test_v5_15 :
    after (kernel { p100 with a := 0x77 } [0x01, 0x36, 0x00, 0x00] [])
      (fun t => t.flags) = some 0x03 := by decide

theorem test_v5_17 :
    after (kernel { p100 with x := 2 } [0x01, 0x37, 0x40, 0x00] [])
      (fun t => t.flags) = some 0x01 := by decide

theorem test_v5_18 :
    after (kernel { p100 with y := 1 } [0x01, 0x38, 0x80, 0x40] [(0x40, 0xFFFF)])
      (fun t => t.flags) = some 0x80 := by decide

theorem test_v6_01 :
    after (kernel p100 [0x03, 0x00, 0x00, 0x00, 0x00, 0x00, 0x00, 0x00] [])
      (fun t => t.pc) = some 0x108 := by decide

theorem test_v6_02 :
    after (user { p100 with a := 0x99 } [0x00, 0x01] [])
      (fun t => (trapView { p100 with a := 0x99 } t, t.extents 3)) = some ((0, true, 0, true), [⟨0x100, 0x102⟩]) := by decide

theorem test_v6_04 :
    after (user { p100 with a := 0x42 } [0x00, 0x39] [])
      (fun t => trapView { p100 with a := 0x42 } t) = some (0, true, 0x42, true) := by decide

theorem test_v6_06 :
    after (kernel { p100 with sp := 0x1FF, f := 3 } [0x00, 0x3A] [(0x200, 0x106)])
      (fun t => (t.reg .sp, t.pc, t.cur, t.priv, t.flags)) = some (0x200, 0x106, 0, true, 3) := by decide

theorem test_v6_07 :
    after (kernel p100 [0x00, 0x3B] [])
      (fun t => (t.priv, t.pc)) = some (false, 0x102) := by decide

theorem test_v6_08 :
    after (user p100 [0x00, 0x3C] [])
      (fun t => (t.priv, t.cur, t.pc)) = some (true, 3, 0x102) := by decide

theorem test_v6_09 :
    after (user { p100 with a := 7 } [0x00, 0x3D] [])
      (fun t => ((t.exits, t.run), t.hasProc 3, t.extents 3, t.cur, t.priv)) = some (([⟨3, 7⟩], .halted), false, [], 0, false) := by decide

theorem test_v6_11 :
    after (kernel { p100 with pc := 0xFFFE } [0x00, 0x3D] [])
      (fun t => (t.exits, t.pc, t.run)) = some ([⟨0, 0⟩], 0, .halted) := by decide

theorem test_v6_12 :
    after { kernel { p100 with a := 0xFFFF } [0, 0x3E] [] with inq := [0x41, 0x42] }
      (fun t => (t.reg .a, t.inq, t.pc)) = some (0x41, [0x42], 0x102) := by decide

theorem test_v6_13 :
    after (user p100 [0, 0x3E] []) (fun t => decide (t = user p100 [0, 0x3E] [])) = some true := by decide

theorem test_v6_14 :
    after (kernel { p100 with a := 0x1241 } [0x00, 0x3F] [])
      (fun t => (t.outq, t.pc)) = some ([0x41], 0x102) := by decide

/-! ### Fetch, protection, host operations -/

theorem test_v7_02 :
    after (user p100 [0xC8, 0xC8] [])
      (fun t => (trapView p100 t, t.extents 3)) = some ((0, true, 4, true), [⟨0x100, 0x102⟩]) := by decide

theorem test_v7_03 :
    after (user p100 [0x00, 0x40] [])
      (fun t => trapView p100 t) = some (0, true, 1, true) := by decide

theorem test_v7_06 :
    after (user p100 [0x03, 0x00, 0x00, 0x00, 0x100, 0x00, 0x00, 0x00] [])
      (fun t => (trapView p100 t, t.extents 3)) = some ((0, true, 1, true), [⟨0x100, 0x106⟩]) := by decide

theorem test_v7_08 :
    after (kernel { p100 with pc := 0xFFFC } [0x01, 0x02, 0x40, 0x05] [])
      (fun t => (t.reg .a, t.pc, t.run)) = some (5, 0, .fatal .endOfMemory) := by decide

theorem test_v7_09 :
    after (kernel { p100 with pc := 0xFFFF } [] [])
      (fun t => (t.pc, t.run)) = some (0xFFFF, .fatal .endOfMemory) := by decide

theorem test_v7_10 :
    after (kernel { p100 with pc := 0xFFFD } [0x01, 0x02, 0x40] [])
      (fun t => (t.reg .a, t.pc, t.run)) = some (0, 0xFFFD, .fatal .endOfMemory) := by decide

theorem test_v8_1 :
    after (guarded { p100 with pc := 0x2000, a := 7 } [0x01, 0x02, 0x80, 0x10] [])
      (fun t => (trapView { p100 with pc := 0x2000, a := 7 } t, t.extents 3)) = some ((0, true, 2, true), []) := by decide

theorem test_v8_2 :
    after (guarded { p100 with pc := 0x2000 } [1, 2, 0x90, 0] [(0x1000, 0xAA)])
      (fun t => (t.reg .a, t.pc)) = some (0xAA, 0x2004) := by decide

theorem test_v8_8 :
    after (guarded p100 [0x00, 0x00] [])
      (fun t => trapView p100 t) = some (0, true, 2, true) := by decide

theorem test_v9_1 :
    after (user p100 [0x01, 0x0E, 0x81, 0x04] [])
      (fun t => (t.cell 0x104, t.pc, t.extents 3)) = some (1, 0x104, [⟨0x100, 0x105⟩]) := by decide

/-- S10: the allocation merge, then `release(1)`. -/
theorem test_s10 :
    let s := (((((State.reset.allocate 1 0x100 0x10).allocate 1 0x100 0x10).allocate 1 0x110 0x10).allocate
      1 0x130 0x10).allocate 2 0x100 8)
    s.extents 1 = [⟨0x100, 0x120⟩, ⟨0x130, 0x140⟩] ∧
      ((s.allocate 1 0x120 0x10).allocate 1 0x138 0x10).extents 1 = [⟨0x100, 0x148⟩] ∧
      (s.release 1).extents 1 = [] ∧ (s.release 1).extents 2 = [⟨0x100, 0x108⟩] ∧
      hostAllocate 1 0x200 0 s = .refused := by decide

/-- V9.3, V9.6, V9.7: Switch and Evict of an absent process trap, process 0 is neither evicted nor new. -/
theorem test_v9_3 :
    hostSwitch 5 State.reset = .done (trapEntry .invalidProcessId State.reset) ∧
      ((trapEntry .invalidProcessId State.reset).file 0).a = 3 ∧
      hostEvict 0 State.reset = .refused ∧ hostAdmit 0 State.reset = .refused ∧
      hostEvict 7 State.reset = .done (trapEntry .invalidProcessId State.reset) := by decide

/-- V9.4, V9.5: Admit, Switch, Evict of process 1. -/
theorem test_v9_4 :
    let s := hostRun [.admitProc 1, .switchProc 1] State.reset
    (s.file 1, s.cur, s.priv) = (RegFile.zero, 1, true) ∧
      hostRun [.evictProc 1] s = { State.reset with run := .halted } := by decide

/-- V9.8: the image that fits exactly, and then V7.8. -/
theorem test_v9_8 :
    let s := hostRun [.load [0, 0, 1, 2, 0x40, 5] 0xFFFA] State.reset
    (s.pc, (s.file 0).ds, s.cell 0xFFFD, s.owned) = (0xFFFC, 0xFFFA, 2, []) ∧
      after s (fun t => (t.reg .a, t.pc, t.run)) = some (5, 0, .fatal .endOfMemory) := by decide

/-- V9.9: the image that does not fit. -/
theorem test_v9_9 :
    hostLoad [0, 0, 1, 2, 0x40, 5] 0xFFFB State.reset =
      .done { State.reset with run := .fatal .imageTooLarge } := by decide

/-- The word of `LDA #5` placed where the first step after reset fetches, and run. -/
theorem test_withFetchWord :
    after (State.reset.withFetchWord 32 0x40050102) (fun t => (t.reg .a, t.pc)) = some (5, 4) := by decide

/-! ### Witnesses: the hypotheses of each statement met together -/

/-- `JSR @0x120` in user mode, `SP` at 0x0300. -/
def w : State := user { p100 with a := 7, x := 9, sp := 0x300 } [1, 0x23, 0x81, 0x20] [(0x301, 0x55)]

/-- Absolute 0x10, a cell that a threshold of 0x1000 denies, and the cell at the threshold. -/
def low : Operand := ⟨.absolute, 0x10⟩
def edge : Operand := ⟨.absolute, 0x1000⟩

/-- The guarded machine with `SP` below the threshold. -/
def g : State := guarded { p100 with pc := 0x2000, sp := 0xFFF } [] []

theorem test_witness_DecodeEncodeRoundTrip :
    (Config.hardware.wellFormed = true ∧ wide.wellFormed = true) ∧
      (Instr.lda (List.replicate 10 ⟨.relative, 16383⟩)).wellFormed .hardware = true ∧
      (Instr.out []).wellFormed wide = true := by decide

theorem test_witness_EncodeDecodeRoundTrip :
    Config.hardware.wellFormed = true ∧
      decode .hardware [1, 2, 0xFF, 0xFF, 9] = .ok (.lda [⟨.relative, 16383⟩], [9]) := ⟨by decide, rfl⟩

/-- Each refusal at the boundary of its condition, and a count below the arity, which is none. -/
theorem test_witness_DecodeRejectsByName :
    Config.hardware.wellFormed = true ∧ decode .hardware [] = .error .endOfStream ∧
      decode .hardware [0] = .error .endOfStream ∧
      decode .hardware [11, 63] = .error .invalidOperandCount ∧
      decode .hardware [0, 64] = .error .noMapping ∧ decode .hardware [0, 63] = .ok (.out [], []) ∧
      decode .hardware [1, 2, 256] = .error .endOfStream ∧
      decode .hardware [1, 2, 0, 256] = .error .notAByte ∧
      decode .hardware [1, 2, 0, 255] = .ok (.lda [⟨.register, 255⟩], []) ∧
      decode .hardware [0, 2] = .ok (.lda [], []) :=
  ⟨by decide, rfl, rfl, rfl, rfl, rfl, rfl, rfl, rfl, rfl⟩

theorem test_witness_StepRunsTheDecodedInstruction :
    w.run = .running ∧ (∃ rest, decode w.config w.stream = .ok (.jsr [⟨.absolute, 0x120⟩], rest)) ∧
      w.permitsAll (fetchCells w.pc (Instr.jsr [⟨.absolute, 0x120⟩]).length) = true ∧
      awaitsInput (.jsr [⟨.absolute, 0x120⟩]) w = false := ⟨rfl, ⟨_, rfl⟩, by decide, rfl⟩

theorem test_witness_InputWaitChangesNothing :
    let s := user p100 [0, 0x3E] []
    s.run = .running ∧ (∃ rest, decode s.config s.stream = .ok (.inp [], rest)) ∧
      s.permitsAll (fetchCells s.pc (2 + 2 * ([] : List Operand).length)) = true ∧ s.inq = [] :=
  ⟨rfl, ⟨_, rfl⟩, by decide, rfl⟩

theorem test_witness_StoppedEngineTakesNoStep :
    ({ w with run := .halted } : State).run = .halted ∧
      ({ w with run := .fatal .imageTooLarge } : State).run = .fatal .imageTooLarge := by decide

theorem test_witness_HeaderChecksTrap :
    let s := user p100 [11, 0] []
    let u := user p100 [10, 64] []
    (s.config.wellFormed = true ∧ s.run = .running ∧ s.pc + 1 < s.config.memSize ∧
      s.permitsAll [s.pc, s.pc + 1] = true ∧ 10 < s.cell s.pc) ∧
    (u.config.wellFormed = true ∧ u.run = .running ∧ u.pc + 1 < u.config.memSize ∧
      u.permitsAll [u.pc, u.pc + 1] = true ∧ u.cell u.pc ≤ 10 ∧ 63 < u.cell (u.pc + 1)) := by decide

/-- The second pair is the bad one, once by its first cell and once by its second. -/
theorem test_witness_OperandCellsMustBeBytes :
    ∀ bad ∈ [[0x100, 0], [255, 0x100]],
    let s := user p100 ([2, 63, 255, 255] ++ bad) []
    s.config.wellFormed = true ∧ s.run = .running ∧ s.cell s.pc ≤ 10 ∧ s.cell (s.pc + 1) ≤ 63 ∧
      1 < s.cell s.pc ∧ s.pc + 2 + 2 * s.cell s.pc ≤ s.config.memSize ∧
      s.permitsAll (fetchCells s.pc (4 + 2 * 1)) = true ∧
      (∀ j, j < 2 * 1 → s.cell (s.pc + 2 + j) ≤ 255) ∧
      (255 < s.cell (s.pc + 2 + 2 * 1) ∨ 255 < s.cell (s.pc + 3 + 2 * 1)) := by decide

theorem test_witness_FetchStopsAtEndOfMemory :
    let s := user { p100 with pc := 0xFFFF } [] []
    let u := user { p100 with pc := 0xFFFD } [1, 2, 0x40] []
    (s.config.wellFormed = true ∧ s.run = .running ∧ s.config.memSize ≤ s.pc + 1) ∧
    (u.config.wellFormed = true ∧ u.run = .running ∧ u.pc + 1 < u.config.memSize ∧
      u.permitsAll [u.pc, u.pc + 1] = true ∧ u.cell u.pc ≤ 10 ∧ u.cell (u.pc + 1) ≤ 63 ∧
      u.config.memSize < u.pc + 2 + 2 * u.cell u.pc) := by decide

theorem test_witness_DeniedFetchTraps :
    let s := guarded { p100 with pc := 0xFFF } [] []
    s.run = .running ∧ s.pc + 1 < s.config.memSize ∧ s.permits s.pc = false := by decide

theorem test_witness_AccessCheckFollowsThePolicy :
    State.reset.priv = true ∧ (w.priv = false ∧ w.config.policy = .lazyGrow) ∧
      (g.priv = false ∧ g.config.policy = .threshold 0x1000) ∧
      g.check 0xFFF = none ∧ g.check 0x1000 = some g := by decide

theorem test_witness_DeniedAccessesTrap :
    g.permitsAll (sourceCells low) = false ∧
      (resolveTarget low g = some (.cell 0x10) ∧ g.permits 0x10 = false) ∧
      g.permits (g.reg .sp) = false ∧
      (let u := guarded { p100 with pc := 0x2000, sp := 0xFFE } [] []
       u.permits (popCell u) = false) := by decide

theorem test_witness_ExtentsDetermineTheSet :
    ExtentsWf 65536 [⟨0, 4⟩, ⟨5, 65536⟩] ∧
      ∀ a, covers [⟨0, 4⟩, ⟨5, 65536⟩] a = covers [⟨0, 4⟩, ⟨5, 65536⟩] a := ⟨by decide, fun _ => rfl⟩

/-- A range up to the last cell, one past it, and the two refusals of the host operation. -/
theorem test_witness_AllocateMergesRanges :
    let s := State.reset.allocate 1 0x100 4
    (ExtentsWf s.config.memSize (s.extents 1) ∧ 65533 + 1 + 2 ≤ s.config.memSize) ∧ s.isFatal = false ∧
      s.config.memSize < 65535 + 2 ∧ 65535 + 1 ≤ s.config.memSize ∧
      hostAllocate 1 65535 2 s = .refused ∧ hostAllocate 9 0 0 s = .refused ∧
      hostAllocate 9 65535 1 s = .done (s.allocate 9 65535 1) := by decide

theorem test_witness_StepKeepsWellFormed : w.wf ∧ ∃ t, step w = .next t := ⟨by decide, _, rfl⟩

theorem test_witness_HostOperationsKeepWellFormed : w.wf ∧ g.wf := by decide

theorem test_witness_FlagWritersAreClosed :
    (∃ t, exec (.nop []) w = .next t ∧ t.hasProc 3 = true) ∧ NoneOf flagWriters (.nop []) :=
  ⟨⟨_, rfl, by decide⟩, by unfold NoneOf; decide⟩

theorem test_witness_OverflowIsSetOnlyByPlp :
    ∃ t, exec (.plp []) w = .next t ∧ t.hasProc 3 = true ∧ (t.file 3).f &&& 0x40 ≠ 0 ∧
      (w.file 3).f &&& 0x40 = 0 := ⟨_, rfl, by decide, by decide, by decide⟩

theorem test_witness_OnlyStoresWriteMemory :
    (∃ t, exec (.lda [low]) w = .next t) ∧ NoneOf cellWriters (.lda [low]) :=
  ⟨⟨_, rfl⟩, by unfold NoneOf; decide⟩

theorem test_witness_DataPointerIsNeverWritten :
    ∃ t, step w = .next t ∧ t.hasProc 3 = true := ⟨_, rfl, by decide⟩

theorem test_witness_OtherProcessesAreUntouched :
    (∃ t, step w = .next t) ∧ w.cur ≠ 0 ∧ 5 ≠ w.cur ∧ 5 ≠ 0 := ⟨⟨_, rfl⟩, by decide⟩

/-- An absent process; process 0 while process 3 runs an instruction that does not trap; and one that does. -/
theorem test_witness_OtherRegistersAreNotRead :
    (5 ≠ w.cur ∧ ∃ t, exec (.int []) w = .next t) ∧
      (0 ≠ w.cur ∧ ∃ t, exec (.nop []) w = .next t ∧ tableFind t.proc 0 = tableFind w.proc 0) ∧
      ∃ t, exec (.int []) w = .next t ∧ t = trapEntry (.software 7) (w.touchAll []) :=
  ⟨⟨by decide, _, rfl⟩, ⟨by decide, _, rfl, by decide⟩, _, rfl, by decide⟩

/-- CLP leaves privileged mode, SWT enters it, SYSCALL and a host operation enter it by trap entry. -/
theorem test_witness_PrivilegeTransitionsAreClosed :
    after (kernel p100 [0, 0x3B] []) (fun t => t.priv) = some false ∧
      after (user p100 [0, 0x3C] []) (fun t => t.priv) = some true ∧
      after (user p100 [0, 0x01] []) (fun t => t.priv) = some true ∧
      ((hostPerform (.switchProc 9) w).after w = trapEntry .invalidProcessId w) ∧ w.priv = false := by decide

theorem test_witness_PrivilegeGatesOnlyTheCheck :
    w.config.policy = .lazyGrow ∧ (∃ t, exec (.sta [low]) { w with priv := true } = .next t) ∧
      ∃ u, exec (.sta [low]) { w with priv := false } = .next u := ⟨rfl, ⟨_, rfl⟩, _, rfl⟩

theorem test_witness_OwnershipGrowsOnlyForTheCurrentProcess :
    (∃ t, step w = .next t) ∧ 5 ≠ w.cur ∧ (w.allocate 3 0x100 4).owns 3 0x103 = true ∧
      State.reset.priv = true := ⟨⟨_, rfl⟩, by decide⟩

/-- The hypotheses that statements on a source operand share: a row, and the read permitted. -/
theorem test_witness_source_operand :
    (Instr.lda, Reg.a) ∈ loads ∧ (Instr.cmp, Reg.a) ∈ compares ∧ w.permitsAll (sourceCells low) = true ∧
      g.permitsAll (sourceCells edge) = true ∧ g.permitsAll (sourceCells ⟨.register, 16383⟩) = true :=
  ⟨.head _, .head _, by decide⟩

theorem test_witness_LoadsReadTheirOperand :
    (Instr.ldy, Reg.y) ∈ loads ∧ g.permitsAll (sourceCells edge) = true :=
  ⟨.tail _ (.tail _ (.head _)), by decide⟩

theorem test_witness_StoresWriteTheirCell :
    (Instr.sta, Reg.a) ∈ stores ∧ (resolveTarget edge g = some (.cell 0x1000) ∧ g.permits 0x1000 = true) ∧
      resolveTarget ⟨.relative, 2⟩ w = some (.cell 0x102) ∧ w.permits 0x102 = true :=
  ⟨.head _, by decide⟩

theorem test_witness_StoresCopyToARegister :
    (Instr.sta, Reg.a) ∈ stores ∧ w.config.wellFormed = true ∧
      (⟨.register, 0⟩ : Operand).value.toNat = Reg.a.index ∧
      (⟨.register, 9⟩ : Operand).value.toNat = Reg.sp.index := ⟨.head _, by decide⟩

theorem test_witness_InvalidDestinationsTrap :
    invalidDestination w.config ⟨.immediate, 0⟩ = true ∧
      invalidDestination w.config ⟨.register, 10⟩ = true ∧
      invalidDestination w.config ⟨.register, 9⟩ = false ∧
      invalidDestination w.config ⟨.relative, 10⟩ = false := by decide

theorem test_witness_MissingOperandsTrap : (Instr.bvs []).hasOperands = false := by decide

theorem test_witness_ExtraOperandsAreIgnored :
    Mnemonic.lda.make [low] = .lda [low] ∧ [low].length = [edge].length := ⟨rfl, rfl⟩

theorem test_witness_rows_without_other_hypotheses :
    (Instr.tax, Reg.a, Reg.x) ∈ transfers ∧ (Instr.ina, Reg.a, 1) ∈ namedSteppers ∧
      (Instr.bcc, 0x01, false) ∈ branches ∧ 0 < flagOps.length :=
  ⟨.head _, .head _, .head _, by decide⟩

theorem test_witness_ShiftsAndRotatesByOne : 0 < shifts.length ∧ w.wf := by decide

theorem test_witness_IncAndDecStepTheirDestination :
    (Instr.inc, 1) ∈ steppers ∧ resolveTarget edge g = some (.cell 0x1000) ∧ g.permits 0x1000 = true ∧
      g.config.wellFormed = true ∧ (⟨.register, 9⟩ : Operand).value.toNat = Reg.sp.index := ⟨.head _, by decide⟩

theorem test_witness_AccumulatorOperations :
    0 < accumulators.length ∧ g.permitsAll (sourceCells edge) = true := by decide

theorem test_witness_DivisionResults :
    0 < divisions.length ∧ w.permitsAll (sourceCells ⟨.absolute, 0x301⟩) = true ∧
      sourceValue ⟨.absolute, 0x301⟩ w ≠ 0 := by decide

theorem test_witness_DivisionByZeroTraps :
    w.permitsAll (sourceCells low) = true ∧ sourceValue low w = 0 := by decide

theorem test_witness_BitTestWritesZeroOnly : w.permitsAll (sourceCells low) = true := by decide

/-- The stack cell is permitted: for JSR and the pushes, and for JSR with RTS and a push with its pull. -/
theorem test_witness_CallPushesTheReturnAddress : w.permits (w.reg .sp) = true := by decide

theorem test_witness_ReturnsPopTheProgramCounter :
    w.permits (popCell w) = true ∧ g.permits (popCell g) = true := by decide

theorem test_witness_CallThenReturnComesBack : w.wf ∧ w.permits (w.reg .sp) = true := by decide

theorem test_witness_PushesStoreOneCell :
    0 < pushes.length ∧ w.permits (w.reg .sp) = true := by decide

theorem test_witness_PullsLoadOneCell : g.permits (popCell g) = true := by decide

theorem test_witness_PushThenPullRestores :
    (w.wf ∧ w.permits (w.reg .sp) = true) ∧
      (let u := user { p100 with a := 0xFFFF, f := 0xCB } [] []
       u.wf ∧ u.permits (u.reg .sp) = true) := by decide

theorem test_witness_ComparesSetFlagsFromScratch :
    (Instr.cpx, Reg.x) ∈ compares ∧ g.permitsAll (sourceCells edge) = true :=
  ⟨.tail _ (.head _), by decide⟩

theorem test_witness_HaltEndsTheProcess : w.cur ≠ 0 ∧ State.reset.cur = 0 := by decide

theorem test_witness_InputAndOutputMoveOneUnit :
    ({ w with inq := [0x41, 0x42] } : State).inq = 0x41 :: [0x42] := rfl

theorem test_witness_HostProcessOperations :
    (w.isFatal = false ∧ (w.hasProc 3 = true ∧ 3 ≠ 0 ∧ 3 = w.cur) ∧ w.hasProc 5 = false ∧
      ({ w with cur := 0 } : State).hasProc 3 = true ∧ 3 ≠ ({ w with cur := 0 } : State).cur) ∧
    (({ w with run := .fatal .endOfMemory } : State).isFatal = true ∧
      HostOp.admitProc 5 ≠ .reset ∧ ∀ units, HostOp.admitProc 5 ≠ .supply units) :=
  ⟨by decide, by decide, by decide, fun _ h => HostOp.noConfusion h⟩

/-- The clauses in order: one byte; one cell past the end; the last denied start under Threshold; the exact fit
in privileged mode; and user mode under LazyGrow. -/
theorem test_witness_LoaderPlacesTheImage :
    let image : List Byte := [0, 0, 1, 2, 0x40, 5]
    (State.reset.config.wellFormed = true ∧ State.reset.isFatal = false ∧ ([5] : List Byte).length < 2) ∧
      2 ≤ image.length ∧ State.reset.config.memSize < 0xFFFB + image.length ∧
      (g.config.wellFormed = true ∧ g.isFatal = false ∧ 0xFFF + image.length ≤ g.config.memSize ∧
        g.permitsAll (fetchCells 0xFFF image.length) = false ∧
        g.permitsAll (fetchCells 0x1000 image.length) = true) ∧
      (0xFFFA + image.length ≤ State.reset.config.memSize ∧
        State.reset.permitsAll (fetchCells 0xFFFA image.length) = true) ∧
      (w.config.wellFormed = true ∧ w.isFatal = false ∧
        w.permitsAll (fetchCells 0xFFFA image.length) = true ∧ w.records = true) := by decide

/-- Load in user mode: under LazyGrow the process comes to own the image (R252), under Threshold the load is
refused whole with cause 2 (D37), and an image of one byte is refused. -/
theorem test_load_user :
    let u := (hostLoad [0, 2, 7, 8] 0x200 w).after w
    (u.extents 3, u.cell 0x203, u.pc, (u.file 3).ds) = ([⟨0x200, 0x204⟩], 8, 0x202, 0x202) ∧
      hostLoad [0, 2, 7, 8] 0xFFD g = .done (trapEntry .memoryViolation g) ∧
      hostLoad [7] 0x200 w = .refused := by decide

end Sys2Proof.Tests
end

section
/-!
PROOF. The operand codec by its formulas (30_encoding.md R83, R84) and the decoding of an instruction with no
operand and with one (R92), from which the worked encodings of section 6 follow.
-/

open Sys2Proof Sys2Proof.Claims

namespace Sys2Proof

/-- The number the table gives a mode is the number its two bits write (R85). -/
theorem mem_modeNumbers_iff {m : Mode} {k : Nat} : (m, k) ∈ modeNumbers ↔ k = m.bits.toNat := by
  cases m <;> simp [modeNumbers, Mode.bits]

/-- `Mode.bits` undoes `decodeMode`: the four modes take up all four mode fields (R85). -/
@[simp] theorem Mode.bits_decodeMode (b : BitVec 2) : (decodeMode b).bits = b := by
  revert b; decide

/-- `byte1` of R83: the mode number above the high 6 bits of the masked value. -/
theorem encodePair_fst_toNat (m : Mode) (v : Nat) :
    (encodePair m v).1.toNat = (m.bits.toNat <<< 6) ||| ((v &&& 0x3FFF) >>> 8) := by
  have hmask : v &&& 0x3FFF = v % 2 ^ 14 := Nat.and_two_pow_sub_one_eq_mod v 14
  have hhigh : (v % 2 ^ 14) >>> 8 < 2 ^ 6 := by omega
  simp only [encodePair, BitVec.toNat_append, BitVec.extractLsb'_toNat, BitVec.toNat_ofNat, hmask,
    Nat.mod_eq_of_lt hhigh]

/-- `byte2` of R83: the low 8 bits of the masked value. -/
theorem encodePair_snd_toNat (m : Mode) (v : Nat) :
    (encodePair m v).2.toNat = (v &&& 0x3FFF) &&& 0xFF := by
  have hmask : v &&& 0x3FFF = v % 2 ^ 14 := Nat.and_two_pow_sub_one_eq_mod v 14
  have hlow : v % 2 ^ 14 &&& 0xFF = v % 2 ^ 14 % 2 ^ 8 := Nat.and_two_pow_sub_one_eq_mod _ 8
  simp only [encodePair, BitVec.extractLsb'_toNat, BitVec.toNat_ofNat, Nat.shiftRight_zero, hmask, hlow]

/-- The mode of R84 is the one numbered `byte1 >> 6`. -/
theorem decodeOperand_mode_toNat (b1 b2 : Byte) :
    (decodeOperand b1 b2).mode.bits.toNat = b1.toNat >>> 6 := by
  have hfield : b1.toNat >>> 6 < 2 ^ 2 := by omega
  simp only [decodeOperand, Mode.bits_decodeMode, BitVec.extractLsb'_toNat, Nat.mod_eq_of_lt hfield]

/-- The value of R84: the low 6 bits of `byte1` above `byte2`. -/
theorem decodeOperand_value_toNat (b1 b2 : Byte) :
    (decodeOperand b1 b2).value.toNat = ((b1.toNat &&& 0x3F) <<< 8) ||| b2.toNat := by
  have hlow : b1.toNat &&& 0x3F = b1.toNat % 2 ^ 6 := Nat.and_two_pow_sub_one_eq_mod _ 6
  simp only [decodeOperand, BitVec.toNat_append, BitVec.extractLsb'_toNat, Nat.shiftRight_zero, hlow]

/-- Cells that hold bytes pass the range check of an operand pair (R92 step 7). -/
@[simp] theorem decodePair_toNat (b1 b2 : Byte) :
    decodePair b1.toNat b2.toNat = .ok (decodeOperand b1 b2) := by
  have hbytes : ¬(255 < b1.toNat ∨ 255 < b2.toNat) := by omega
  rw [decodePair, if_neg hbytes, BitVec.ofNat_toNat, BitVec.ofNat_toNat, BitVec.setWidth_eq,
    BitVec.setWidth_eq]

section

variable {c : Config} (h : c.wellFormed = true) {k : Nat} {m : Mnemonic} (hk : c.opcodeMap[k]? = some m)

include h hk

/-- A header with a legal count and a number of the opcode map is accepted (R92 steps 4 and 5). -/
theorem decodeHeader_eq_ok {n : Nat} (hn : n ≤ 10) : decodeHeader c n k = .ok (n, m) := by
  have hcount : ¬c.maxOperands < n := by rw [Config.maxOperands_eq h]; omega
  rw [decodeHeader, if_neg hcount, hk]

/-- The header alone, with count 0, is the instruction without operands. -/
theorem decode_no_operands : decode c [0, k] = .ok (m.make [], []) := by
  simp [decode, decodeHeader_eq_ok h hk (Nat.zero_le 10), decodeOperands]

/-- A header with count 1 and two bytes is the instruction with the operand of these bytes. -/
theorem decode_one_operand (b1 b2 : Byte) :
    decode c [1, k, b1.toNat, b2.toNat] = .ok (m.make [decodeOperand b1 b2], []) := by
  simp [decode, decodeHeader_eq_ok h hk (by decide : 1 ≤ 10), decodeOperands]

end

/-- LDA with one operand on this hardware, the opcode 2 the document's own (R95). -/
theorem decode_hardware_lda (b1 b2 : Byte) :
    decode .hardware [1, 2, b1.toNat, b2.toNat] = .ok (.lda [decodeOperand b1 b2], []) :=
  decode_one_operand Config.hardware_wellFormed (m := .lda) rfl b1 b2

/-- Settles O5: the formulas of the codec, then the worked encodings, each a case of the decoding of LDA
with one operand or of an instruction without operands. -/
theorem workedEncodingsDecode : Obligations.WorkedEncodingsDecode := by
  unfold Obligations.WorkedEncodingsDecode
  refine ⟨?encode, ?decode, decode_hardware_lda 0x40 5, decode_hardware_lda 0 6,
    decode_hardware_lda 0x81 0x2C, decode_hardware_lda 0xFF 0xFF,
    decode_no_operands Config.hardware_wellFormed (m := .nop) rfl,
    decode_no_operands Config.hardware_wellFormed (m := .out) rfl⟩
  case encode =>
    rintro ⟨m, k⟩ hrow v
    obtain rfl := mem_modeNumbers_iff.mp hrow
    exact ⟨encodePair_fst_toNat m v, encodePair_snd_toNat m v⟩
  case decode =>
    intro b1 b2
    exact ⟨mem_modeNumbers_iff.mpr (decodeOperand_mode_toNat b1 b2).symm, decodeOperand_value_toNat b1 b2⟩

end Sys2Proof
end

section
/-!
PROOF. Trap entry with each cause of R220: what it changes does not depend on the cause, only the code does.
-/

open Sys2Proof.Machine

namespace Sys2Proof

/-- Settles O13: `traps_trapEntry_nil` gives the whole frame for any cause and its `Cause.code`, which each
part of the statement reads off the table of codes (R220). -/
theorem trapEntryChangesOnlyThis : Obligations.TrapEntryChangesOnlyThis := by
  unfold Obligations.TrapEntryChangesOnlyThis
  intro s
  have entry := traps_trapEntry_nil s
  exact ⟨entry .syscall, entry .illegalInstruction, entry .memoryViolation, entry .invalidProcessId,
    entry .invalidOperandCount, entry .arithmeticFault, fun v => entry (.software v)⟩

end Sys2Proof
end

section
/-!
PROOF. The decoder is the inverse of the encoder (30_encoding.md R80 to R84, R92), proved as one equivalence
per layer: an operand pair, a row of operands, an instruction. What the decoder refuses follows the same layers.
-/

open Sys2Proof Sys2Proof.Claims

namespace Sys2Proof

/-! ### Operand pairs, as arithmetic -/

/-- `byte1` of an encoded pair as a sum (R83). -/
theorem encodePair_fst_toNat_add (m : Mode) (v : BitVec 14) :
    (encodePair m v.toNat).1.toNat = m.bits.toNat * 64 + v.toNat / 256 := by
  have hmask : v.toNat &&& 0x3FFF = v.toNat % 2 ^ 14 := Nat.and_two_pow_sub_one_eq_mod _ 14
  have hhigh : v.toNat / 2 ^ 8 < 2 ^ 6 := by omega
  rw [encodePair_fst_toNat, hmask, Nat.mod_eq_of_lt v.isLt, Nat.shiftRight_eq_div_pow,
    ← Nat.shiftLeft_add_eq_or_of_lt hhigh, Nat.shiftLeft_eq]
  norm_num

/-- `byte2` of an encoded pair as a remainder (R83). -/
theorem encodePair_snd_toNat_mod (m : Mode) (v : BitVec 14) :
    (encodePair m v.toNat).2.toNat = v.toNat % 256 := by
  have hmask : v.toNat &&& 0x3FFF = v.toNat % 2 ^ 14 := Nat.and_two_pow_sub_one_eq_mod _ 14
  rw [encodePair_snd_toNat, hmask, Nat.mod_eq_of_lt v.isLt]
  exact Nat.and_two_pow_sub_one_eq_mod _ 8

/-- The mode number of a decoded pair as a quotient (R84). -/
theorem decodeOperand_mode_toNat_div (b1 b2 : Byte) :
    (decodeOperand b1 b2).mode.bits.toNat = b1.toNat / 64 := by
  rw [decodeOperand_mode_toNat, Nat.shiftRight_eq_div_pow]

/-- The value of a decoded pair as a sum (R84). -/
theorem decodeOperand_value_toNat_add (b1 b2 : Byte) :
    (decodeOperand b1 b2).value.toNat = b1.toNat % 64 * 256 + b2.toNat := by
  have hlow : b1.toNat &&& 0x3F = b1.toNat % 2 ^ 6 := Nat.and_two_pow_sub_one_eq_mod _ 6
  rw [decodeOperand_value_toNat, hlow, ← Nat.shiftLeft_add_eq_or_of_lt (by omega : b2.toNat < 2 ^ 8),
    Nat.shiftLeft_eq]
  norm_num

/-- `decodeMode` undoes `Mode.bits`. -/
@[simp] theorem decodeMode_bits (m : Mode) : decodeMode m.bits = m := by cases m <;> rfl

/-- Different modes have different mode bits (R85). -/
theorem Mode.eq_of_bits_toNat {m m' : Mode} (h : m.bits.toNat = m'.bits.toNat) : m = m' := by
  rw [← decodeMode_bits m, BitVec.eq_of_toNat_eq h, decodeMode_bits]

/-- Decoding an encoded pair gives mode and value back. -/
@[simp] theorem decodeOperand_encodePair (m : Mode) (v : BitVec 14) :
    decodeOperand (encodePair m v.toNat).1 (encodePair m v.toNat).2 = { mode := m, value := v } := by
  have hmode := decodeOperand_mode_toNat_div (encodePair m v.toNat).1 (encodePair m v.toNat).2
  have hvalue := decodeOperand_value_toNat_add (encodePair m v.toNat).1 (encodePair m v.toNat).2
  rw [encodePair_fst_toNat_add] at hmode hvalue
  rw [encodePair_snd_toNat_mod] at hvalue
  rw [Operand.mk.injEq]
  exact ⟨Mode.eq_of_bits_toNat (by omega), BitVec.eq_of_toNat_eq (by omega)⟩

/-- Encoding a decoded byte pair gives the two bytes back. -/
theorem encodePair_decodeOperand (b1 b2 : Byte) :
    encodePair (decodeOperand b1 b2).mode (decodeOperand b1 b2).value.toNat = (b1, b2) := by
  have hmode := decodeOperand_mode_toNat_div b1 b2
  have hvalue := decodeOperand_value_toNat_add b1 b2
  have hfst := encodePair_fst_toNat_add (decodeOperand b1 b2).mode (decodeOperand b1 b2).value
  have hsnd := encodePair_snd_toNat_mod (decodeOperand b1 b2).mode (decodeOperand b1 b2).value
  refine Prod.ext (BitVec.eq_of_toNat_eq ?_) (BitVec.eq_of_toNat_eq ?_) <;> dsimp only <;> omega

/-- Settles O3: each half of the bijection is one of the two lemmas above. -/
theorem operandCodecRoundTrip : Obligations.OperandCodecRoundTrip := by
  unfold Obligations.OperandCodecRoundTrip
  exact ⟨decodeOperand_encodePair, encodePair_decodeOperand⟩

/-! ### What is decoded: one equivalence per layer -/

/-- A pair of cells is accepted exactly where it holds the two bytes of the operand (R92 step 7, R94). -/
theorem decodePair_eq_ok_iff {c1 c2 : Nat} {op : Operand} :
    decodePair c1 c2 = .ok op ↔ [c1, c2] = (encodeOperand op).map BitVec.toNat := by
  constructor
  · intro h
    unfold decodePair at h
    split at h
    · cases h
    · rename_i hbytes
      cases h
      simp only [encodeOperand, encodePair_decodeOperand, List.map_cons, List.map_nil, BitVec.toNat_ofNat,
        List.cons.injEq, and_true]
      omega
  · intro h
    simp only [encodeOperand, List.map_cons, List.map_nil, List.cons.injEq, and_true] at h
    obtain ⟨rfl, rfl⟩ := h
    rw [decodePair_toNat, decodeOperand_encodePair]

/-- One more pair: it is read first, the others from the cells after it. -/
theorem decodeOperands_succ_eq_ok_iff {n : Nat} {cells rest : List Nat} {ops : List Operand} :
    decodeOperands (n + 1) cells = .ok (ops, rest) ↔
      ∃ c1 c2 cells' op ops', cells = c1 :: c2 :: cells' ∧ ops = op :: ops' ∧
        decodePair c1 c2 = .ok op ∧ decodeOperands n cells' = .ok (ops', rest) := by
  constructor
  · intro h
    unfold decodeOperands at h
    split at h
    case h_1 => omega
    case h_2 _ _ n' c1 c2 cells' hn =>
      cases hn
      cases hp : decodePair c1 c2 with
      | error e => simp [hp] at h
      | ok op =>
        cases hr : decodeOperands n cells' with
        | error e => simp [hp, hr] at h
        | ok r =>
          simp only [hp, hr, Except.ok.injEq, Prod.mk.injEq] at h
          obtain ⟨rfl, rfl⟩ := h
          exact ⟨c1, c2, cells', op, r.1, rfl, rfl, hp, hr⟩
    case h_3 => cases h
  · rintro ⟨c1, c2, cells', op, ops', rfl, rfl, hp, hr⟩
    simp [decodeOperands, hp, hr]

/-- `n` pairs are accepted exactly where the cells are the bytes of `n` operands and the cells left over. -/
theorem decodeOperands_eq_ok_iff {n : Nat} {cells rest : List Nat} {ops : List Operand} :
    decodeOperands n cells = .ok (ops, rest) ↔
      ops.length = n ∧ cells = (ops.flatMap encodeOperand).map BitVec.toNat ++ rest := by
  induction n generalizing cells ops with
  | zero =>
    simp only [decodeOperands, Except.ok.injEq, Prod.mk.injEq, List.length_eq_zero_iff]
    exact ⟨fun ⟨h, h'⟩ => ⟨h.symm, by simp [← h, h']⟩, fun ⟨h, h'⟩ => ⟨h.symm, by simpa [h] using h'⟩⟩
  | succ n ih =>
    simp only [decodeOperands_succ_eq_ok_iff, decodePair_eq_ok_iff, ih]
    constructor
    · rintro ⟨c1, c2, cells', op, ops', rfl, rfl, hpair, rfl, rfl⟩
      simp [← hpair]
    · rintro ⟨hn, rfl⟩
      obtain ⟨op, ops', rfl⟩ := List.exists_cons_of_length_eq_add_one hn
      exact ⟨_, _, _, op, ops', rfl, rfl, rfl, by simpa using hn, rfl⟩

/-- A header is accepted exactly where the count is within the bound and the opcode cell is the number of a
mnemonic (R92 steps 4 and 5). -/
theorem decodeHeader_eq_ok_iff {c : Config} {c0 c1 n : Nat} {m : Mnemonic} :
    decodeHeader c c0 c1 = .ok (n, m) ↔ c0 ≤ c.maxOperands ∧ c.opcodeMap[c1]? = some m ∧ c0 = n := by
  unfold decodeHeader
  split
  · simp only [reduceCtorEq, false_iff, not_and]
    omega
  · cases c.opcodeMap[c1]? with
    | none => simp
    | some m' =>
      simp only [Except.ok.injEq, Prod.mk.injEq, Option.some.injEq]
      exact ⟨fun ⟨hn, hm⟩ => ⟨by omega, hm, hn⟩, fun ⟨_, hm, hn⟩ => ⟨hn, hm⟩⟩

/-- An instruction is accepted exactly where its header and its operand cells are (R92). -/
theorem decode_eq_ok_iff {c : Config} {cells rest : List Nat} {i : Instr} :
    decode c cells = .ok (i, rest) ↔
      ∃ n k m ops cells', cells = n :: k :: cells' ∧ i = m.make ops ∧ n ≤ c.maxOperands ∧
        c.opcodeMap[k]? = some m ∧ 2 * n ≤ cells'.length ∧ decodeOperands n cells' = .ok (ops, rest) := by
  constructor
  · intro h
    unfold decode at h
    split at h
    case h_2 => cases h
    case h_1 c0 c1 cells' =>
      cases hh : decodeHeader c c0 c1 with
      | error e => simp [hh] at h
      | ok r =>
        obtain ⟨n, m⟩ := r
        obtain ⟨hn, hm, rfl⟩ := decodeHeader_eq_ok_iff.mp hh
        simp only [hh] at h
        split at h
        · cases h
        · cases ho : decodeOperands c0 cells' with
          | error e => simp [ho] at h
          | ok q =>
            simp only [ho] at h
            cases h
            exact ⟨_, _, _, _, _, rfl, rfl, hn, hm, by omega, ho⟩
  · rintro ⟨n, k, m, ops, cells', rfl, rfl, hn, hm, hlen, ho⟩
    have hh : decodeHeader c n k = .ok (n, m) := decodeHeader_eq_ok_iff.mpr ⟨hn, hm, rfl⟩
    simp [decode, hh, ho, hlen]

/-- The two bytes of an operand. -/
@[simp] theorem length_encodeOperand (op : Operand) : (encodeOperand op).length = 2 := rfl

/-- The cells of an instruction: the two header cells and the operand bytes (R80). No number is cut to a byte. -/
theorem encodeCells_eq {c : Config} {i : Instr} (hc : c.wellFormed = true) (hi : i.wellFormed c = true) :
    encodeCells c i =
      i.count :: c.opcodeOf i :: (i.operands.flatMap encodeOperand).map BitVec.toNat := by
  have hcount : i.count < 2 ^ 8 := by
    have h := of_decide_eq_true hi
    rw [Config.maxOperands_eq hc] at h
    omega
  have hopcode : c.opcodeOf i < 2 ^ 8 := by have := Config.opcodeOf_lt hc i; omega
  simp only [encodeCells, encode, List.map_cons, BitVec.toNat_ofNat, Nat.mod_eq_of_lt hcount,
    Nat.mod_eq_of_lt hopcode]

/-- The decoder accepts exactly the encodings of the well-formed instructions, whatever follows them. -/
theorem decode_eq_ok_iff_encodeCells {c : Config} (hc : c.wellFormed = true) {cells rest : List Nat}
    {i : Instr} :
    decode c cells = .ok (i, rest) ↔ i.wellFormed c = true ∧ cells = encodeCells c i ++ rest := by
  rw [decode_eq_ok_iff]
  constructor
  · rintro ⟨n, k, m, ops, cells', rfl, rfl, hn, hm, _, ho⟩
    obtain ⟨rfl, rfl⟩ := decodeOperands_eq_ok_iff.mp ho
    have hi : (m.make ops).wellFormed c = true := by simpa [Instr.wellFormed, Instr.count] using hn
    refine ⟨hi, ?_⟩
    rw [encodeCells_eq hc hi, Config.opcodeOf_make hc hm]
    simp [Instr.count]
  · rintro ⟨hi, rfl⟩
    rw [encodeCells_eq hc hi]
    refine ⟨i.count, c.opcodeOf i, i.mnemonic, i.operands, _, rfl, i.make_mnemonic.symm,
      of_decide_eq_true hi, Config.opcodeMap_opcodeOf hc i, ?_, decodeOperands_eq_ok_iff.mpr ⟨rfl, rfl⟩⟩
    simp [List.length_flatMap, Instr.count]
    omega

/-- Settles O1: an encoding is among what the decoder accepts. -/
theorem decodeEncodeRoundTrip : Obligations.DecodeEncodeRoundTrip := by
  unfold Obligations.DecodeEncodeRoundTrip
  exact fun c i rest hc hi => (decode_eq_ok_iff_encodeCells hc).mpr ⟨hi, rfl⟩

/-- Settles O2: the decoder accepts nothing else. -/
theorem encodeDecodeRoundTrip : Obligations.EncodeDecodeRoundTrip := by
  unfold Obligations.EncodeDecodeRoundTrip
  exact fun c cells rest i hc h => (decode_eq_ok_iff_encodeCells hc).mp h

/-! ### What is refused -/

/-- A pair is refused by one name, where one of its cells is no byte (R94). -/
theorem decodePair_eq_error_iff {c1 c2 : Nat} {e : DecodeError} :
    decodePair c1 c2 = .error e ↔ e = .notAByte ∧ (255 < c1 ∨ 255 < c2) := by
  unfold decodePair
  split <;> simp_all [eq_comm]

/-- Where the cells of `n` pairs are there, they are refused by one name, where one of them is no byte. -/
theorem decodeOperands_eq_error_iff {n : Nat} {cells : List Nat} {e : DecodeError}
    (hlen : 2 * n ≤ cells.length) :
    decodeOperands n cells = .error e ↔ e = .notAByte ∧ ∃ v ∈ cells.take (2 * n), 255 < v := by
  induction n generalizing cells with
  | zero => simp [decodeOperands]
  | succ n ih =>
    obtain _ | ⟨c1, _ | ⟨c2, cells⟩⟩ := cells
    · simp at hlen
    · simp at hlen; omega
    · have ih := ih (cells := cells) (by simp at hlen; omega)
      have htake : (c1 :: c2 :: cells).take (2 * (n + 1)) = c1 :: c2 :: cells.take (2 * n) := rfl
      rw [htake]
      simp only [decodeOperands, List.mem_cons, exists_eq_or_imp]
      cases hp : decodePair c1 c2 with
      | error e' =>
        obtain ⟨rfl, hv⟩ := decodePair_eq_error_iff.mp hp
        simp only [Except.error.injEq, eq_comm (a := e)]
        tauto
      | ok op =>
        have hv : ¬(255 < c1 ∨ 255 < c2) := fun hv => by
          rw [decodePair_eq_error_iff.mpr ⟨rfl, hv⟩] at hp; cases hp
        obtain ⟨h1, h2⟩ := not_or.mp hv
        simp only [h1, h2, false_or]
        rw [← ih]
        cases decodeOperands n cells <;> simp

section

variable {c : Config} (hc : c.wellFormed = true)

include hc

/-- How the two header cells are answered under a well-formed configuration (R92 steps 4 and 5). -/
theorem decodeHeader_cases (c0 c1 : Nat) :
    (10 < c0 ∧ decodeHeader c c0 c1 = .error .invalidOperandCount) ∨
    (c0 ≤ 10 ∧ 63 < c1 ∧ decodeHeader c c0 c1 = .error .noMapping) ∨
    (c0 ≤ 10 ∧ c1 ≤ 63 ∧ ∃ m, decodeHeader c c0 c1 = .ok (c0, m)) := by
  have hmax := Config.maxOperands_eq hc
  have hlen := Config.opcodeMap_length hc
  by_cases hn : 10 < c0
  · exact .inl ⟨hn, if_pos (by omega)⟩
  · refine .inr ?_
    by_cases hk : 63 < c1
    · have hm : c.opcodeMap[c1]? = none := List.getElem?_eq_none (by omega)
      exact .inl ⟨by omega, hk, by rw [decodeHeader, if_neg (by omega), hm]⟩
    · have hm : c.opcodeMap[c1]? = some _ := List.getElem?_eq_getElem (by omega)
      exact .inr ⟨by omega, by omega, _, decodeHeader_eq_ok_iff.mpr ⟨by omega, hm, rfl⟩⟩

/-- How a stream with a header is answered: the four refusals in the order of R92, or an instruction. -/
theorem decode_cases (c0 c1 : Nat) (cells : List Nat) :
    (10 < c0 ∧ decode c (c0 :: c1 :: cells) = .error .invalidOperandCount) ∨
    (c0 ≤ 10 ∧ 63 < c1 ∧ decode c (c0 :: c1 :: cells) = .error .noMapping) ∨
    (c0 ≤ 10 ∧ c1 ≤ 63 ∧ cells.length < 2 * c0 ∧
      decode c (c0 :: c1 :: cells) = .error .endOfStream) ∨
    (c0 ≤ 10 ∧ c1 ≤ 63 ∧ 2 * c0 ≤ cells.length ∧ (∃ v ∈ cells.take (2 * c0), 255 < v) ∧
      decode c (c0 :: c1 :: cells) = .error .notAByte) ∨
    (c0 ≤ 10 ∧ c1 ≤ 63 ∧ 2 * c0 ≤ cells.length ∧ (¬∃ v ∈ cells.take (2 * c0), 255 < v) ∧
      ∃ r, decode c (c0 :: c1 :: cells) = .ok r) := by
  obtain ⟨hn, hh⟩ | ⟨hn, hk, hh⟩ | ⟨hn, hk, m, hh⟩ := decodeHeader_cases hc c0 c1
  · exact .inl ⟨hn, by simp [decode, hh]⟩
  · exact .inr (.inl ⟨hn, hk, by simp [decode, hh]⟩)
  · refine .inr (.inr ?_)
    by_cases hlen : cells.length < 2 * c0
    · exact .inl ⟨hn, hk, hlen, by simp [decode, hh, hlen]⟩
    · refine .inr ?_
      cases ho : decodeOperands c0 cells with
      | error e =>
        obtain ⟨rfl, hv⟩ := (decodeOperands_eq_error_iff (by omega)).mp ho
        exact .inl ⟨hn, hk, by omega, hv, by simp [decode, hh, ho, hlen]⟩
      | ok r =>
        have hv : ¬∃ v ∈ cells.take (2 * c0), 255 < v := fun hv => by
          rw [(decodeOperands_eq_error_iff (by omega)).mpr ⟨rfl, hv⟩] at ho; cases ho
        exact .inr ⟨hn, hk, by omega, hv, (m.make r.1, r.2), by simp [decode, hh, ho, hlen]⟩

end

/-- A stream too short for a header is refused (R92 step 2). -/
theorem decode_short {c : Config} {header : List Nat} (h : header.length < 2) :
    decode c header = .error .endOfStream := by
  obtain _ | ⟨c0, _ | ⟨c1, cells⟩⟩ := header
  · rfl
  · rfl
  · simp at h

/-- Settles O4: the cases of the answer exclude each other, so each name stands for its own condition. -/
theorem decodeRejectsByName : Obligations.DecodeRejectsByName := by
  unfold Obligations.DecodeRejectsByName
  intro c c0 c1 cells hc
  have hshort : ∀ header : List Nat, header.length < 2 → decode c header = .error .endOfStream :=
    fun _ => decode_short
  obtain ⟨hn, h⟩ | ⟨hn, hk, h⟩ | ⟨hn, hk, hlen, h⟩ | ⟨hn, hk, hlen, hv, h⟩ | ⟨hn, hk, hlen, hv, r, h⟩ :=
    decode_cases hc c0 c1 cells
  all_goals
    simp only [h, Except.error.injEq, reduceCtorEq, true_iff, false_iff]
    grind

end Sys2Proof
end

section
/-!
PROOF. The fetch (30_encoding.md R92): where the cells at `pc` decode it reads the decoded instruction, and where
they do not, or do not fit, or are denied, it ends the step as R92 orders.
-/

open Sys2Proof.Claims

namespace Sys2Proof.Machine

/-! ### Consecutive cells -/

@[simp] theorem fetchCells_zero (a : Nat) : fetchCells a 0 = [] := rfl

/-- The lowest cell is read first. -/
theorem fetchCells_succ (a n : Nat) : fetchCells a (n + 1) = a :: fetchCells (a + 1) n := by
  simp [fetchCells, List.range_succ_eq_map, Nat.add_comm, Nat.add_left_comm]

/-- A pair of cells, then the cells after it. -/
theorem fetchCells_add_two (a n : Nat) : fetchCells a (n + 2) = a :: (a + 1) :: fetchCells (a + 2) n := by
  rw [fetchCells_succ, fetchCells_succ]

@[simp] theorem length_fetchCells (a n : Nat) : (fetchCells a n).length = n := by simp [fetchCells]

theorem mem_fetchCells {a n b : Nat} : b ∈ fetchCells a n ↔ a ≤ b ∧ b < a + n := by
  simp only [fetchCells, List.mem_map, List.mem_range]
  exact ⟨by rintro ⟨k, hk, rfl⟩; omega, fun h => ⟨b - a, by omega, by omega⟩⟩

@[simp] theorem State.permitsAll_nil (s : State) : s.permitsAll [] = true := rfl

@[simp] theorem State.permitsAll_cons (s : State) (a : Nat) (l : List Nat) :
    s.permitsAll (a :: l) = (s.permits a && s.permitsAll l) := rfl

/-- Accesses change no permission and no cell. -/
theorem State.touchAll_permitsAll (s : State) (l l' : List Nat) :
    (s.touchAll l).permitsAll l' = s.permitsAll l' :=
  congrArg l'.all (funext (s.touchAll_permits l))

theorem State.touchAll_cell_eq (s : State) (l : List Nat) : (s.touchAll l).cell = s.cell :=
  funext (s.touchAll_cell l)

/-- The cells the fetch decodes, in the order it reads them. -/
theorem State.stream_eq (s : State) :
    s.stream = (fetchCells s.pc (min s.config.maxLength (s.config.memSize - s.pc))).map s.cell := by
  simp [State.stream, State.cellsFrom, fetchCells]

/-! ### A fetch that is permitted -/

/-- A permitted pair is read whole. -/
theorem fetchPair_ok {a : Nat} {s : State} (h : s.permits a = true) (h' : s.permits (a + 1) = true) :
    fetchPair a s = .ok (s.cell a, s.cell (a + 1)) (s.touchAll [a, a + 1]) := by
  simp [fetchPair_eq, h, h']

/-- Operands that decode from permitted cells are fetched (R92 step 7). -/
theorem fetchOperands_of_decodeOperands {n m a : Nat} {s : State} {ops : List Operand} {rest : List Nat}
    (hp : s.permitsAll (fetchCells a (2 * n)) = true)
    (hd : decodeOperands n ((fetchCells a m).map s.cell) = .ok (ops, rest)) :
    fetchOperands n a s = .ok ops (s.touchAll (fetchCells a (2 * n))) := by
  induction n generalizing a m s ops with
  | zero =>
    obtain ⟨rfl, _⟩ : [] = ops ∧ _ := by simpa [decodeOperands] using hd
    rfl
  | succ n ih =>
    rw [Nat.mul_add_one, fetchCells_add_two] at hp ⊢
    simp only [State.permitsAll_cons, Bool.and_eq_true] at hp
    obtain ⟨c1, c2, cells, op, ops', hcells, rfl, hpair, hrest⟩ := decodeOperands_succ_eq_ok_iff.mp hd
    obtain _ | _ | m := m
    · simp at hcells
    · simp [fetchCells_succ] at hcells
    · rw [fetchCells_add_two] at hcells
      simp only [List.map_cons, List.cons.injEq] at hcells
      obtain ⟨rfl, rfl, rfl⟩ := hcells
      have hrec := ih (s := s.touchAll [a, a + 1]) (by rw [State.touchAll_permitsAll]; exact hp.2.2)
        (by rw [State.touchAll_cell_eq]; exact hrest)
      simp only [fetchOperands, fetchPair_ok hp.1 hp.2.1, hpair, hrec]
      rfl

/-- The first pair `k` that is no pair of bytes ends the fetch of the operands, read whole (R92 step 7, R94). -/
theorem fetchOperands_not_bytes {n k a : Nat} {s : State} (hk : k < n)
    (hp : s.permitsAll (fetchCells a (2 * k + 2)) = true) (hbytes : ∀ j, j < 2 * k → s.cell (a + j) ≤ 255)
    (hbad : 255 < s.cell (a + 2 * k) ∨ 255 < s.cell (a + 2 * k + 1)) :
    fetchOperands n a s =
      .stop (trapEntry .illegalInstruction (s.touchAll (fetchCells a (2 * k + 2)))) := by
  induction k generalizing n a s with
  | zero =>
    obtain ⟨n, rfl⟩ := Nat.exists_eq_add_one_of_ne_zero (by omega : n ≠ 0)
    rw [fetchCells_add_two] at hp ⊢
    simp only [State.permitsAll_cons, Bool.and_eq_true] at hp
    have hpair := decodePair_eq_error_iff.mpr ⟨rfl, hbad⟩
    simp only [Nat.mul_zero, Nat.add_zero] at hpair
    simp only [fetchOperands, fetchPair_ok hp.1 hp.2.1, hpair]
    rfl
  | succ k ih =>
    obtain ⟨n, rfl⟩ := Nat.exists_eq_add_one_of_ne_zero (by omega : n ≠ 0)
    rw [Nat.mul_add_one, fetchCells_add_two] at hp ⊢
    simp only [State.permitsAll_cons, Bool.and_eq_true] at hp
    have h0 := hbytes 0 (by omega)
    have h1 := hbytes 1 (by omega)
    have hpair : decodePair (s.cell a) (s.cell (a + 1)) = .ok _ := if_neg (by simp only [Nat.add_zero] at h0; omega)
    have hrec := ih (n := n) (a := a + 2) (s := s.touchAll [a, a + 1]) (by omega)
      (by rw [State.touchAll_permitsAll]; exact hp.2.2)
      (fun j hj => by
        rw [State.touchAll_cell, Nat.add_assoc, Nat.add_comm 2]; exact hbytes (j + 2) (by omega))
      (by
        have e : a + 2 + 2 * k = a + 2 * (k + 1) := by omega
        rw [State.touchAll_cell, State.touchAll_cell, e]; exact hbad)
    simp only [fetchOperands, fetchPair_ok hp.1 hp.2.1, hpair, hrec]
    rfl

/-! ### How the fetch goes on after each of its checks -/

/-- Step 2: the header does not fit. -/
theorem fetch_no_header {s : State} (h : s.config.memSize ≤ s.pc + 1) :
    fetch s = .stop (raiseFatal .endOfMemory s) := if_pos h

/-- Step 3: the first header cell is denied. -/
theorem fetch_denied {s : State} (hfit : s.pc + 1 < s.config.memSize) (h : s.permits s.pc = false) :
    fetch s = .stop (trapEntry .memoryViolation s) := by
  simp [fetch, fetchPair_eq, h, Nat.not_le.mpr hfit]

section

variable {s : State} (hfit : s.pc + 1 < s.config.memSize) (hp : s.permitsAll [s.pc, s.pc + 1] = true)

include hfit hp

/-- Steps 4 and 5: the header is rejected. -/
theorem fetch_header_error {e : DecodeError}
    (h : decodeHeader s.config (s.cell s.pc) (s.cell (s.pc + 1)) = .error e) :
    fetch s = .stop (raiseDecodeError e (s.touchAll [s.pc, s.pc + 1])) := by
  simp only [State.permitsAll_cons, Bool.and_eq_true] at hp
  simp only [fetch, Nat.not_le.mpr hfit, if_false, fetchPair_ok hp.1 hp.2.1, h]

variable {n : Nat} {m : Mnemonic} (hh : decodeHeader s.config (s.cell s.pc) (s.cell (s.pc + 1)) = .ok (n, m))

include hh

/-- Step 6: the operand cells do not fit. -/
theorem fetch_no_operands (h : s.config.memSize < s.nextPc n) :
    fetch s = .stop (raiseFatal .endOfMemory (s.touchAll [s.pc, s.pc + 1])) := by
  simp only [State.permitsAll_cons, Bool.and_eq_true] at hp
  simp only [fetch, Nat.not_le.mpr hfit, if_false, fetchPair_ok hp.1 hp.2.1, hh, gt_iff_lt, h,
    if_true]

variable (hroom : s.nextPc n ≤ s.config.memSize)

include hroom

/-- Step 7 ends the step. -/
theorem fetch_operands_stop {u : State}
    (h : fetchOperands n (s.pc + 2) (s.touchAll [s.pc, s.pc + 1]) = .stop u) : fetch s = .stop u := by
  simp only [State.permitsAll_cons, Bool.and_eq_true] at hp
  simp only [fetch, Nat.not_le.mpr hfit, if_false, fetchPair_ok hp.1 hp.2.1, hh, gt_iff_lt,
    Nat.not_lt.mpr hroom, h]

/-- Step 7 gives the operands. -/
theorem fetch_operands_ok {ops : List Operand} {u : State}
    (h : fetchOperands n (s.pc + 2) (s.touchAll [s.pc, s.pc + 1]) = .ok ops u) :
    fetch s = .ok (m.make ops) u := by
  simp only [State.permitsAll_cons, Bool.and_eq_true] at hp
  simp only [fetch, Nat.not_le.mpr hfit, if_false, fetchPair_ok hp.1 hp.2.1, hh, gt_iff_lt,
    Nat.not_lt.mpr hroom, h]

end

/-- The fetch reads the instruction that the cells at `pc` decode to, where all its cells are permitted. -/
theorem fetch_of_decode {s : State} {i : Instr} {rest : List Nat} (hd : decode s.config s.stream = .ok (i, rest))
    (hp : s.permitsAll (fetchCells s.pc i.length) = true) :
    fetch s = .ok i (s.touchAll (fetchCells s.pc i.length)) := by
  obtain ⟨n, k, m, ops, cells, hcells, rfl, hn, hm, hlen, ho⟩ := decode_eq_ok_iff.mp hd
  obtain ⟨hcount, -⟩ := decodeOperands_eq_ok_iff.mp ho
  have hwhole := congrArg List.length hcells
  rw [State.stream_eq] at hcells hwhole
  simp only [List.length_map, length_fetchCells, List.length_cons] at hwhole
  rw [hwhole, fetchCells_add_two] at hcells
  simp only [List.map_cons, List.cons.injEq] at hcells
  obtain ⟨rfl, rfl, hcells⟩ := hcells
  have hlength : (m.make ops).length = 2 * s.cell s.pc + 2 := by
    rw [Instr.length, Instr.count, Mnemonic.operands_make, hcount, Nat.add_comm]
  rw [hlength, fetchCells_add_two] at hp ⊢
  simp only [State.permitsAll_cons, Bool.and_eq_true] at hp
  refine fetch_operands_ok (by omega) (by simp [hp]) (decodeHeader_eq_ok_iff.mpr ⟨hn, hm, rfl⟩)
    (by unfold State.nextPc; omega) ?_
  exact fetchOperands_of_decodeOperands (m := cells.length) (by rw [State.touchAll_permitsAll]; exact hp.2.2)
    (by rw [State.touchAll_cell_eq, hcells]; exact ho)

/-! ### The step -/

theorem step_of_fetch_stop {s u : State} (hr : s.run = .running) (h : fetch s = .stop u) :
    step s = .next u := by simp [step, hr, h]

theorem step_of_fetch_ok {s u : State} {i : Instr} (hr : s.run = .running) (h : fetch s = .ok i u) :
    step s = if awaitsInput i s then .next s else exec i u := by simp [step, hr, h]

/-- Settles O6: the fetch gives the instruction (`fetch_of_decode`), and the step executes it. -/
theorem stepRunsTheDecodedInstruction : Obligations.StepRunsTheDecodedInstruction := by
  unfold Obligations.StepRunsTheDecodedInstruction
  intro s i rest hr hd hp hw
  rw [step_of_fetch_ok hr (fetch_of_decode hd hp), hw]
  rfl

/-- Settles O7: the instruction is fetched, and it waits. -/
theorem inputWaitChangesNothing : Obligations.InputWaitChangesNothing := by
  unfold Obligations.InputWaitChangesNothing
  intro s ops rest hr hd hp hin
  have hw : awaitsInput (.inp ops) s = true := by simp [awaitsInput, hin]
  rw [step_of_fetch_ok hr (fetch_of_decode hd hp), hw]
  rfl

/-- Settles O8: `step` asks `RUN` before it fetches. -/
theorem stoppedEngineTakesNoStep : Obligations.StoppedEngineTakesNoStep := by
  unfold Obligations.StoppedEngineTakesNoStep
  exact fun s => ⟨fun hr => by simp [step, hr], fun r hr => by simp [step, hr]⟩

/-- Settles O9: the two refusals of the header, each raised as its cause. -/
theorem headerChecksTrap : Obligations.HeaderChecksTrap := by
  unfold Obligations.HeaderChecksTrap
  intro s hc hr hfit hp
  obtain ⟨hn, hh⟩ | ⟨hn, hk, hh⟩ | ⟨hn, hk, _⟩ := decodeHeader_cases hc (s.cell s.pc) (s.cell (s.pc + 1))
  · exact ⟨fun _ => ⟨_, step_of_fetch_stop hr (fetch_header_error hfit hp hh),
      traps_trapEntry s .invalidOperandCount _⟩, fun _ _ => by omega⟩
  · exact ⟨fun _ => by omega, fun _ _ => ⟨_, step_of_fetch_stop hr (fetch_header_error hfit hp hh),
      traps_trapEntry s .illegalInstruction _⟩⟩
  · exact ⟨fun _ => by omega, fun _ _ => by omega⟩

/-- A header within its bounds is accepted. -/
theorem decodeHeader_of_le {c : Config} (hc : c.wellFormed = true) {c0 c1 : Nat} (hn : c0 ≤ 10) (hk : c1 ≤ 63) :
    ∃ m, decodeHeader c c0 c1 = .ok (c0, m) := by
  obtain ⟨_, _⟩ | ⟨_, _, _⟩ | ⟨_, _, h⟩ := decodeHeader_cases hc c0 c1
  · omega
  · omega
  · exact h

/-- Settles O10: the header is accepted, and the operand fetch stops at pair `k`. -/
theorem operandCellsMustBeBytes : Obligations.OperandCellsMustBeBytes := by
  unfold Obligations.OperandCellsMustBeBytes
  intro s k hc hr hn hop hk hroom hp hbytes hbad
  obtain ⟨m, hh⟩ := decodeHeader_of_le hc hn hop
  rw [show 4 + 2 * k = 2 * k + 2 + 2 by omega, fetchCells_add_two] at hp ⊢
  simp only [State.permitsAll_cons, Bool.and_eq_true] at hp
  have hpair : 255 < s.cell (s.pc + 2 + 2 * k) ∨ 255 < s.cell (s.pc + 2 + 2 * k + 1) := by
    rwa [show s.pc + 2 + 2 * k + 1 = s.pc + 3 + 2 * k by omega]
  have hstop := fetchOperands_not_bytes (s := s.touchAll [s.pc, s.pc + 1]) hk
    (by rw [State.touchAll_permitsAll]; exact hp.2.2)
    (fun j hj => by rw [State.touchAll_cell]; exact hbytes j hj)
    (by rw [State.touchAll_cell, State.touchAll_cell]; exact hpair)
  exact ⟨_, step_of_fetch_stop hr (fetch_operands_stop (by omega) (by simp [hp]) hh hroom hstop),
    traps_trapEntry s .illegalInstruction (s.pc :: (s.pc + 1) :: fetchCells (s.pc + 2) (2 * k + 2))⟩

/-- Settles O11: the two checks against the end of memory. -/
theorem fetchStopsAtEndOfMemory : Obligations.FetchStopsAtEndOfMemory := by
  unfold Obligations.FetchStopsAtEndOfMemory
  intro s hc hr
  refine ⟨fun h => step_of_fetch_stop hr (fetch_no_header h), fun hfit hp hn hop hroom => ?_⟩
  obtain ⟨m, hh⟩ := decodeHeader_of_le hc hn hop
  exact step_of_fetch_stop hr (fetch_no_operands hfit hp hh hroom)

/-- Settles O12: the first cell is denied before any access is made. -/
theorem deniedFetchTraps : Obligations.DeniedFetchTraps := by
  unfold Obligations.DeniedFetchTraps
  exact fun s hr hfit h =>
    ⟨_, step_of_fetch_stop hr (fetch_denied hfit h), traps_trapEntry_nil s .memoryViolation⟩

end Sys2Proof.Machine
end

section
/-!
PROOF. The access check (20_memory.md R56, R57), and the sets of owned addresses as canonical extents (R58, R59).
-/

namespace Sys2Proof.Machine

/-! ### The access check -/

/-- A touch changes nothing but the allocation table. -/
theorem touch_withOwned (s : State) (a : Nat) : { s.touch a with owned := s.owned } = s := by
  obtain h | ⟨_, h⟩ := touch_cases s a <;> rw [h]
  rfl

/-- A touch adds the address where accesses are recorded and it is not owned yet (R56). -/
theorem touch_eq (s : State) (a : Nat) :
    s.touch a = if s.records = true ∧ s.owns s.cur a = false then s.allocate s.cur a 1 else s := by
  unfold State.touch State.check State.records
  by_cases hp : s.priv
  · simp [hp]
  · cases hpol : s.config.policy with
    | lazyGrow => by_cases ho : s.owns s.cur a <;> simp [hp, ho]
    | threshold t => by_cases ht : a < t <;> simp [hp, ht]

/-- A touch of an address that is owned changes nothing. -/
theorem touch_of_owns {s : State} {a : Nat} (h : s.owns s.cur a = true) : s.touch a = s := by
  rw [touch_eq, if_neg (by simp [h])]

/-- A second access to an address changes nothing more. -/
theorem touch_touch (s : State) (a : Nat) : (s.touch a).touch a = s.touch a := by
  rw [touch_eq (s.touch a), if_neg]
  rintro ⟨hr, ho⟩
  simp only [State.touch_records] at hr
  simp [State.owns_touch, hr] at ho

/-- A privileged access records nothing (R56 item 1). -/
theorem touch_of_priv {s : State} (h : s.priv = true) (a : Nat) : s.touch a = s := by
  simp [State.touch, State.check, h]

theorem permits_of_lazyGrow {s : State} (h : s.config.policy = .lazyGrow) (a : Nat) : s.permits a = true := by
  simp [State.permits, h]

/-- Settles O14: one clause per policy. -/
theorem accessCheckFollowsThePolicy : Obligations.AccessCheckFollowsThePolicy := by
  unfold Obligations.AccessCheckFollowsThePolicy
  intro s a
  refine ⟨fun hp => by simp [State.check, hp], fun hp hl => ?_, fun thr hp ht => by simp [State.check, hp, ht]⟩
  refine ⟨s.touch a, by rw [check_eq, permits_of_lazyGrow hl, if_pos rfl], fun q b => ?_,
    touch_withOwned s a, touch_of_owns⟩
  have hr : s.records = true := by simp [State.records, hp, hl]
  rw [State.owns_touch, hr, Bool.and_true, Bool.decide_and]

/-! ### Canonical extents -/

section

variable {size : Nat} {e : Extent} {l : List Extent}

theorem covers_cons (a : Nat) :
    covers (e :: l) a = true ↔ (e.start ≤ a ∧ a < e.stop) ∨ covers l a = true := by
  simp [covers]

theorem extentsWf_tail (h : ExtentsWf size (e :: l)) : ExtentsWf size l :=
  ⟨fun f hf => h.1 f (List.mem_cons_of_mem _ hf), (List.pairwise_cons.mp h.2).2⟩

theorem extentsWf_head (h : ExtentsWf size (e :: l)) : e.start < e.stop := (h.1 e List.mem_cons_self).1

/-- The later extents lie above the first one, with a gap. -/
theorem lt_of_covers_tail (h : ExtentsWf size (e :: l)) {a : Nat} (ha : covers l a = true) : e.stop < a := by
  obtain ⟨f, hf, hfa⟩ := List.any_eq_true.mp ha
  have hgap := (List.pairwise_cons.mp h.2).1 f hf
  simp only [Bool.and_eq_true, decide_eq_true_eq] at hfa
  omega

/-- The start of the first extent is the least address covered. -/
theorem start_le_of_covers (h : ExtentsWf size (e :: l)) {a : Nat} (ha : covers (e :: l) a = true) :
    e.start ≤ a := by
  obtain ha | ha := (covers_cons a).mp ha
  · exact ha.1
  · have := lt_of_covers_tail h ha
    have := extentsWf_head h
    omega

theorem covers_start (h : ExtentsWf size (e :: l)) : covers (e :: l) e.start = true :=
  (covers_cons _).mpr (.inl ⟨le_rfl, extentsWf_head h⟩)

/-- The first address after the first extent is not covered. -/
theorem not_covers_stop (h : ExtentsWf size (e :: l)) : ¬covers (e :: l) e.stop = true := fun ha => by
  obtain ha | ha := (covers_cons _).mp ha
  · omega
  · have := lt_of_covers_tail h ha
    omega

/-- The set determines the first extent: no extent with the same start can end later. -/
theorem stop_le_stop {e' : Extent} {l' : List Extent} (h : ExtentsWf size (e :: l))
    (heq : ∀ a, covers (e :: l) a = covers (e' :: l') a) (hs : e.start = e'.start) : e'.stop ≤ e.stop := by
  by_contra hlt
  refine not_covers_stop h ?_
  have hhead := extentsWf_head h
  rw [heq]
  exact (covers_cons _).mpr (.inl ⟨by omega, by omega⟩)

end

/-- Canonical extents that cover the same addresses are the same (R58). -/
theorem extents_ext {size : Nat} {l l' : List Extent} (h : ExtentsWf size l) (h' : ExtentsWf size l')
    (heq : ∀ a, covers l a = covers l' a) : l = l' := by
  induction l generalizing l' with
  | nil =>
    cases l' with
    | nil => rfl
    | cons e' l' => exact absurd ((heq e'.start).trans (covers_start h')) Bool.false_ne_true
  | cons e l ih =>
    cases l' with
    | nil => exact absurd ((heq e.start).symm.trans (covers_start h)) Bool.false_ne_true
    | cons e' l' =>
      have hstart : e.start = e'.start := Nat.le_antisymm
        (start_le_of_covers h ((heq _).trans (covers_start h')))
        (start_le_of_covers h' ((heq _).symm.trans (covers_start h)))
      have hstop : e.stop = e'.stop := Nat.le_antisymm
        (stop_le_stop h' (fun a => (heq a).symm) hstart.symm) (stop_le_stop h heq hstart)
      have htail : ∀ a, covers l a = covers l' a := fun a => by
        rw [Bool.eq_iff_iff]
        have hset := Bool.eq_iff_iff.mp (heq a)
        rw [covers_cons, covers_cons] at hset
        exact ⟨fun ha => (hset.mp (.inr ha)).resolve_left (by have := lt_of_covers_tail h ha; omega),
          fun ha => (hset.mpr (.inr ha)).resolve_left (by have := lt_of_covers_tail h' ha; omega)⟩
      have hhead : e = e' := by cases e; cases e'; simp_all only
      rw [hhead, ih (extentsWf_tail h) (extentsWf_tail h') htail]

/-- Settles O16: `extents_ext`. -/
theorem extentsDetermineTheSet : Obligations.ExtentsDetermineTheSet := by
  unfold Obligations.ExtentsDetermineTheSet
  exact fun _ _ _ => extents_ext

/-! ### Allocation -/

@[simp] theorem State.extents_allocate (s : State) (p addr n : Nat) :
    (s.allocate p addr n).extents p = addExtent (s.extents p) addr (addr + n) := by
  simp [State.extents, State.allocate]

/-- `Allocate` where it is not refused. -/
theorem hostAllocate_done {s : State} (hf : s.isFatal = false) (p : Nat) {addr n : Nat} (hn : 1 ≤ n)
    (hfit : addr + n ≤ s.config.memSize) : hostAllocate p addr n s = .done (s.allocate p addr n) := by
  have h0 : n ≠ 0 := by omega
  simp [hostAllocate, hf, h0, hfit]

/-- Settles O17: two sequences of additions that come to the same set come to the same extents
(`extents_ext`). -/
theorem allocateMergesRanges : Obligations.AllocateMergesRanges := by
  unfold Obligations.AllocateMergesRanges
  constructor
  · intro s p addr n m h hn hm hfit
    have hlow := extentsWf_addExtent (start := addr) (stop := addr + n) h (by omega) (by omega)
    have hhigh := extentsWf_addExtent (start := addr + n) (stop := addr + n + m) h (by omega) (by omega)
    have hwhole := extentsWf_addExtent (start := addr) (stop := addr + (n + m)) h (by omega) (by omega)
    simp only [State.extents_allocate]
    refine ⟨extents_ext (extentsWf_addExtent hlow (by omega) (by omega)) hlow fun a => ?_,
      extents_ext (extentsWf_addExtent hlow (by omega) (by omega)) hwhole fun a => ?_,
      extents_ext (extentsWf_addExtent hhigh (by omega) (by omega)) hwhole fun a => ?_⟩
    all_goals
      simp only [covers_addExtent, Nat.le_add_right, Bool.or_assoc, ← Bool.decide_and, ← Bool.decide_or]
      congr 1
      exact decide_eq_decide.mpr (by omega)
  · intro s p addr n hf
    refine ⟨fun h => ?_, fun hn hfit => ⟨hostAllocate_done hf p hn hfit, fun q a => ?_, rfl⟩⟩
    · obtain rfl | h := h
      · simp [hostAllocate]
      · simp [hostAllocate, h]
    · simp only [State.owns_allocate, ← Bool.decide_and, eq_comm (a := p)]

end Sys2Proof.Machine
end

section
/-!
PROOF. What every step and every host operation keeps: the machine invariant `State.wf`, the data pointers, and the
register files of the processes that are not current. Each is one lemma per update of the state, an induction over
`Update`, and the few other endings of a step.
-/

open Sys2Proof.Claims

namespace Sys2Proof.Machine

/-! ### The invariant after each update -/

section

variable {s : State} (h : s.wf)

include h

theorem State.wf_extents (p : Nat) : ExtentsWf s.config.memSize (s.extents p) := by
  obtain ⟨-, -, -, -, -, -, howned, -⟩ := h
  unfold State.extents
  cases hf : tableFind s.owned p with
  | none => exact ⟨by simp, by simp⟩
  | some l => exact (howned _ (mem_of_tableFind hf)).2

theorem wf_setFile {p : Nat} {rf : RegFile} (hrf : rf.wf s.config) : (s.setFile p rf).wf := by
  obtain ⟨hsorted, hzero, hcur, hfiles, hmem, hosorted, howned, hconfig⟩ := h
  have hkeep : ∀ q, s.hasProc q = true → (s.setFile p rf).hasProc q = true := fun q hq => by
    simp only [State.hasProc, State.setFile_proc, tableFind_put] at hq ⊢
    split
    · rfl
    · exact hq
  refine ⟨tableSorted_put hsorted p rf, hkeep 0 hzero, hkeep _ hcur, fun e he => ?_, hmem, hosorted, howned,
    hconfig⟩
  obtain rfl | he := mem_tablePut he
  · exact hrf
  · exact hfiles e he

theorem wf_setReg (r : Reg) (v : Int) : (s.setReg r v).wf := by
  obtain ⟨hregs, hpc, hds, hf⟩ := State.wf_file h s.cur
  refine wf_setFile h ⟨fun r' hr' => ?_, by simpa, by simpa, by simpa⟩
  rw [RegFile.get_set]
  split
  · exact trunc_lt _ _
  · exact hregs r' hr'

theorem wf_setPc (v : Int) : (s.setPc v).wf := by
  obtain ⟨hregs, -, hds, hf⟩ := State.wf_file h s.cur
  exact wf_setFile h ⟨by simpa using hregs, trunc_lt _ _, hds, hf⟩

theorem wf_setDs (v : Int) : (s.setDs v).wf := by
  obtain ⟨hregs, hpc, -, hf⟩ := State.wf_file h s.cur
  exact wf_setFile h ⟨by simpa using hregs, hpc, trunc_lt _ _, hf⟩

theorem wf_setFlags {v : Byte} (hv : ReservedFlagsClear v) : (s.setFlags v).wf := by
  obtain ⟨hregs, hpc, hds, -⟩ := State.wf_file h s.cur
  exact wf_setFile h ⟨by simpa using hregs, hpc, hds, hv⟩

theorem State.flags_reserved : ReservedFlagsClear s.flags := (State.wf_file h s.cur).2.2.2

theorem wf_setCell {a : Nat} (ha : a < s.config.memSize) (v : Int) : (s.setCell a v).wf := by
  obtain ⟨hsorted, hzero, hcur, hfiles, hmem, hrest⟩ := h
  exact ⟨hsorted, hzero, hcur, hfiles, Memory.wf_write hmem ha (trunc_lt _ _), hrest⟩

theorem wf_allocate (p : Nat) {a n : Nat} (hn : 0 < n) (hfit : a + n ≤ s.config.memSize) :
    (s.allocate p a n).wf := by
  have hext := extentsWf_addExtent (State.wf_extents h p) (by omega : a < a + n) hfit
  obtain ⟨hsorted, hzero, hcur, hfiles, hmem, hosorted, howned, hconfig⟩ := h
  refine ⟨hsorted, hzero, hcur, hfiles, hmem, tableSorted_put hosorted _ _, fun e he => ?_, hconfig⟩
  obtain rfl | he := mem_tablePut he
  · exact ⟨addExtent_ne_nil _ _ _, hext⟩
  · exact howned e he

theorem wf_touch {a : Nat} (ha : a < s.config.memSize) : (s.touch a).wf := by
  obtain ht | ⟨_, ht⟩ := touch_cases s a <;> rw [ht]
  · exact h
  · exact wf_allocate h _ Nat.one_pos ha

theorem wf_advance (n : Nat) : (advance n s).wf := by
  unfold advance
  dsimp only
  split
  · exact wf_setPc h _
  · exact wf_setPc h _

/-- Any process of the table can become current. -/
theorem wf_setCur {p : Nat} (hp : s.hasProc p = true) : ({ s with cur := p } : State).wf := by
  obtain ⟨hsorted, hzero, -, hrest⟩ := h
  exact ⟨hsorted, hzero, hp, hrest⟩

theorem wf_trapEntry (c : Cause) : (trapEntry c s).wf := by
  obtain ⟨hregs, hpc, hds, hf⟩ := State.wf_file h 0
  have hset : (s.setFile 0 ((s.file 0).set .a (trunc s.config.xlen (c.code s.config)))).wf := by
    refine wf_setFile h ⟨fun r hr => ?_, by simpa, by simpa, by simpa⟩
    rw [RegFile.get_set]
    split
    · exact trunc_lt _ _
    · exact hregs r hr
  exact wf_setCur hset (by simp [State.hasProc])

/-- A process other than 0 and the next current one can leave the table. -/
theorem wf_removeProc {p q : Nat} (hp : p ≠ 0) (hq : s.hasProc q = true) (hpq : p ≠ q) :
    ({ s.removeProc p with cur := q } : State).wf := by
  obtain ⟨hsorted, hzero, -, hfiles, hmem, hosorted, howned, hconfig⟩ := h
  have hkeep : ∀ r, p ≠ r → s.hasProc r = true → (s.removeProc p).hasProc r = true := fun r hr hhas => by
    simpa [State.hasProc, hr] using hhas
  exact ⟨tableSorted_erase hsorted p, hkeep 0 hp hzero, hkeep q hpq hq, fun e he => hfiles e (mem_tableErase he),
    hmem, tableSorted_erase hosorted p, fun e he => howned e (mem_tableErase he), hconfig⟩

end

/-! ### The invariant after a step -/

theorem update_config {s u : State} (h : Update s u) : u.config = s.config := by
  induction h with
  | refl => rfl
  | _ => simp [*]

theorem update_cur {s u : State} (h : Update s u) : u.cur = s.cur := by
  induction h with
  | refl => rfl
  | _ => simp [*]

theorem update_wf {s u : State} (h : Update s u) (hs : s.wf) : u.wf := by
  induction h with
  | refl => exact hs
  | touch hu ha ih => exact wf_touch ih (update_config hu ▸ ha hs)
  | setReg _ r v ih => exact wf_setReg ih r v
  | setFlags _ v hv ih => exact wf_setFlags ih (hv.elim id fun hv => hv.trans (State.flags_reserved ih))
  | setPc _ v ih => exact wf_setPc ih v
  | setCell hu ha v ih => exact wf_setCell ih (update_config hu ▸ ha hs) v
  | setPriv _ b ih => exact ih
  | setInput _ l ih => exact ih
  | emit _ b ih => exact ih
  | advance _ n ih => exact wf_advance ih n

theorem wf_touchAll {s : State} (h : s.wf) {l : List Nat} (hl : ∀ a ∈ l, a < s.config.memSize) :
    (s.touchAll l).wf :=
  update_wf (update_touchAll .refl fun a ha _ => hl a ha) h

theorem fetchStops_wf {s u : State} (h : FetchStops s u) (hs : s.wf) : u.wf := by
  obtain ⟨l, hl, ⟨c, rfl⟩ | rfl⟩ := h
  · exact wf_trapEntry (wf_touchAll hs hl) c
  · exact wf_touchAll hs hl

theorem haltEnds_wf {ops : List Operand} {s t : State} (h : HaltEnds ops s (.next t)) (hs : s.wf) : t.wf := by
  obtain ⟨_, h⟩ | ⟨hcur, h⟩ := h <;> cases h
  · exact wf_setPc (s := s.report _) hs _
  · exact wf_removeProc (s := s.report _) hs hcur hs.2.1 hcur

theorem exec_wf {i : Instr} {s t : State} (h : exec i s = .next t) (hs : s.wf) : t.wf := by
  obtain (⟨u, hu, hup⟩ | ⟨c, l, hl, hu⟩) | ⟨ops, _, hu⟩ := exec_cases i s <;> rw [h] at hu
  · cases hu
    exact update_wf hup hs
  · cases hu
    exact wf_trapEntry (wf_touchAll hs fun a ha => hl a ha hs) c
  · exact haltEnds_wf hu hs

/-- Settles O19: by the endings of a step, each of which keeps the invariant. -/
theorem stepKeepsWellFormed : Obligations.StepKeepsWellFormed := by
  unfold Obligations.StepKeepsWellFormed
  intro s t hs h
  obtain ⟨_, rfl⟩ | ⟨_, ⟨_, hstop⟩ | ⟨i, l, _, hl, ⟨_, rfl⟩ | ⟨_, hexec⟩⟩⟩ := step_cases h
  · exact hs
  · exact fetchStops_wf hstop hs
  · exact hs
  · exact exec_wf hexec (wf_touchAll hs hl)

/-! ### The invariant after Reset and the host operations -/

theorem RegFile.wf_zero (c : Config) : RegFile.zero.wf c :=
  ⟨fun r _ => by rw [RegFile.get_zero]; exact Nat.two_pow_pos _, Nat.two_pow_pos _, Nat.two_pow_pos _, by decide⟩

/-- The state after Reset is well formed under every allowed configuration. -/
theorem wf_reset {c : Config} (hc : c.wellFormed = true) : ({ State.reset with config := c } : State).wf :=
  ⟨List.pairwise_singleton _ _, rfl, rfl, by simpa [State.reset] using RegFile.wf_zero c,
    ⟨List.Pairwise.nil, by simp [State.reset]⟩, List.Pairwise.nil, by simp [State.reset], hc⟩

/-- Settles O18: the fields of `State.reset`, read off, and `wf_reset`. -/
theorem resetLeavesTheStatedValues : Obligations.ResetLeavesTheStatedValues := by
  unfold Obligations.ResetLeavesTheStatedValues
  refine ⟨fun q => ?_, RegFile.get_zero, rfl, rfl, rfl, rfl, rfl, fun _ => rfl, fun _ _ => rfl, rfl, rfl, rfl, rfl,
    rfl, wf_reset Config.hardware_wellFormed⟩
  by_cases hq : q = 0 <;> simp [State.reset, tableFind, hq, eq_comm (a := 0)]

/-! ### The data pointers -/

/-- A part of the register files that the new file keeps is kept in every file. -/
theorem file_setFile_of_eq {α : Type} (g : RegFile → α) {s : State} {p : Nat} {rf : RegFile}
    (h : g rf = g (s.file p)) (q : Nat) : g ((s.setFile p rf).file q) = g (s.file q) := by
  rw [State.file_setFile]
  split
  · rename_i hq; rw [h, hq]
  · rfl

theorem file_advance_of_eq {α : Type} (g : RegFile → α) (hg : ∀ rf v, g { rf with pc := v } = g rf) (n : Nat)
    (s : State) (q : Nat) : g ((advance n s).file q) = g (s.file q) := by
  rw [State.file_congr (advance_proc n s)]
  exact file_setFile_of_eq g (hg _ _) q

theorem trapEntry_ds (c : Cause) (s : State) (q : Nat) : ((trapEntry c s).file q).ds = (s.file q).ds :=
  file_setFile_of_eq (s := s) RegFile.ds (RegFile.set_ds _ _ _) q

theorem update_ds {s u : State} (h : Update s u) (q : Nat) : (u.file q).ds = (s.file q).ds := by
  induction h with
  | refl => rfl
  | touch _ _ ih => rw [State.touch_file, ih]
  | setReg _ r v ih => exact (file_setFile_of_eq RegFile.ds (RegFile.set_ds _ _ _) q).trans ih
  | setFlags _ v _ ih => exact (file_setFile_of_eq RegFile.ds (by rfl) q).trans ih
  | setPc _ v ih => exact (file_setFile_of_eq RegFile.ds (by rfl) q).trans ih
  | setCell _ _ v ih => exact ih
  | setPriv _ b ih => exact ih
  | setInput _ l ih => exact ih
  | emit _ b ih => exact ih
  | advance _ n ih => exact (file_advance_of_eq RegFile.ds (fun _ _ => rfl) n _ q).trans ih

/-- HLT keeps every part of the register files but `pc`, for the processes that stay. -/
theorem haltEnds_file {α : Type} (g : RegFile → α) (hg : ∀ rf v, g { rf with pc := v } = g rf)
    {ops : List Operand} {s t : State} (h : HaltEnds ops s (.next t)) {q : Nat} (hq : t.hasProc q = true) :
    g (t.file q) = g (s.file q) := by
  obtain ⟨_, h⟩ | ⟨_, h⟩ := h <;> cases h
  · exact file_setFile_of_eq (s := s.report _) g (hg _ _) q
  · have hne : s.cur ≠ q := fun hcur => by simp [State.hasProc, hcur] at hq
    show g (((s.report _).removeProc s.cur).file q) = _
    rw [State.file_removeProc, if_neg hne, State.file_report]

theorem exec_ds {i : Instr} {s t : State} (h : exec i s = .next t) {q : Nat} (hq : t.hasProc q = true) :
    (t.file q).ds = (s.file q).ds := by
  obtain (⟨u, hu, hup⟩ | ⟨c, l, _, hu⟩) | ⟨ops, _, hu⟩ := exec_cases i s <;> rw [h] at hu
  · cases hu
    exact update_ds hup q
  · cases hu
    rw [trapEntry_ds, State.touchAll_file]
  · exact haltEnds_file RegFile.ds (fun _ _ => rfl) hu hq

/-- Settles O24: no ending of a step writes a data pointer. -/
theorem dataPointerIsNeverWritten : Obligations.DataPointerIsNeverWritten := by
  unfold Obligations.DataPointerIsNeverWritten
  intro s t q h hq
  obtain ⟨_, rfl⟩ | ⟨_, ⟨_, l, _, ⟨c, rfl⟩ | rfl⟩ | ⟨i, l, _, _, ⟨_, rfl⟩ | ⟨_, hexec⟩⟩⟩ := step_cases h
  · rfl
  · rw [trapEntry_ds, State.touchAll_file]
  · rw [State.file_raiseFatal, State.touchAll_file]
  · rfl
  · rw [exec_ds hexec hq, State.touchAll_file]

/-! ### The register files of the other processes -/

theorem update_find {s u : State} (h : Update s u) {q : Nat} (hq : q ≠ s.cur) :
    tableFind u.proc q = tableFind s.proc q := by
  induction h with
  | refl => rfl
  | touch _ _ ih => rw [State.touch_proc, ih]
  | setReg hu r v ih => rw [State.find_setReg _ _ _ _ (update_cur hu ▸ hq), ih]
  | setFlags hu v _ ih => rw [State.find_setFlags _ _ _ (update_cur hu ▸ hq), ih]
  | setPc hu v ih => rw [State.find_setPc _ _ _ (update_cur hu ▸ hq), ih]
  | setCell _ _ v ih => exact ih
  | setPriv _ b ih => exact ih
  | setInput _ l ih => exact ih
  | emit _ b ih => exact ih
  | advance hu n ih => rw [State.find_advance _ _ _ (update_cur hu ▸ hq), ih]

theorem haltEnds_find {ops : List Operand} {s t : State} (h : HaltEnds ops s (.next t)) {q : Nat}
    (hq : q ≠ s.cur) : tableFind t.proc q = tableFind s.proc q := by
  obtain ⟨_, h⟩ | ⟨_, h⟩ := h <;> cases h
  · exact State.find_setPc (s.report _) q _ hq
  · show tableFind ((s.report _).removeProc s.cur).proc q = _
    rw [State.removeProc_proc, tableFind_erase, if_neg hq.symm, State.report_proc]

/-- A step keeps the files of the processes that are not current, or it is trap entry after accesses. -/
theorem step_others {s t : State} (h : step s = .next t) :
    (∀ q, q ≠ s.cur → tableFind t.proc q = tableFind s.proc q) ∨ ∃ c l, t = trapEntry c (s.touchAll l) := by
  obtain ⟨_, rfl⟩ | ⟨_, ⟨_, l, _, ⟨c, rfl⟩ | rfl⟩ | ⟨i, l, _, _, ⟨_, rfl⟩ | ⟨_, hexec⟩⟩⟩ := step_cases h
  · exact .inl fun _ _ => rfl
  · exact .inr ⟨c, l, rfl⟩
  · exact .inl fun q _ => by rw [raiseFatal_proc, State.touchAll_proc]
  · exact .inl fun _ _ => rfl
  · obtain (⟨u, hu, hup⟩ | ⟨c, l', _, hu⟩) | ⟨ops, _, hu⟩ := exec_cases i (s.touchAll l) <;> rw [hexec] at hu
    · cases hu
      exact .inl fun q hq => by rw [update_find hup (by simpa using hq), State.touchAll_proc]
    · cases hu
      exact .inr ⟨c, l ++ l', by rw [State.touchAll_append]⟩
    · exact .inl fun q hq => by rw [haltEnds_find hu (by simpa using hq), State.touchAll_proc]

/-- Settles O25: of the other processes only process 0 is written, by trap entry, and of its file only the
accumulator. -/
theorem otherProcessesAreUntouched : Obligations.OtherProcessesAreUntouched := by
  unfold Obligations.OtherProcessesAreUntouched
  intro s t h
  obtain hkeep | ⟨c, l, rfl⟩ := step_others h
  · refine ⟨fun q hq _ => hkeep q hq, fun hcur => ?_⟩
    have hfile : t.file 0 = s.file 0 := by rw [State.file_eq, hkeep 0 (Ne.symm hcur), ← State.file_eq]
    rw [hfile]
    exact ⟨rfl, rfl, rfl, fun _ _ => rfl⟩
  · refine ⟨fun q _ hq => by rw [State.find_trapEntry _ _ _ hq, State.touchAll_proc], fun _ => ?_⟩
    rw [State.file_trapEntry, if_pos rfl, State.touchAll_file]
    exact ⟨by simp, by simp, by simp, fun r hr => by simp [hr]⟩

end Sys2Proof.Machine
end

section
/-!
PROOF. The host control interface (60_exceptions.md R233, R236 to R239, 70_reset_and_hazards.md R250 to R254): the
loader, the operations on processes, and that every operation keeps the machine invariant.
-/

open Sys2Proof.Claims

namespace Sys2Proof.Machine

/-! ### The loader's copy -/

/-- The machine after a permitted copy of an image: each byte's cell accessed and written, ascending (R252). -/
def placed : List Byte → Nat → State → State
  | [], _, s => s
  | b :: image, addr, s => placed image (addr + 1) ((s.touch addr).setCell addr b.toNat)

/-- The copy is made where all the cells are permitted, and refused otherwise (R252, D37). -/
theorem loadBytes_eq (image : List Byte) (addr : Nat) (s : State) :
    loadBytes image addr s =
      if s.permitsAll (fetchCells addr image.length) then some (placed image addr s) else none := by
  induction image generalizing addr s with
  | nil => rfl
  | cons b image ih =>
    have hpermits : ((s.touch addr).setCell addr b.toNat).permits = s.permits :=
      funext (s.touch_permits addr)
    rw [loadBytes, memWrite_eq, List.length_cons, fetchCells_succ, State.permitsAll_cons]
    by_cases h : s.permits addr = true
    · simp only [h, if_true, Bool.true_and, ih, State.permitsAll, hpermits]
      rfl
    · simp [h]

/-- The copy changes memory and the allocation table only. -/
theorem placed_withMemOwned (image : List Byte) (addr : Nat) (s : State) :
    { placed image addr s with mem := s.mem, owned := s.owned } = s := by
  induction image generalizing addr s with
  | nil => rfl
  | cons b image ih =>
    have hrest := congrArg (fun u : State => { u with mem := s.mem, owned := s.owned })
      (ih (addr + 1) ((s.touch addr).setCell addr b.toNat))
    exact hrest.trans (congrArg (fun u : State => { u with mem := s.mem }) (touch_withOwned s addr))

theorem permits_placed (image : List Byte) (addr : Nat) (s : State) : (placed image addr s).permits = s.permits :=
  calc (placed image addr s).permits
      = State.permits { placed image addr s with mem := s.mem, owned := s.owned } := rfl
    _ = s.permits := by rw [placed_withMemOwned]

theorem update_placed {s u : State} (h : Update s u) (image : List Byte) (addr : Nat)
    (hfit : addr + image.length ≤ s.config.memSize) : Update s (placed image addr u) := by
  induction image generalizing addr u with
  | nil => exact h
  | cons b image ih =>
    rw [List.length_cons] at hfit
    have hin : Inside s addr := fun _ => by omega
    exact ih ((h.touch hin).setCell hin _) (addr + 1) (by omega)

/-- What is owned after the copy: its cells are accessed as any others. -/
theorem owns_placed (image : List Byte) (addr : Nat) (s : State) (q b : Nat) :
    (placed image addr s).owns q b = s.ownsAfter (fetchCells addr image.length) q b := by
  induction image generalizing addr s with
  | nil => simp [placed, State.ownsAfter]
  | cons c image ih =>
    rw [List.length_cons, fetchCells_succ, ← State.owns_touchAll, State.touchAll_cons, State.owns_touchAll]
    exact ih (addr + 1) _

theorem placed_owned_of_priv {s : State} (h : s.priv = true) (image : List Byte) (addr : Nat) :
    (placed image addr s).owned = s.owned := by
  induction image generalizing addr s with
  | nil => rfl
  | cons b image ih =>
    rw [placed, touch_of_priv h, ih (by simpa using h), State.setCell_owned]

/-- The copy places the image, each byte whole, and changes no other cell (R252, R253). -/
theorem cell_placed (image : List Byte) (addr : Nat) (s : State) (hw : 8 ≤ s.config.cellw) (a : Nat) :
    (placed image addr s).cell a =
      if addr ≤ a ∧ a < addr + image.length then (image.getD (a - addr) 0).toNat else s.cell a := by
  induction image generalizing addr s with
  | nil => simp [placed]
  | cons b image ih =>
    have hbyte : b.toNat < 2 ^ s.config.cellw :=
      Nat.lt_of_lt_of_le b.isLt (Nat.pow_le_pow_right (by omega) hw)
    rw [placed, ih _ _ (by simpa using hw), List.length_cons, State.cell_setCell, State.touch_cell,
      State.touch_config, trunc_of_lt hbyte]
    by_cases h0 : a = addr
    · subst h0
      simp
    · by_cases h1 : addr + 1 ≤ a ∧ a < addr + 1 + image.length
      · have hidx : a - addr = (a - (addr + 1)) + 1 := by omega
        rw [if_pos h1, if_pos (by omega), hidx, List.getD_cons_succ]
      · rw [if_neg h1, if_neg h0, if_neg (by omega)]

/-! ### Load -/

/-- The header word, read back from two permitted cells (R62). -/
theorem loadHeader_ok {offset : Nat} {s : State} (h : s.permits offset = true) (h' : s.permits (offset + 1) = true) :
    loadHeader offset s =
      some (s.cell offset <<< 8 ||| s.cell (offset + 1), s.touchAll [offset, offset + 1]) := by
  simp [loadHeader, memRead_eq, h, h']

/-- The machine after a Load that is performed: the copy, the header read back, `DS` and `pc` set (R252). -/
def loadedState (image : List Byte) (offset : Nat) (s : State) : State :=
  let u := placed image offset s
  ((u.touchAll [offset, offset + 1]).setDs
    (offset + (u.cell offset <<< 8 ||| u.cell (offset + 1)) : Nat)).setPc (offset + 2 : Nat)

section

variable {s : State} {image : List Byte} {offset : Nat}

theorem hostLoad_short (h : image.length < 2) : hostLoad image offset s = .refused := by
  simp [hostLoad, h]

section

variable (hf : s.isFatal = false) (hlen : 2 ≤ image.length)

include hf hlen

theorem hostLoad_tooLarge (h : s.config.memSize < offset + image.length) :
    hostLoad image offset s = .done (raiseFatal .imageTooLarge s) := by
  simp [hostLoad, hf, Nat.not_lt.mpr hlen, h]

variable (hfit : offset + image.length ≤ s.config.memSize)

include hfit

theorem hostLoad_denied (h : s.permitsAll (fetchCells offset image.length) = false) :
    hostLoad image offset s = .done (trapEntry .memoryViolation s) := by
  simp [hostLoad, hf, Nat.not_lt.mpr hlen, Nat.not_lt.mpr hfit, loadBytes_eq, h]

theorem hostLoad_loaded (h : s.permitsAll (fetchCells offset image.length) = true) :
    hostLoad image offset s = .loaded image.length (loadedState image offset s) := by
  have hpermits := permits_placed image offset s
  have hall : ∀ a ∈ fetchCells offset image.length, s.permits a = true := List.all_eq_true.mp h
  have hheader := loadHeader_ok (s := placed image offset s) (offset := offset)
    (hpermits ▸ hall _ (mem_fetchCells.mpr (by omega))) (hpermits ▸ hall _ (mem_fetchCells.mpr (by omega)))
  simp only [hostLoad, hf, Nat.not_lt.mpr hlen, Nat.not_lt.mpr hfit, loadBytes_eq, h, hheader,
    Bool.false_or, decide_false, Bool.false_eq_true, if_false, if_true]
  rfl

end

/-- Everything Load can answer. -/
theorem hostLoad_cases (image : List Byte) (offset : Nat) (s : State) :
    hostLoad image offset s = .refused ∨
    hostLoad image offset s = .done (raiseFatal .imageTooLarge s) ∨
    hostLoad image offset s = .done (trapEntry .memoryViolation s) ∨
    2 ≤ image.length ∧ offset + image.length ≤ s.config.memSize ∧
      hostLoad image offset s = .loaded image.length (loadedState image offset s) := by
  by_cases hf : s.isFatal = true
  · exact .inl (by simp [hostLoad, hf])
  · rw [Bool.not_eq_true] at hf
    by_cases hlen : image.length < 2
    · exact .inl (hostLoad_short hlen)
    · rw [Nat.not_lt] at hlen
      by_cases hfit : s.config.memSize < offset + image.length
      · exact .inr (.inl (hostLoad_tooLarge hf hlen hfit))
      · rw [Nat.not_lt] at hfit
        by_cases hp : s.permitsAll (fetchCells offset image.length) = true
        · exact .inr (.inr (.inr ⟨hlen, hfit, hostLoad_loaded hf hlen hfit hp⟩))
        · exact .inr (.inr (.inl (hostLoad_denied hf hlen hfit (by simpa using hp))))

/-! ### The machine after a Load -/

/-- The header word is the first two bytes of the image, big-endian (R62). -/
theorem header_eq (hw : 8 ≤ s.config.cellw) (hlen : 2 ≤ image.length) :
    (placed image offset s).cell offset <<< 8 ||| (placed image offset s).cell (offset + 1) =
      (image.getD 0 0).toNat * 256 + (image.getD 1 0).toNat := by
  have hlow : (image.getD 1 0).toNat < 2 ^ 8 := (image.getD 1 0).isLt
  rw [cell_placed _ _ _ hw, cell_placed _ _ _ hw, if_pos (by omega), if_pos (by omega), Nat.sub_self,
    Nat.add_sub_cancel_left, ← Nat.shiftLeft_add_eq_or_of_lt hlow, Nat.shiftLeft_eq]

/-- Accesses change nothing but the allocation table. -/
theorem touchAll_withOwned (s : State) (l : List Nat) : { s.touchAll l with owned := s.owned } = s := by
  induction l generalizing s with
  | nil => rfl
  | cons a l ih =>
    have hrest := congrArg (fun u : State => { u with owned := s.owned }) (ih (s.touch a))
    exact hrest.trans (touch_withOwned s a)

/-- A Load changes the process table, memory and the allocation table only. -/
theorem loadedState_withOthers (image : List Byte) (offset : Nat) (s : State) :
    { loadedState image offset s with proc := s.proc, mem := s.mem, owned := s.owned } = s := by
  have htouch := congrArg (fun u : State => { u with proc := s.proc, mem := s.mem, owned := s.owned })
    (touchAll_withOwned (placed image offset s) [offset, offset + 1])
  exact htouch.trans (congrArg (fun u : State => { u with proc := s.proc }) (placed_withMemOwned image offset s))

theorem loadedState_priv (image : List Byte) (offset : Nat) (s : State) :
    (loadedState image offset s).priv = s.priv :=
  (congrArg State.priv (loadedState_withOthers image offset s) :)

theorem placed_proc (image : List Byte) (offset : Nat) (s : State) : (placed image offset s).proc = s.proc :=
  (congrArg State.proc (placed_withMemOwned image offset s) :)

theorem placed_cur (image : List Byte) (offset : Nat) (s : State) : (placed image offset s).cur = s.cur :=
  (congrArg State.cur (placed_withMemOwned image offset s) :)

theorem placed_config (image : List Byte) (offset : Nat) (s : State) : (placed image offset s).config = s.config :=
  (congrArg State.config (placed_withMemOwned image offset s) :)

theorem placed_records (image : List Byte) (offset : Nat) (s : State) : (placed image offset s).records = s.records :=
  (congrArg State.records (placed_withMemOwned image offset s) :)

theorem loadedState_cell (hw : 8 ≤ s.config.cellw) (a : Nat) :
    (loadedState image offset s).cell a =
      if offset ≤ a ∧ a < offset + image.length then (image.getD (a - offset) 0).toNat else s.cell a := by
  rw [← cell_placed _ _ _ hw]
  exact State.touchAll_cell _ _ a

@[simp] theorem State.find_setDs (s : State) (q : Nat) (v : Int) (h : q ≠ s.cur) :
    tableFind (s.setDs v).proc q = tableFind s.proc q := by
  simp [State.setDs, Ne.symm h]

/-- Only the file of the current process is written. -/
theorem loadedState_find {q : Nat} (hq : q ≠ s.cur) :
    tableFind (loadedState image offset s).proc q = tableFind s.proc q := by
  have hcur := placed_cur image offset s
  simp only [loadedState]
  rw [State.find_setPc _ _ _ (by simp [hcur, hq]), State.find_setDs _ _ _ (by simp [hcur, hq]),
    State.touchAll_proc, placed_proc]

/-- `DS` and `pc` of the current process are set from the header and the offset, no other register (R252). -/
theorem loadedState_file (hw : 8 ≤ s.config.cellw) (hlen : 2 ≤ image.length) :
    (loadedState image offset s).file s.cur = { s.file s.cur with
      pc := trunc s.config.xlen (offset + 2)
      ds := trunc s.config.xlen (offset + (image.getD 0 0).toNat * 256 + (image.getD 1 0).toNat) } := by
  have hfile : (placed image offset s).file s.cur = s.file s.cur :=
    State.file_congr (placed_proc image offset s) s.cur
  simp only [loadedState, header_eq hw hlen, State.file_setPc, State.file_setDs, State.setDs_cur,
    State.setDs_config, State.touchAll_cur, State.touchAll_config, State.touchAll_file, placed_cur, placed_config,
    hfile, if_true]
  push_cast
  rw [Int.add_assoc]

/-- The cells of the image are accessed, no others (R252). -/
theorem loadedState_owns (hlen : 2 ≤ image.length) (q a : Nat) :
    (loadedState image offset s).owns q a = s.ownsAfter (fetchCells offset image.length) q a := by
  have htouch : (loadedState image offset s).owns q a =
      ((placed image offset s).touchAll [offset, offset + 1]).owns q a := rfl
  rw [htouch, State.owns_touchAll, State.ownsAfter, owns_placed, placed_cur, placed_records]
  have hheader : ∀ b ∈ [offset, offset + 1], b ∈ fetchCells offset image.length := fun b hb => by
    simp only [List.mem_cons, List.not_mem_nil, or_false] at hb
    exact mem_fetchCells.mpr (by omega)
  have hany : ([offset, offset + 1].any fun b => b = a) = true →
      ((fetchCells offset image.length).any fun b => b = a) = true := fun h => by
    obtain ⟨b, hb, hba⟩ := List.any_eq_true.mp h
    exact List.any_eq_true.mpr ⟨b, hheader b hb, hba⟩
  rw [Bool.eq_iff_iff]
  simp only [State.ownsAfter, Bool.or_eq_true, Bool.and_eq_true]
  tauto

theorem loadedState_owned_of_priv (h : s.priv = true) : (loadedState image offset s).owned = s.owned := by
  have hp : (placed image offset s).priv = true :=
    (congrArg State.priv (placed_withMemOwned image offset s)).trans h
  show ((placed image offset s).touchAll [offset, offset + 1]).owned = _
  rw [State.touchAll_cons, State.touchAll_cons, State.touchAll_nil, touch_of_priv hp, touch_of_priv hp,
    placed_owned_of_priv h]

theorem loadedState_wf (hs : s.wf) (hlen : 2 ≤ image.length) (hfit : offset + image.length ≤ s.config.memSize) :
    (loadedState image offset s).wf := by
  have hu : (placed image offset s).wf := update_wf (update_placed .refl image offset hfit) hs
  refine wf_setPc (wf_setDs (wf_touchAll hu fun a ha => ?_) _) _
  rw [placed_config]
  simp only [List.mem_cons, List.not_mem_nil, or_false] at ha
  omega

end

/-- Settles O60: the four answers of Load, and the machine after one that is performed, field by field. -/
theorem loaderPlacesTheImage : Obligations.LoaderPlacesTheImage := by
  unfold Obligations.LoaderPlacesTheImage
  intro s image offset hc hf
  have hw : 8 ≤ s.config.cellw := by rw [Config.cellw_eq hc]; have := Config.xlen_ge hc; omega
  refine ⟨hostLoad_short, hostLoad_tooLarge hf, fun hlen hfit h => ?denied, fun hlen hfit h => ?loaded⟩
  case denied => exact ⟨_, hostLoad_denied hf hlen hfit h, traps_trapEntry_nil s .memoryViolation⟩
  case loaded =>
    exact ⟨_, hostLoad_loaded hf hlen hfit h, loadedState_cell hw, fun q => loadedState_find,
      loadedState_file hw hlen, loadedState_owns hlen, loadedState_owned_of_priv,
      loadedState_withOthers image offset s⟩

/-! ### The operations on processes -/

/-- After a fatal stop a step is the fault state (R233). -/
theorem step_of_isFatal {s : State} (h : s.isFatal = true) : ∃ r, step s = .fault (.stopped r) := by
  unfold State.isFatal at h
  split at h
  case h_1 r hr => exact ⟨r, by simp [step, hr]⟩
  case h_2 => cases h
  case h_3 => cases h

/-- After a fatal stop every operation but Reset and the supply of input is refused (R233, U27). -/
theorem hostPerform_of_isFatal {s : State} (h : s.isFatal = true) {op : HostOp} (hreset : op ≠ .reset)
    (hsupply : ∀ units, op ≠ .supply units) : hostPerform op s = .refused := by
  cases op with
  | reset => exact absurd rfl hreset
  | load image offset => simp [hostPerform, hostLoad, h]
  | admitProc p => simp [hostPerform, hostAdmit, h]
  | evictProc p => simp [hostPerform, hostEvict, h]
  | switchProc p => simp [hostPerform, hostSwitch, h]
  | allocate p addr size => simp [hostPerform, hostAllocate, h]
  | supply units => exact absurd rfl (hsupply units)
  | step =>
    obtain ⟨r, hr⟩ := step_of_isFatal h
    simp [hostPerform, hostStep, hr]

theorem owns_removeProc (s : State) (p q a : Nat) :
    (s.removeProc p).owns q a = (decide (q ≠ p) && s.owns q a) := by
  rw [← decide_eq_decide.mpr (ne_comm (a := p))]
  exact State.owns_release s p q a

/-- Settles O59: each operation by the test it makes first. -/
theorem hostProcessOperations : Obligations.HostProcessOperations := by
  unfold Obligations.HostProcessOperations
  refine ⟨fun s op hf hreset hsupply => ?_, fun s p hf =>
    ⟨fun hp => ?admitRefused, fun hp => ?admitDone, ?evictZero, fun h0 hp => ?evictTrap, fun h0 hp => ?evict, fun hp => ?switchTrap, fun hp => ?switch⟩⟩
  · rw [hostPerform_of_isFatal hf hreset hsupply]
    exact ⟨rfl, rfl⟩
  case admitRefused => simp [hostAdmit, hp]
  case admitDone =>
    refine ⟨s.setFile p RegFile.zero, by simp [hostAdmit, hf, hp], by simp, fun q hq => ?_, rfl⟩
    rw [State.setFile_proc, tableFind_put, if_neg hq.symm]
  case evictZero => simp [hostEvict]
  case evictTrap =>
    exact ⟨trapEntry .invalidProcessId s, by simp [hostEvict, hf, h0, hp], traps_trapEntry_nil s .invalidProcessId⟩
  case evict =>
    have hfind : ∀ q, q ≠ p → tableFind (s.removeProc p).proc q = tableFind s.proc q := fun q hq => by
      rw [State.removeProc_proc, tableFind_erase, if_neg hq.symm]
    by_cases hcur : p = s.cur
    · exact ⟨{ s.removeProc p with cur := 0, run := .halted }, by simp [hostEvict, hf, h0, hp, ← hcur],
        by simp, hfind, owns_removeProc s p, by simp [hcur], by simp [hcur], rfl⟩
    · exact ⟨s.removeProc p, by simp [hostEvict, hf, h0, hp, hcur], by simp, hfind, owns_removeProc s p,
        by simp [hcur], by simp [hcur], rfl⟩
  case switchTrap =>
    exact ⟨trapEntry .invalidProcessId s, by simp [hostSwitch, hf, hp], traps_trapEntry_nil s .invalidProcessId⟩
  case switch => simp [hostSwitch, hf, hp]

/-! ### The invariant -/

theorem hostLoad_wf {s : State} (hs : s.wf) (image : List Byte) (offset : Nat) :
    ((hostLoad image offset s).after s).wf := by
  obtain h | h | h | ⟨hlen, hfit, h⟩ := hostLoad_cases image offset s <;> rw [h]
  · exact hs
  · exact hs
  · exact wf_trapEntry hs _
  · exact loadedState_wf hs hlen hfit

theorem hostEvict_wf {s : State} (hs : s.wf) (p : Nat) : ((hostEvict p s).after s).wf := by
  unfold hostEvict
  split
  · exact hs
  · rename_i h
    have hp : p ≠ 0 := by simp_all
    split
    · exact wf_trapEntry hs _
    · split
      · exact wf_removeProc hs hp hs.2.1 hp
      · rename_i hcur
        exact wf_removeProc hs hp hs.2.2.1 hcur

theorem hostSwitch_wf {s : State} (hs : s.wf) (p : Nat) : ((hostSwitch p s).after s).wf := by
  unfold hostSwitch
  split
  · exact hs
  · split
    · exact wf_trapEntry hs _
    · rename_i hp
      have hhas : s.hasProc p = true := by simpa using hp
      exact wf_setCur hs hhas

theorem hostAllocate_wf {s : State} (hs : s.wf) (p addr size : Nat) : ((hostAllocate p addr size s).after s).wf := by
  unfold hostAllocate
  split
  · exact hs
  · rename_i h
    simp only [Bool.or_eq_true, decide_eq_true_eq, not_or] at h
    exact wf_allocate hs p (by omega) (by omega)

theorem hostStep_wf {s : State} (hs : s.wf) : ((hostStep s).after s).wf := by
  unfold hostStep
  cases h : step s with
  | next t => exact stepKeepsWellFormed s t hs h
  | fault r => exact hs
  | refused r => exact hs

/-- Settles O20: one lemma per operation. -/
theorem hostOperationsKeepWellFormed : Obligations.HostOperationsKeepWellFormed := by
  unfold Obligations.HostOperationsKeepWellFormed
  intro s op hs
  cases op with
  | reset => exact wf_reset (State.wf_config hs)
  | load image offset => exact hostLoad_wf hs image offset
  | admitProc p =>
    show ((hostAdmit p s).after s).wf
    unfold hostAdmit
    split
    · exact hs
    · exact wf_setFile hs (RegFile.wf_zero _)
  | evictProc p => exact hostEvict_wf hs p
  | switchProc p => exact hostSwitch_wf hs p
  | allocate p addr size => exact hostAllocate_wf hs p addr size
  | supply units => exact hs
  | step => exact hostStep_wf hs

end Sys2Proof.Machine
end

section
/-!
PROOF. Two runs of one instruction side by side. An instruction observes the current process, memory, the input,
the configuration and the access check, and nothing else: from two states with the same view it makes the same
changes, or the same trap (`exec_alike`). The changes are limited by what the instruction may write
(`Instr.writes`). The closed lists of writers and the noninterference statements are inductions over the changes.
-/

open Sys2Proof.Claims

namespace Sys2Proof.Machine

/-! ### What an instruction observes -/

/-- Everything an instruction can observe is the same in both states. -/
structure SameView (s s' : State) : Prop where
  file : s'.file s'.cur = s.file s.cur
  mem : s'.mem = s.mem
  inq : s'.inq = s.inq
  config : s'.config = s.config
  permits : s'.permits = s.permits

namespace SameView

theorem refl (s : State) : SameView s s := ⟨rfl, rfl, rfl, rfl, rfl⟩

variable {s s' : State} (hv : SameView s s')

include hv

theorem reg (r : Reg) : s'.reg r = s.reg r := by rw [State.reg, State.reg, hv.file]
theorem pc : s'.pc = s.pc := by rw [State.pc, State.pc, hv.file]
theorem flags : s'.flags = s.flags := by rw [State.flags, State.flags, hv.file]
theorem cell (a : Nat) : s'.cell a = s.cell a := by rw [State.cell, State.cell, hv.mem]
theorem nextPc (n : Nat) : s'.nextPc n = s.nextPc n := by rw [State.nextPc, State.nextPc, hv.pc]
theorem stackTop : s'.stackTop = s.stackTop := by rw [State.stackTop, State.stackTop, hv.config, hv.reg]
theorem relative (v : BitVec 14) : s'.relative v = s.relative v := by
  rw [State.relative, State.relative, hv.config, hv.pc]
theorem permitsAll (l : List Nat) : s'.permitsAll l = s.permitsAll l := congrArg l.all hv.permits
theorem regAt (k : Nat) : s'.regAt k = s.regAt k := by
  unfold State.regAt
  rw [hv.config]
  split
  · exact hv.reg _
  · rfl

theorem sourceValue (op : Operand) : sourceValue op s' = sourceValue op s := by
  unfold Machine.sourceValue
  rw [hv.regAt, hv.cell, hv.config, hv.pc]

theorem controlTarget (op : Operand) : controlTarget op s' = controlTarget op s := by
  unfold Machine.controlTarget
  rw [hv.regAt, hv.config, hv.pc]

theorem resolveTarget (op : Operand) : resolveTarget op s' = resolveTarget op s := by
  unfold Machine.resolveTarget
  rw [hv.config, hv.relative]

end SameView

/-! ### The changes an instruction makes -/

/-- What an instruction may write beside general registers, `pc` and the streams. -/
inductive Writes where
  | nothing
  | cell
  | flags
  | pulledFlags
  | priv (b : Bool)

/-- The instruction writes `PRIV`. -/
def Writes.isPriv : Writes → Bool
  | .priv _ => true
  | .nothing => false
  | .cell => false
  | .flags => false
  | .pulledFlags => false

/-- The updates of the state that instructions are made of. -/
inductive Change where
  | touch (a : Nat)
  | reg (r : Reg) (v : Int)
  | flags (v : Byte)
  | pc (v : Int)
  | cell (a : Nat) (v : Int)
  | priv (b : Bool)
  | input (l : List Byte)
  | emit (b : Byte)
  | advance (n : Nat)

/-- The state after a change: the model's own update. -/
def Change.apply : Change → State → State
  | .touch a, s => s.touch a
  | .reg r v, s => s.setReg r v
  | .flags v, s => s.setFlags v
  | .pc v, s => s.setPc v
  | .cell a v, s => s.setCell a v
  | .priv b, s => s.setPriv b
  | .input l, s => s.setInput l
  | .emit b, s => s.emit b
  | .advance n, s => Machine.advance n s

/-- The changes that an instruction started in `s` makes where it may write `w`. `V` is kept 0 but by a pull, and
the instructions that write `PRIV` make no access. -/
def Change.Allowed (w : Writes) (s : State) : Change → Prop
  | .touch _ => w.isPriv = false
  | .reg _ _ => True
  | .flags v => w = .pulledFlags ∨ w = .flags ∧ (v &&& flagV ≠ 0 → s.flags &&& flagV ≠ 0)
  | .pc _ => True
  | .cell _ _ => w = .cell
  | .priv b => w = .priv b
  | .input _ => True
  | .emit _ => True
  | .advance _ => True

/-- `u` comes from `s` and `u'` from `s'` by the same allowed changes. -/
inductive Alike (w : Writes) (s s' : State) : State → State → Prop where
  | start : Alike w s s' s s'
  | change {u u' : State} (h : Alike w s s' u u') (c : Change) (hc : c.Allowed w s) :
      Alike w s s' (c.apply u) (c.apply u')

/-- Two runs, from `s` and from `s'`, end alike: after the same changes, or in the same trap after the same
accesses. -/
def EndsAlike (w : Writes) (s s' : State) (r r' : Result) : Prop :=
  (∃ t t', r = .next t ∧ r' = .next t' ∧ Alike w s s' t t') ∨
    ∃ c l, r = .next (trapEntry c (s.touchAll l)) ∧ r' = .next (trapEntry c (s'.touchAll l))

section

variable {w : Writes} {s s' u u' : State}

theorem Alike.touch (h : Alike w s s' u u') (hw : w.isPriv = false) (a : Nat) :
    Alike w s s' (u.touch a) (u'.touch a) := h.change (.touch a) hw

theorem Alike.setReg (h : Alike w s s' u u') (r : Reg) (v : Int) :
    Alike w s s' (u.setReg r v) (u'.setReg r v) := h.change (.reg r v) trivial

theorem Alike.setPc (h : Alike w s s' u u') (v : Int) : Alike w s s' (u.setPc v) (u'.setPc v) :=
  h.change (.pc v) trivial

theorem Alike.setCell (h : Alike .cell s s' u u') (a : Nat) (v : Int) :
    Alike .cell s s' (u.setCell a v) (u'.setCell a v) := h.change (.cell a v) rfl

end

section

variable {w : Writes} {s s' : State}

theorem endsAlike_next {u u' : State} (h : Alike w s s' u u') : EndsAlike w s s' (.next u) (.next u') :=
  .inl ⟨u, u', rfl, rfl, h⟩

theorem endsAlike_finish {u u' : State} (h : Alike w s s' u u') (n : Nat) :
    EndsAlike w s s' (finish n u) (finish n u') := endsAlike_next (h.change (.advance n) trivial)

theorem endsAlike_trap (c : Cause) (l : List Nat) :
    EndsAlike w s s' (raiseTrap c (s.touchAll l)) (raiseTrap c (s'.touchAll l)) := .inr ⟨c, l, rfl, rfl⟩

theorem endsAlike_trap_nil (c : Cause) : EndsAlike w s s' (raiseTrap c s) (raiseTrap c s') := endsAlike_trap c []

variable (hv : SameView s s')

include hv

theorem endsAlike_copyReg (src dst : Reg) (ops : List Operand) :
    EndsAlike w s s' (copyReg src dst ops s) (copyReg src dst ops s') := by
  rw [copyReg, copyReg, hv.reg]
  exact endsAlike_finish (Alike.start.setReg dst _) _

theorem endsAlike_modifyReg (f : Nat → Int) (r : Reg) (ops : List Operand) :
    EndsAlike w s s' (modifyReg f r ops s) (modifyReg f r ops s') := by
  rw [modifyReg, modifyReg, hv.reg]
  exact endsAlike_finish (Alike.start.setReg r _) _

variable (hw : w.isPriv = false)

include hw

omit hv in
theorem alike_touchAll {u u' : State} (h : Alike w s s' u u') (l : List Nat) :
    Alike w s s' (u.touchAll l) (u'.touchAll l) := by
  induction l generalizing u u' with
  | nil => exact h
  | cons a l ih => exact ih (h.touch hw a)

omit hw in
theorem endsAlike_withOperand (ct : Bool) (ops : List Operand) {k k' : Nat → State → Result}
    (h : ∀ m l, EndsAlike w s s' (k m (s.touchAll l)) (k' m (s'.touchAll l))) :
    EndsAlike w s s' (withOperand ct ops s k) (withOperand ct ops s' k') := by
  cases ops with
  | nil => exact endsAlike_trap_nil _
  | cons op rest =>
    cases ct with
    | true =>
      rw [withOperand_control, withOperand_control, hv.controlTarget]
      exact h _ []
    | false =>
      rw [withOperand_source, withOperand_source, hv.permitsAll, hv.sourceValue]
      split
      · exact h _ _
      · exact endsAlike_trap_nil _

theorem endsAlike_loadReg (r : Reg) (ops : List Operand) :
    EndsAlike w s s' (loadReg r ops s) (loadReg r ops s') :=
  endsAlike_withOperand hv _ _ fun m l =>
    endsAlike_finish ((alike_touchAll hw .start l).setReg r m) _

theorem endsAlike_accumulate (f : Nat → Nat → Int) (ops : List Operand) :
    EndsAlike w s s' (accumulate f ops s) (accumulate f ops s') :=
  endsAlike_withOperand hv _ _ fun m l => by
    rw [State.touchAll_reg, State.touchAll_reg, hv.reg]
    exact endsAlike_finish ((alike_touchAll hw .start l).setReg .a _) _

theorem endsAlike_accumulateDivide (f : Nat → Nat → Int) (ops : List Operand) :
    EndsAlike w s s' (accumulateDivide f ops s) (accumulateDivide f ops s') :=
  endsAlike_withOperand hv _ _ fun m l => by
    rw [State.touchAll_reg, State.touchAll_reg, hv.reg]
    split
    · exact endsAlike_trap _ l
    · exact endsAlike_finish ((alike_touchAll hw .start l).setReg .a _) _

theorem endsAlike_branch (b : Bool) (ops : List Operand) :
    EndsAlike w s s' (branch b ops s) (branch b ops s') :=
  endsAlike_withOperand hv _ _ fun t l => by
    split
    · exact endsAlike_next ((alike_touchAll hw .start l).setPc t)
    · exact endsAlike_finish (alike_touchAll hw .start l) _

theorem endsAlike_jmp (ops : List Operand) : EndsAlike w s s' (execJmp ops s) (execJmp ops s') :=
  endsAlike_withOperand hv _ _ fun t l =>
    endsAlike_next ((alike_touchAll hw .start l).setPc t)

theorem endsAlike_popValue {k : Nat → State → State} (ops : List Operand)
    (hk : ∀ v u u', Alike w s s' u u' → Alike w s s' (k v u) (k v u')) :
    EndsAlike w s s' (popValue k ops s) (popValue k ops s') := by
  rw [popValue, popValue, pop_eq, pop_eq, hv.permits, hv.stackTop, hv.cell]
  by_cases hp : s.permits s.stackTop = true
  · simp only [hp, if_true]
    exact endsAlike_finish (hk _ _ _ ((alike_touchAll hw .start [s.stackTop]).setReg .sp _)) _
  · simp only [hp]
    exact endsAlike_trap_nil _

theorem endsAlike_returnPop : EndsAlike w s s' (returnPop s) (returnPop s') := by
  rw [returnPop, returnPop, pop_eq, pop_eq, hv.permits, hv.stackTop, hv.cell]
  by_cases hp : s.permits s.stackTop = true
  · simp only [hp, if_true]
    exact endsAlike_next
      (((alike_touchAll hw .start [s.stackTop]).setReg .sp _).setPc _)
  · simp only [hp]
    exact endsAlike_trap_nil _

end

/-! The instructions that write `F`. -/

/-- Setting another flag does not set `V`. -/
theorem overflow_of_setFlag {m f : Byte} (hm : m &&& flagV = 0) (h : setFlag m f &&& flagV ≠ 0) :
    f &&& flagV ≠ 0 := by
  have heq : setFlag m f &&& flagV = f &&& flagV := by
    ext i hi
    have hbit := congrArg (fun v => v[i]) hm
    simp only [setFlag, BitVec.getElem_and, BitVec.getElem_or] at hbit ⊢
    cases h1 : m[i] <;> simp_all
  exact heq ▸ h

/-- Clearing a flag does not set `V`. -/
theorem overflow_of_clearFlag {m f : Byte} (h : clearFlag m f &&& flagV ≠ 0) : f &&& flagV ≠ 0 := fun hf => h (by
  rw [clearFlag, BitVec.and_assoc, BitVec.and_comm (~~~m), ← BitVec.and_assoc, hf]
  exact BitVec.zero_and)

section

variable {s s' : State} (hv : SameView s s')

include hv

omit hv in
/-- A write of flags that sets no `V` that was clear. -/
theorem endsAlike_writeFlags {u u' : State} (h : Alike .flags s s' u u') {v : Byte}
    (hV : v &&& flagV ≠ 0 → s.flags &&& flagV ≠ 0) (n : Nat) :
    EndsAlike .flags s s' (finish n (u.setFlags v)) (finish n (u'.setFlags v)) :=
  endsAlike_finish (h.change (.flags v) (.inr ⟨rfl, hV⟩)) n

theorem endsAlike_compareReg (r : Reg) (ops : List Operand) :
    EndsAlike .flags s s' (compareReg r ops s) (compareReg r ops s') :=
  endsAlike_withOperand hv _ _ fun m l => by
    rw [State.touchAll_reg, State.touchAll_reg, hv.reg]
    refine endsAlike_writeFlags (alike_touchAll rfl .start l) (fun h => absurd ?_ h) _
    unfold compareFlags
    split <;> split <;> split <;> rfl

theorem endsAlike_modifyFlags {f : Byte → Byte} (hf : ∀ b, f b &&& flagV ≠ 0 → b &&& flagV ≠ 0)
    (ops : List Operand) : EndsAlike .flags s s' (modifyFlags f ops s) (modifyFlags f ops s') := by
  rw [modifyFlags, modifyFlags, hv.flags]
  exact endsAlike_writeFlags .start (hf _) _

theorem endsAlike_bit (ops : List Operand) : EndsAlike .flags s s' (execBit ops s) (execBit ops s') :=
  endsAlike_withOperand hv _ _ fun m l => by
    rw [State.touchAll_reg, State.touchAll_reg, hv.reg, State.touchAll_flags, State.touchAll_flags, hv.flags]
    refine endsAlike_writeFlags (alike_touchAll rfl .start l) ?_ _
    unfold bitTestFlags
    split
    · exact fun h => overflow_of_setFlag (m := flagZ) rfl h
    · exact fun h => overflow_of_clearFlag h

/-! The instructions that write a cell. -/

theorem endsAlike_withTarget {w : Writes} (ops : List Operand) {k k' : Target → Result}
    (h : ∀ t, EndsAlike w s s' (k t) (k' t)) : EndsAlike w s s' (withTarget ops s k) (withTarget ops s' k') := by
  cases ops with
  | nil => exact endsAlike_trap_nil _
  | cons op rest =>
    simp only [withTarget, hv.resolveTarget]
    cases resolveTarget op s with
    | none => exact endsAlike_trap_nil _
    | some t => exact h t

theorem endsAlike_storeReg (r : Reg) (ops : List Operand) :
    EndsAlike .cell s s' (storeReg r ops s) (storeReg r ops s') := by
  unfold storeReg
  rw [hv.reg]
  refine endsAlike_withTarget hv ops fun t => ?_
  cases t with
  | reg r' => exact endsAlike_finish (Alike.start.setReg r' _) _
  | cell a =>
    simp only [writeTarget, memWrite_eq, hv.permits]
    by_cases hp : s.permits a = true
    · simp only [hp, if_true]
      exact endsAlike_finish (((Alike.start (w := .cell)).touch rfl a).setCell a _) _
    · simp only [hp]
      exact endsAlike_trap_nil _

theorem endsAlike_modifyTarget (f : Nat → Int) (ops : List Operand) :
    EndsAlike .cell s s' (modifyTarget f ops s) (modifyTarget f ops s') := by
  unfold modifyTarget
  refine endsAlike_withTarget hv ops fun t => ?_
  cases t with
  | reg r =>
    simp only [readTarget, writeTarget, hv.reg]
    exact endsAlike_finish (Alike.start.setReg r _) _
  | cell a =>
    simp only [readTarget, memRead_eq, hv.permits, hv.cell]
    by_cases hp : s.permits a = true
    · simp only [hp, if_true, writeTarget, memWrite_eq, State.touch_permits, hv.permits]
      exact endsAlike_finish
        ((((Alike.start (w := .cell)).touch rfl a).touch rfl a).setCell a _) _
    · simp only [hp]
      exact endsAlike_trap_nil _

theorem endsAlike_pushValue (v : Nat) (ops : List Operand) :
    EndsAlike .cell s s' (pushValue v ops s) (pushValue v ops s') := by
  rw [pushValue, pushValue, push_eq, push_eq, hv.permits, hv.reg]
  by_cases hp : s.permits (s.reg .sp) = true
  · simp only [hp, if_true]
    exact endsAlike_finish
      ((((Alike.start (w := .cell)).touch rfl _).setCell _ v).setReg .sp _) _
  · simp only [hp]
    exact endsAlike_trap_nil _

theorem endsAlike_jsr (ops : List Operand) : EndsAlike .cell s s' (execJsr ops s) (execJsr ops s') :=
  endsAlike_withOperand hv _ _ fun t l => by
    have hnext : ∀ u : State, (u.touchAll l).nextPc ops.length = u.nextPc ops.length := fun u => by
      rw [State.nextPc, State.touchAll_pc]; rfl
    simp only [push_eq, State.touchAll_permits, State.touchAll_reg, State.touchAll_config, hnext, hv.permits, hv.reg,
      hv.config, hv.nextPc]
    by_cases hp : s.permits (s.reg .sp) = true
    · simp only [hp, if_true]
      have hread := alike_touchAll (w := .cell) (s := s) (s' := s') rfl .start l
      exact endsAlike_next ((((hread.touch rfl _).setCell _ _).setReg .sp _).setPc t)
    · simp only [hp]
      exact endsAlike_trap _ l

/-! The instructions that write `PRIV`, and the devices. -/

omit hv in
theorem endsAlike_setPriv (b : Bool) (n : Nat) :
    EndsAlike (.priv b) s s' (finish n (s.setPriv b)) (finish n (s'.setPriv b)) :=
  endsAlike_finish (Alike.start.change (.priv b) rfl) _

theorem endsAlike_inp {w : Writes} (ops : List Operand) : EndsAlike w s s' (execInp ops s) (execInp ops s') := by
  unfold execInp
  rw [hv.inq]
  split
  · exact endsAlike_next .start
  · exact endsAlike_finish ((Alike.start.change (.input _) trivial).setReg .a _) _

theorem endsAlike_out {w : Writes} (ops : List Operand) : EndsAlike w s s' (execOut ops s) (execOut ops s') := by
  unfold execOut
  rw [hv.reg]
  exact endsAlike_finish (Alike.start.change (.emit _) trivial) _

end

/-! ### Every instruction -/

/-- What an instruction may write: the lists of 10_state.md R28, 20_memory.md R64 and 60_exceptions.md R232. -/
def writesOf : Instr → Writes
  | .sta _ | .stx _ | .sty _ | .inc _ | .dec _ | .jsr _ | .pha _ | .php _ => .cell
  | .bit _ | .sec _ | .clc _ | .sed _ | .cld _ | .clv _ | .cmp _ | .cpx _ | .cpy _ => .flags
  | .plp _ => .pulledFlags
  | .clp _ => .priv false
  | .swt _ => .priv true
  | _ => .nothing

/-- Every instruction but HLT makes the same changes from two states with the same view, and none that it may not
make. -/
theorem exec_alike {s s' : State} (hv : SameView s s') (i : Instr) (hi : ∀ ops, i ≠ .hlt ops) :
    EndsAlike (writesOf i) s s' (exec i s) (exec i s') := by
  cases i
  case hlt ops => exact absurd rfl (hi ops)
  case nop ops => exact endsAlike_finish .start _
  case syscall ops => exact endsAlike_trap_nil .syscall
  case int ops =>
    show EndsAlike _ s s' (execInt ops s) (execInt ops s')
    rw [execInt, execInt, hv.reg]
    exact endsAlike_trap_nil _
  case lda ops => exact endsAlike_loadReg hv rfl .a ops
  case ldx ops => exact endsAlike_loadReg hv rfl .x ops
  case ldy ops => exact endsAlike_loadReg hv rfl .y ops
  case sta ops => exact endsAlike_storeReg hv .a ops
  case stx ops => exact endsAlike_storeReg hv .x ops
  case sty ops => exact endsAlike_storeReg hv .y ops
  case tax ops => exact endsAlike_copyReg hv .a .x ops
  case tay ops => exact endsAlike_copyReg hv .a .y ops
  case tsx ops => exact endsAlike_copyReg hv .sp .x ops
  case txa ops => exact endsAlike_copyReg hv .x .a ops
  case txs ops => exact endsAlike_copyReg hv .x .sp ops
  case tya ops => exact endsAlike_copyReg hv .y .a ops
  case inc ops | dec ops =>
    simp only [exec, execInc, execDec]
    exact endsAlike_modifyTarget hv _ ops
  case ina ops | shl ops | lsr ops | rol ops | ror ops =>
    simp only [exec, execIna, execShl, execLsr, execRol, execRor, hv.config]
    exact endsAlike_modifyReg hv _ .a ops
  case inx ops | dex ops =>
    simp only [exec, execInx, execDex]
    exact endsAlike_modifyReg hv _ .x ops
  case iny ops | dey ops =>
    simp only [exec, execIny, execDey]
    exact endsAlike_modifyReg hv _ .y ops
  case add ops | sub ops | mul ops | and ops | ora ops | xor ops =>
    simp only [exec, execAdd, execSub, execMul, execAnd, execOra, execXor]
    exact endsAlike_accumulate hv rfl _ ops
  case div ops | mod ops =>
    simp only [exec, execDiv, execMod]
    exact endsAlike_accumulateDivide hv rfl _ ops
  case bit ops => exact endsAlike_bit hv ops
  case jmp ops => exact endsAlike_jmp hv rfl ops
  case jsr ops => exact endsAlike_jsr hv ops
  case rts ops | rti ops => exact endsAlike_returnPop hv rfl
  case bcc ops | bcs ops | beq ops | bne ops | bmi ops | bpl ops | bvc ops | bvs ops =>
    simp only [exec, execBcc, execBcs, execBeq, execBne, execBmi, execBpl, execBvc, execBvs, hv.flags]
    exact endsAlike_branch hv rfl _ ops
  case sec ops => exact endsAlike_modifyFlags hv (fun _ => overflow_of_setFlag (m := flagC) rfl) ops
  case sed ops => exact endsAlike_modifyFlags hv (fun _ => overflow_of_setFlag (m := flagD) rfl) ops
  case clc ops | cld ops | clv ops => exact endsAlike_modifyFlags hv (fun _ => overflow_of_clearFlag) ops
  case pha ops =>
    show EndsAlike _ s s' (execPha ops s) (execPha ops s')
    rw [execPha, execPha, hv.reg]
    exact endsAlike_pushValue hv _ ops
  case php ops =>
    show EndsAlike _ s s' (execPhp ops s) (execPhp ops s')
    rw [execPhp, execPhp, hv.flags]
    exact endsAlike_pushValue hv _ ops
  case pla ops => exact endsAlike_popValue hv rfl ops fun v u u' h => h.setReg .a v
  case plp ops => exact endsAlike_popValue hv rfl ops fun v u u' h => h.change (.flags _) (.inl rfl)
  case cmp ops => exact endsAlike_compareReg hv .a ops
  case cpx ops => exact endsAlike_compareReg hv .x ops
  case cpy ops => exact endsAlike_compareReg hv .y ops
  case clp ops => exact endsAlike_setPriv false _
  case swt ops => exact endsAlike_setPriv true _
  case inp ops => exact endsAlike_inp hv ops
  case out ops => exact endsAlike_out hv ops

/-- One run: an instruction other than HLT ends after changes it may make, or in a trap after accesses. -/
theorem exec_changes {i : Instr} {s t : State} (h : exec i s = .next t) (hi : ∀ ops, i ≠ .hlt ops) :
    Alike (writesOf i) s s t t ∨ ∃ c l, t = trapEntry c (s.touchAll l) := by
  obtain ⟨u, u', hu, hu', halike⟩ | ⟨c, l, hu, _⟩ := exec_alike (.refl s) i hi
  · rw [h] at hu hu'
    cases hu
    cases hu'
    exact .inl halike
  · rw [h] at hu
    cases hu
    exact .inr ⟨c, l, rfl⟩

/-! ### What each change leaves as it was -/

@[simp] theorem Change.apply_cur (c : Change) (u : State) : (c.apply u).cur = u.cur := by
  cases c <;> simp [Change.apply]

@[simp] theorem Change.apply_config (c : Change) (u : State) : (c.apply u).config = u.config := by
  cases c <;> simp [Change.apply]

theorem Change.apply_mem {c : Change} (hc : ∀ a v, c ≠ .cell a v) (u : State) : (c.apply u).mem = u.mem := by
  cases c
  case cell a v => exact absurd rfl (hc a v)
  all_goals simp [Change.apply]

theorem Change.apply_priv {c : Change} (hc : ∀ b, c ≠ .priv b) (u : State) : (c.apply u).priv = u.priv := by
  cases c
  case priv b => exact absurd rfl (hc b)
  all_goals simp [Change.apply]

theorem Change.apply_owned {c : Change} (hc : ∀ a, c ≠ .touch a) (u : State) : (c.apply u).owned = u.owned := by
  cases c
  case touch a => exact absurd rfl (hc a)
  all_goals simp [Change.apply]

theorem Change.apply_flags {c : Change} (hc : ∀ v, c ≠ .flags v) (u : State) (q : Nat) :
    ((c.apply u).file q).f = (u.file q).f := by
  cases c
  case flags v => exact absurd rfl (hc v)
  case reg r v => exact file_setFile_of_eq RegFile.f (RegFile.set_f _ _ _) q
  case pc v => exact file_setFile_of_eq RegFile.f (by rfl) q
  case advance n => exact file_advance_of_eq RegFile.f (fun _ _ => rfl) n u q
  all_goals simp [Change.apply]

section

variable {w : Writes} {s s' u u' : State} (h : Alike w s s' u u')

include h

theorem alike_cur : u.cur = s.cur := by
  induction h with
  | start => rfl
  | change _ c _ ih => rw [Change.apply_cur, ih]

theorem alike_config : u.config = s.config := by
  induction h with
  | start => rfl
  | change _ c _ ih => rw [Change.apply_config, ih]

theorem alike_mem (hw : w ≠ .cell) : u.mem = s.mem := by
  induction h with
  | start => rfl
  | change _ c hc ih =>
    rw [Change.apply_mem _ _, ih]
    rintro a v rfl
    exact hw hc

theorem alike_priv : u.priv = s.priv ∨ w = .priv u.priv := by
  induction h with
  | start => exact .inl rfl
  | @change u u' _ c hc ih =>
    by_cases hp : ∃ b, c = .priv b
    · obtain ⟨b, rfl⟩ := hp
      exact .inr hc
    · rwa [Change.apply_priv (fun b hb => hp ⟨b, hb⟩)]

theorem alike_flags (hw : w ≠ .flags ∧ w ≠ .pulledFlags) (q : Nat) : (u.file q).f = (s.file q).f := by
  induction h with
  | start => rfl
  | change _ c hc ih =>
    rw [Change.apply_flags _ _, ih]
    rintro v rfl
    exact hc.elim hw.2 fun hc => hw.1 hc.1

/-- `V` is set by a pull only, and in the current process only. -/
theorem alike_overflow {q : Nat} (hw : w = .pulledFlags → q ≠ s.cur) (hV : (u.file q).f &&& flagV ≠ 0) :
    (s.file q).f &&& flagV ≠ 0 := by
  induction h with
  | start => exact hV
  | change hu c hc ih =>
    by_cases hf : ∃ v, c = .flags v
    · obtain ⟨v, rfl⟩ := hf
      simp only [Change.apply, State.file_setFlags, alike_cur hu] at hV
      split at hV
      · rename_i hq
        subst hq
        exact hc.elim (fun hpull => absurd rfl (hw hpull)) fun hset => hset.2 hV
      · exact ih hV
    · rw [Change.apply_flags fun v hv => hf ⟨v, hv⟩] at hV
      exact ih hV

end

/-! ### The closed lists of writers -/

theorem mem_cellWriters {i : Instr} (h : writesOf i = .cell) : ∃ mk ∈ cellWriters, i = mk i.operands := by
  cases i
  case sta ops => exact ⟨Instr.sta, by simp [cellWriters], rfl⟩
  case stx ops => exact ⟨Instr.stx, by simp [cellWriters], rfl⟩
  case sty ops => exact ⟨Instr.sty, by simp [cellWriters], rfl⟩
  case inc ops => exact ⟨Instr.inc, by simp [cellWriters], rfl⟩
  case dec ops => exact ⟨Instr.dec, by simp [cellWriters], rfl⟩
  case jsr ops => exact ⟨Instr.jsr, by simp [cellWriters], rfl⟩
  case pha ops => exact ⟨Instr.pha, by simp [cellWriters], rfl⟩
  case php ops => exact ⟨Instr.php, by simp [cellWriters], rfl⟩
  all_goals cases h

theorem eq_plp {i : Instr} (h : writesOf i = .pulledFlags) : i = .plp i.operands := by
  cases i
  case plp ops => rfl
  all_goals cases h

theorem eq_clp {i : Instr} (h : writesOf i = .priv false) : i = .clp i.operands := by
  cases i
  case clp ops => rfl
  all_goals cases h

theorem eq_swt {i : Instr} (h : writesOf i = .priv true) : i = .swt i.operands := by
  cases i
  case swt ops => rfl
  all_goals cases h

theorem mem_flagWriters {i : Instr} (h : writesOf i = .flags ∨ writesOf i = .pulledFlags) :
    ∃ mk ∈ flagWriters, i = mk i.operands := by
  cases i
  case bit ops => exact ⟨Instr.bit, by simp [flagWriters], rfl⟩
  case sec ops => exact ⟨Instr.sec, by simp [flagWriters], rfl⟩
  case clc ops => exact ⟨Instr.clc, by simp [flagWriters], rfl⟩
  case sed ops => exact ⟨Instr.sed, by simp [flagWriters], rfl⟩
  case cld ops => exact ⟨Instr.cld, by simp [flagWriters], rfl⟩
  case clv ops => exact ⟨Instr.clv, by simp [flagWriters], rfl⟩
  case plp ops => exact ⟨Instr.plp, by simp [flagWriters], rfl⟩
  case cmp ops => exact ⟨Instr.cmp, by simp [flagWriters], rfl⟩
  case cpx ops => exact ⟨Instr.cpx, by simp [flagWriters], rfl⟩
  case cpy ops => exact ⟨Instr.cpy, by simp [flagWriters], rfl⟩
  all_goals exact absurd h (by simp [writesOf])

theorem trapEntry_flags (c : Cause) (s : State) (q : Nat) : ((trapEntry c s).file q).f = (s.file q).f :=
  file_setFile_of_eq (s := s) RegFile.f (RegFile.set_f _ _ _) q

/-- HLT, or everything else. -/
theorem eq_hlt_or (i : Instr) : (∃ ops, i = .hlt ops) ∨ ∀ ops, i ≠ .hlt ops := by
  by_cases h : ∃ ops, i = .hlt ops
  · exact .inl h
  · exact .inr fun ops hops => h ⟨ops, hops⟩

/-- Settles O21: flags are written by `Change.flags` alone, which the listed instructions alone may make. -/
theorem flagWritersAreClosed : Obligations.FlagWritersAreClosed := by
  unfold Obligations.FlagWritersAreClosed
  intro i s t h hnone q hq
  obtain ⟨ops, rfl⟩ | hi := eq_hlt_or i
  · exact haltEnds_file RegFile.f (fun _ _ => rfl) (h ▸ exec_hlt ops s) hq
  · have hw : ¬(writesOf i = .flags ∨ writesOf i = .pulledFlags) := fun hw => by
      obtain ⟨mk, hmk, hmake⟩ := mem_flagWriters hw
      exact hnone mk hmk hmake
    obtain halike | ⟨c, l, rfl⟩ := exec_changes h hi
    · exact alike_flags halike (not_or.mp hw) q
    · rw [trapEntry_flags, State.touchAll_file]

/-- Settles O22: only a pull may set `V`. -/
theorem overflowIsSetOnlyByPlp : Obligations.OverflowIsSetOnlyByPlp := by
  unfold Obligations.OverflowIsSetOnlyByPlp
  intro i s t q h hq hset hclear
  obtain ⟨ops, rfl⟩ | hi := eq_hlt_or i
  · rw [haltEnds_file RegFile.f (fun _ _ => rfl) (h ▸ exec_hlt ops s) hq] at hset
    exact absurd hclear hset
  · obtain halike | ⟨c, l, rfl⟩ := exec_changes h hi
    · by_cases hpull : writesOf i = .pulledFlags ∧ q = s.cur
      · exact ⟨hpull.2, eq_plp hpull.1⟩
      · exact absurd hclear (alike_overflow halike (fun hw hcur => hpull ⟨hw, hcur⟩) hset)
    · rw [trapEntry_flags, State.touchAll_file] at hset
      exact absurd hclear hset

/-- HLT changes neither memory nor `PRIV`. -/
theorem haltEnds_mem_priv {ops : List Operand} {s t : State} (h : HaltEnds ops s (.next t)) :
    t.mem = s.mem ∧ t.priv = s.priv := by
  obtain ⟨_, h⟩ | ⟨_, h⟩ := h <;> cases h <;> exact ⟨rfl, rfl⟩

/-- Settles O23: cells are written by `Change.cell` alone, which the listed instructions alone may make. -/
theorem onlyStoresWriteMemory : Obligations.OnlyStoresWriteMemory := by
  unfold Obligations.OnlyStoresWriteMemory
  intro i s t h hnone a
  suffices hmem : t.mem = s.mem by rw [State.cell, State.cell, hmem]
  obtain ⟨ops, rfl⟩ | hi := eq_hlt_or i
  · exact (haltEnds_mem_priv (h ▸ exec_hlt ops s)).1
  · have hw : writesOf i ≠ .cell := fun hw => by
      obtain ⟨mk, hmk, hmake⟩ := mem_cellWriters hw
      exact hnone mk hmk hmake
    obtain halike | ⟨c, l, rfl⟩ := exec_changes h hi
    · exact alike_mem halike hw
    · rw [trapEntry_mem, State.touchAll_mem]

/-! ### Privilege -/

/-- A step keeps `PRIV`, or executes the instruction that writes its new value, or is trap entry after accesses. -/
theorem step_priv {s t : State} (h : step s = .next t) :
    t.priv = s.priv ∨ (∃ i u, fetch s = .ok i u ∧ writesOf i = .priv t.priv) ∨
      ∃ c l, t = trapEntry c (s.touchAll l) := by
  obtain ⟨_, rfl⟩ | ⟨_, ⟨_, l, _, ⟨c, rfl⟩ | rfl⟩ | ⟨i, l, hf, _, ⟨_, rfl⟩ | ⟨_, hexec⟩⟩⟩ := step_cases h
  · exact .inl rfl
  · exact .inr (.inr ⟨c, l, rfl⟩)
  · exact .inl (by rw [raiseFatal_priv, State.touchAll_priv])
  · exact .inl rfl
  · obtain ⟨ops, rfl⟩ | hi := eq_hlt_or i
    · exact .inl (by rw [(haltEnds_mem_priv (hexec ▸ exec_hlt ops _)).2, State.touchAll_priv])
    · obtain halike | ⟨c, l', rfl⟩ := exec_changes hexec hi
      · obtain hkeep | hwrite := alike_priv halike
        · exact .inl (by rw [hkeep, State.touchAll_priv])
        · exact .inr (.inl ⟨i, _, hf, hwrite⟩)
      · exact .inr (.inr ⟨c, l ++ l', by rw [State.touchAll_append]⟩)

/-- A host operation other than Reset and Step keeps `PRIV`, or is trap entry with cause 2 or 3. -/
theorem hostPerform_priv (s : State) {op : HostOp} (hreset : op ≠ .reset) (hstep : op ≠ .step) :
    ((hostPerform op s).after s).priv = s.priv ∨
      ∃ c, (c = .memoryViolation ∨ c = .invalidProcessId) ∧ (hostPerform op s).after s = trapEntry c s := by
  cases op with
  | reset => exact absurd rfl hreset
  | step => exact absurd rfl hstep
  | load image offset =>
    obtain h | h | h | ⟨_, _, h⟩ := hostLoad_cases image offset s <;> rw [hostPerform, h]
    · exact .inl rfl
    · exact .inl rfl
    · exact .inr ⟨_, .inl rfl, rfl⟩
    · exact .inl (loadedState_priv image offset s)
  | admitProc p =>
    rw [hostPerform, hostAdmit]
    split <;> exact .inl rfl
  | evictProc p =>
    rw [hostPerform, hostEvict]
    split
    · exact .inl rfl
    · split
      · exact .inr ⟨_, .inr rfl, rfl⟩
      · split <;> exact .inl rfl
  | switchProc p =>
    rw [hostPerform, hostSwitch]
    split
    · exact .inl rfl
    · split
      · exact .inr ⟨_, .inr rfl, rfl⟩
      · exact .inl rfl
  | allocate p addr size =>
    rw [hostPerform, hostAllocate]
    split <;> exact .inl rfl
  | supply units => exact .inl rfl

/-- Settles O27: `step_priv` and `hostPerform_priv` name every transition. -/
theorem privilegeTransitionsAreClosed : Obligations.PrivilegeTransitionsAreClosed := by
  unfold Obligations.PrivilegeTransitionsAreClosed
  refine ⟨fun s => rfl, fun c s => rfl, fun ops s => ⟨_, rfl, by rw [advance_priv]; rfl⟩,
    fun ops s => ⟨_, rfl, by rw [advance_priv]; rfl⟩, fun s t h => ⟨fun hp hu => ?leaves, fun hu hp => ?enters⟩,
    fun s op => hostPerform_priv s⟩
  case leaves =>
    obtain hkeep | ⟨i, u, hf, hw⟩ | ⟨c, l, rfl⟩ := step_priv h
    · rw [hkeep, hp] at hu; cases hu
    · rw [hu] at hw
      exact ⟨i.operands, u, eq_clp hw ▸ hf⟩
    · cases hu
  case enters =>
    obtain hkeep | ⟨i, u, hf, hw⟩ | htrap := step_priv h
    · rw [hkeep, hu] at hp; cases hp
    · rw [hp] at hw
      exact .inl ⟨i.operands, u, eq_swt hw ▸ hf⟩
    · exact .inr htrap

end Sys2Proof.Machine
end

section
/-!
PROOF. Noninterference, by the two runs of `exec_alike`: the files of the other processes are not read
(60_exceptions.md R229), `PRIV` gates the access check only (45_privileged_io_system.md R209), and ownership grows for
the current process only (20_memory.md R56).
-/

namespace Sys2Proof.Machine

/-! ### Ownership -/

theorem State.ownsAfter_touchAll (s : State) (l l' : List Nat) (q a : Nat) :
    (s.touchAll l).ownsAfter l' q a = s.ownsAfter (l ++ l') q a := by
  rw [← State.owns_touchAll, ← State.touchAll_append, State.owns_touchAll]

theorem State.ownsAfter_nil (s : State) (q a : Nat) : s.ownsAfter [] q a = s.owns q a := by
  simp [State.ownsAfter]

/-- The changes of an instruction record accesses of the current process, as the mode it started in says. -/
theorem alike_owns {w : Writes} {s s' u u' : State} (h : Alike w s s' u u') :
    ∃ l, ∀ q a, u.owns q a = s.ownsAfter l q a := by
  induction h with
  | start => exact ⟨[], fun q a => (s.ownsAfter_nil q a).symm⟩
  | @change u u' hu c hc ih =>
    obtain ⟨l, hl⟩ := ih
    by_cases ht : ∃ b, c = .touch b
    · obtain ⟨b, rfl⟩ := ht
      have hpriv : u.priv = s.priv := (alike_priv hu).resolve_right fun hw => by
        rw [hw] at hc; cases hc
      have hrecords : u.records = s.records := by
        rw [State.records, State.records, hpriv, alike_config hu]
      refine ⟨l ++ [b], fun q a => ?_⟩
      rw [← State.ownsAfter_touchAll, ← State.owns_touchAll, State.touchAll_cons, State.touchAll_nil,
        State.owns_touch, State.touchAll_cur, State.touchAll_records, State.owns_touchAll, ← hl, ← hrecords,
        ← alike_cur hu, ← State.owns_touch]
      rfl
    · refine ⟨l, fun q a => ?_⟩
      rw [← hl, State.owns, State.extents, Change.apply_owned fun b hb => ht ⟨b, hb⟩]
      rfl

/-- What is owned after a step: what was, with accesses of the current process, but for a process that leaves the
table. -/
theorem step_owns {s t : State} (h : step s = .next t) :
    ∃ l, (∀ q a, t.owns q a = s.ownsAfter l q a) ∨
      (t.hasProc s.cur = false ∧ ∀ q a, t.owns q a = (decide (q ≠ s.cur) && s.ownsAfter l q a)) := by
  obtain ⟨_, rfl⟩ | ⟨_, ⟨_, l, _, ⟨c, rfl⟩ | rfl⟩ | ⟨i, l, hf, _, ⟨_, rfl⟩ | ⟨_, hexec⟩⟩⟩ := step_cases h
  · exact ⟨[], .inl fun q a => (t.ownsAfter_nil q a).symm⟩
  · exact ⟨l, .inl fun q a => by rw [State.owns_trapEntry, State.owns_touchAll]⟩
  · exact ⟨l, .inl fun q a => by rw [State.owns_raiseFatal, State.owns_touchAll]⟩
  · exact ⟨[], .inl fun q a => (t.ownsAfter_nil q a).symm⟩
  · obtain ⟨ops, rfl⟩ | hi := eq_hlt_or i
    · obtain ⟨_, ht⟩ | ⟨_, ht⟩ := hexec ▸ exec_hlt ops (s.touchAll l) <;> cases ht
      · exact ⟨l, .inl fun q a => State.owns_touchAll s l q a⟩
      · refine ⟨l, .inr ⟨?_, fun q a => ?_⟩⟩
        · simp [State.hasProc]
        · rw [← State.owns_touchAll, ← State.touchAll_cur s l]
          exact owns_removeProc ((s.touchAll l).report _) _ q a
    · obtain halike | ⟨c, l', rfl⟩ := exec_changes hexec hi
      · obtain ⟨l', hl'⟩ := alike_owns halike
        exact ⟨l ++ l', .inl fun q a => by rw [hl', State.ownsAfter_touchAll]⟩
      · exact ⟨l ++ l', .inl fun q a => by
          rw [State.owns_trapEntry, ← State.touchAll_append, State.owns_touchAll]⟩

/-- Settles O29: `step_owns` says what is owned, and privileged accesses record nothing. -/
theorem ownershipGrowsOnlyForTheCurrentProcess : Obligations.OwnershipGrowsOnlyForTheCurrentProcess := by
  unfold Obligations.OwnershipGrowsOnlyForTheCurrentProcess
  intro s t h
  have hpriv : s.priv = true → ∀ l q a, s.ownsAfter l q a = s.owns q a := fun hp l q a => by
    simp [State.ownsAfter, State.records, hp]
  obtain ⟨l, hl | ⟨hgone, hl⟩⟩ := step_owns h
  · exact ⟨fun q a hq => by simp [hl, State.ownsAfter, hq], fun a ha => .inl (by simp [hl, State.ownsAfter, ha]),
      fun hp a ha => by rwa [hl, hpriv hp] at ha⟩
  · exact ⟨fun q a hq => by simp [hl, State.ownsAfter, hq], fun a _ => .inr hgone,
      fun hp a ha => by simp [hl] at ha⟩

/-! ### The access check apart, a run is the same in both modes -/

/-- The state without `PRIV` and the allocation table. -/
def State.unguarded (s : State) : State := { s with priv := true, owned := [] }

theorem unguarded_advance (n : Nat) (s : State) : (advance n s).unguarded = advance n s.unguarded := by
  unfold advance
  by_cases h : s.config.memSize ≤ s.nextPc n
  · exact (congrArg State.unguarded (if_pos h)).trans (if_pos (c := s.config.memSize ≤ s.nextPc n) h).symm
  · exact (congrArg State.unguarded (if_neg h)).trans (if_neg (c := s.config.memSize ≤ s.nextPc n) h).symm

theorem unguarded_touchAll (s : State) (l : List Nat) : (s.touchAll l).unguarded = s.unguarded :=
  calc (s.touchAll l).unguarded
      = State.unguarded { s.touchAll l with owned := s.owned } := rfl
    _ = s.unguarded := by rw [touchAll_withOwned]

theorem unguarded_apply {u u' : State} (h : u.unguarded = u'.unguarded) (c : Change) :
    (c.apply u).unguarded = (c.apply u').unguarded := by
  cases c with
  | touch a => exact (unguarded_touchAll u [a]).trans (h.trans (unguarded_touchAll u' [a]).symm)
  | reg r v => exact congrArg (fun x => x.setReg r v) h
  | flags v => exact congrArg (fun x => x.setFlags v) h
  | pc v => exact congrArg (fun x => x.setPc v) h
  | cell a v => exact congrArg (fun x => x.setCell a v) h
  | priv b => exact h
  | input l => exact congrArg (fun x => x.setInput l) h
  | emit b => exact congrArg (fun x => x.emit b) h
  | advance n => exact (unguarded_advance n u).trans ((congrArg _ h).trans (unguarded_advance n u').symm)

theorem alike_unguarded {w : Writes} {s s' u u' : State} (h : Alike w s s' u u')
    (hs : s.unguarded = s'.unguarded) : u.unguarded = u'.unguarded := by
  induction h with
  | start => exact hs
  | change _ c _ ih => exact unguarded_apply ih c

theorem unguarded_trapEntry {u u' : State} (h : u.unguarded = u'.unguarded) (c : Cause) :
    (trapEntry c u).unguarded = (trapEntry c u').unguarded := by
  show (trapEntry c u.unguarded).unguarded = (trapEntry c u'.unguarded).unguarded
  rw [h]

/-- HLT uses neither `PRIV` nor what is owned. -/
theorem unguarded_exec_hlt (ops : List Operand) (u : State) :
    ∃ t t₀, exec (.hlt ops) u = .next t ∧ exec (.hlt ops) u.unguarded = .next t₀ ∧
      t.unguarded = t₀.unguarded := by
  obtain ⟨hcur, h⟩ | ⟨hcur, h⟩ := exec_hlt ops u
  · exact ⟨_, _, h, if_pos hcur, rfl⟩
  · exact ⟨_, _, h, if_neg hcur, rfl⟩

/-- Two runs of an instruction from states with the same view that differ by `PRIV` and the allocation table end in
such states. -/
theorem exec_unguarded {i : Instr} {s s' t t' : State} (hv : SameView s s') (hs : s.unguarded = s'.unguarded)
    (h : exec i s = .next t) (h' : exec i s' = .next t') : t.unguarded = t'.unguarded := by
  obtain ⟨ops, rfl⟩ | hi := eq_hlt_or i
  · obtain ⟨u, u₀, hu, hu₀, heq⟩ := unguarded_exec_hlt ops s
    obtain ⟨u', u₀', hu', hu₀', heq'⟩ := unguarded_exec_hlt ops s'
    rw [hs, hu₀'] at hu₀
    rw [hu] at h
    rw [hu'] at h'
    cases hu₀
    cases h
    cases h'
    exact heq.trans heq'.symm
  · have hends := exec_alike hv i hi
    rw [h, h'] at hends
    obtain ⟨u, u', hu, hu', halike⟩ | ⟨c, l, hu, hu'⟩ := hends <;> cases hu <;> cases hu'
    · exact alike_unguarded halike hs
    · exact unguarded_trapEntry (by rw [unguarded_touchAll, unguarded_touchAll, hs]) c

/-- Under `LazyGrow` both modes give an instruction the same view: every access is permitted. -/
theorem sameView_priv {s : State} (h : s.config.policy = .lazyGrow) (b b' : Bool) :
    SameView { s with priv := b } { s with priv := b' } :=
  ⟨rfl, rfl, rfl, rfl, funext fun a => by
    rw [permits_of_lazyGrow (s := { s with priv := b }) h, permits_of_lazyGrow (s := { s with priv := b' }) h]⟩

/-- Settles O28: both modes give the same view, and the runs differ by what the check records. -/
theorem privilegeGatesOnlyTheCheck : Obligations.PrivilegeGatesOnlyTheCheck := by
  unfold Obligations.PrivilegeGatesOnlyTheCheck
  intro i s t u hl ht hu
  have heq : u.unguarded = t.unguarded := exec_unguarded (sameView_priv hl false true) rfl hu ht
  exact (congrArg (fun x : State => { x with priv := t.priv, owned := t.owned }) heq :)

/-! ### The files of other processes are not read -/

/-- `u'` is `u` with another process table, which differs at process `q` only: there the tables hold `old` and
`new`. -/
def Apart (q : Nat) (old new : Option RegFile) (u u' : State) : Prop :=
  ∃ proc, u' = { u with proc := proc } ∧ (∀ p, p ≠ q → tableFind proc p = tableFind u.proc p) ∧
    tableFind u.proc q = old ∧ tableFind proc q = new

namespace Apart

variable {q : Nat} {old new : Option RegFile} {u u' : State} (h : Apart q old new u u')

include h

theorem file {p : Nat} (hp : p ≠ q) : u'.file p = u.file p := by
  obtain ⟨proc, rfl, hother, -, -⟩ := h
  rw [State.file_eq, State.file_eq, hother p hp]

theorem cur : u'.cur = u.cur := by
  obtain ⟨proc, rfl, -⟩ := h
  rfl

theorem sameView (hq : u.cur ≠ q) : SameView u u' := by
  have hfile := h.file hq
  obtain ⟨proc, rfl, -⟩ := h
  exact ⟨hfile, rfl, rfl, rfl, rfl⟩

theorem setFile {p : Nat} (hp : p ≠ q) (rf : RegFile) : Apart q old new (u.setFile p rf) (u'.setFile p rf) := by
  obtain ⟨proc, rfl, hother, hold, hnew⟩ := h
  refine ⟨tablePut proc p rf, rfl, fun p' hp' => ?_, ?_, ?_⟩
  · rw [State.setFile_proc, tableFind_put, tableFind_put, hother p' hp']
  · rw [State.setFile_proc, tableFind_put, if_neg hp, hold]
  · rw [tableFind_put, if_neg hp, hnew]

/-- An update of the rest of the state is made alike on both sides. -/
theorem rest {f : State → State} (hf : ∀ u proc, f { u with proc := proc } = { f u with proc := proc })
    (hproc : ∀ u, (f u).proc = u.proc) : Apart q old new (f u) (f u') := by
  obtain ⟨proc, rfl, hother, hold, hnew⟩ := h
  exact ⟨proc, hf u proc, by rw [hproc]; exact hother, by rw [hproc]; exact hold, hnew⟩

end Apart

/-- The access check does not ask the process table. -/
theorem touch_withProc (a : Nat) (u : State) (proc : List (Nat × RegFile)) :
    ({ u with proc := proc } : State).touch a = { u.touch a with proc := proc } := by
  rw [touch_eq u]
  split
  · rename_i h
    exact (touch_eq _ a).trans (if_pos h)
  · rename_i h
    exact (touch_eq _ a).trans (if_neg h)

section

variable {q : Nat} {old new : Option RegFile} {u u' : State} (h : Apart q old new u u')

include h

theorem apart_touch (a : Nat) : Apart q old new (u.touch a) (u'.touch a) :=
  h.rest (f := fun x => x.touch a) (touch_withProc a) fun x => x.touch_proc a

theorem apart_touchAll (l : List Nat) : Apart q old new (u.touchAll l) (u'.touchAll l) := by
  induction l generalizing u u' with
  | nil => exact h
  | cons a l ih => exact ih (apart_touch h a)

/-- Trap entry writes process 0. -/
theorem apart_trapEntry (hq : q ≠ 0) (c : Cause) : Apart q old new (trapEntry c u) (trapEntry c u') := by
  have hfile := h.file hq.symm
  have hset := h.setFile hq.symm ((u.file 0).set .a (trunc u.config.xlen (c.code u.config)))
  have hentry : trapEntry c u' =
      { u'.setFile 0 ((u.file 0).set .a (trunc u.config.xlen (c.code u.config))) with
        cur := 0, priv := true, run := .running } := by
    rw [trapEntry, hfile]
    obtain ⟨proc, rfl, -⟩ := h
    rfl
  rw [hentry]
  exact hset.rest (f := fun x => { x with cur := 0, priv := true, run := .running }) (fun _ _ => rfl) fun _ => rfl

variable (hq : u.cur ≠ q)

include hq

theorem apart_setReg (r : Reg) (v : Int) : Apart q old new (u.setReg r v) (u'.setReg r v) := by
  rw [State.setReg, State.setReg, h.cur, h.file hq, (h.sameView hq).config]
  exact h.setFile hq _

theorem apart_setFlags (v : Byte) : Apart q old new (u.setFlags v) (u'.setFlags v) := by
  rw [State.setFlags, State.setFlags, h.cur, h.file hq]
  exact h.setFile hq _

theorem apart_setPc (v : Int) : Apart q old new (u.setPc v) (u'.setPc v) := by
  rw [State.setPc, State.setPc, h.cur, h.file hq, (h.sameView hq).config]
  exact h.setFile hq _

theorem apart_advance (n : Nat) : Apart q old new (advance n u) (advance n u') := by
  have hv := h.sameView hq
  have hpc := apart_setPc h hq (u.nextPc n : Nat)
  unfold advance
  simp only [hv.nextPc, hv.config]
  split
  · exact hpc.rest (f := raiseFatal .endOfMemory) (fun _ _ => rfl) fun _ => rfl
  · exact hpc

theorem apart_apply (c : Change) : Apart q old new (c.apply u) (c.apply u') := by
  cases c with
  | touch a => exact apart_touch h a
  | reg r v => exact apart_setReg h hq r v
  | flags v => exact apart_setFlags h hq v
  | pc v => exact apart_setPc h hq v
  | cell a v => exact h.rest (f := fun x => x.setCell a v) (fun _ _ => rfl) fun _ => rfl
  | priv b => exact h.rest (f := fun x => x.setPriv b) (fun _ _ => rfl) fun _ => rfl
  | input l => exact h.rest (f := fun x => x.setInput l) (fun _ _ => rfl) fun _ => rfl
  | emit b => exact h.rest (f := fun x => x.emit b) (fun _ _ => rfl) fun _ => rfl
  | advance n => exact apart_advance h hq n

omit h hq in
theorem alike_apart {w : Writes} {s s' : State} (hs : Apart q old new s s') (hcur : s.cur ≠ q)
    (halike : Alike w s s' u u') : Apart q old new u u' := by
  induction halike with
  | start => exact hs
  | change hu c _ ih => exact apart_apply ih (alike_cur hu ▸ hcur) c

omit hq in
/-- A process other than `q` leaves the table. -/
theorem apart_removeProc {p : Nat} (hp : p ≠ q) : Apart q old new (u.removeProc p) (u'.removeProc p) := by
  obtain ⟨proc, rfl, hother, hold, hnew⟩ := h
  refine ⟨tableErase proc p, rfl, fun p' hp' => ?_, ?_, ?_⟩
  · rw [State.removeProc_proc, tableFind_erase, tableFind_erase, hother p' hp']
  · rw [State.removeProc_proc, tableFind_erase, if_neg hp, hold]
  · rw [tableFind_erase, if_neg hp, hnew]

theorem apart_exec_hlt (ops : List Operand) :
    ∃ t t', exec (.hlt ops) u = .next t ∧ exec (.hlt ops) u' = .next t' ∧ Apart q old new t t' := by
  have hv := h.sameView hq
  have hreport : ∀ e, Apart q old new (u.report e) (u'.report e) := fun e =>
    h.rest (f := fun x => x.report e) (fun _ _ => rfl) fun _ => rfl
  obtain ⟨hcur, ht⟩ | ⟨hcur, ht⟩ := exec_hlt ops u
  · obtain ⟨_, ht'⟩ | ⟨hcur', _⟩ := exec_hlt ops u'
    · refine ⟨_, _, ht, ht', ?_⟩
      rw [hv.reg, hv.nextPc]
      exact (apart_setPc (hreport _) hq _).rest (f := fun x => { x with run := .halted }) (fun _ _ => rfl) fun _ => rfl
    · exact absurd (h.cur.trans hcur) hcur'
  · obtain ⟨hcur', _⟩ | ⟨_, ht'⟩ := exec_hlt ops u'
    · exact absurd (h.cur.symm.trans hcur') hcur
    · refine ⟨_, _, ht, ht', ?_⟩
      rw [hv.reg, h.cur]
      exact (apart_removeProc (hreport _) hq).rest (f := fun x => { x with cur := 0, run := .halted })
        (fun _ _ => rfl) fun _ => rfl

end

/-- Two runs of an instruction from states that differ in the file of a process that is not current end in such
states, or both in the same trap. -/
theorem exec_apart {q : Nat} {old new : Option RegFile} {s s' : State} (h : Apart q old new s s') (hq : s.cur ≠ q)
    (i : Instr) :
    (∃ t t', exec i s = .next t ∧ exec i s' = .next t' ∧ Apart q old new t t') ∨
      ∃ c l, exec i s = .next (trapEntry c (s.touchAll l)) ∧ exec i s' = .next (trapEntry c (s'.touchAll l)) := by
  obtain ⟨ops, rfl⟩ | hi := eq_hlt_or i
  · exact .inl (apart_exec_hlt h hq ops)
  · obtain ⟨t, t', ht, ht', halike⟩ | htrap := exec_alike (h.sameView hq) i hi
    · exact .inl ⟨t, t', ht, ht', alike_apart h hq halike⟩
    · exact .inr htrap

/-- Settles O26: the run with the other file stays apart from the given one at that process only; where both trap and
that process is 0, trap entry is made on both files. -/
theorem otherRegistersAreNotRead : Obligations.OtherRegistersAreNotRead := by
  unfold Obligations.OtherRegistersAreNotRead
  intro i s t q rf hq h
  have hs : Apart q (tableFind s.proc q) (some rf) s (s.setFile q rf) :=
    ⟨tablePut s.proc q rf, rfl, fun p hp => by rw [tableFind_put, if_neg hp.symm], rfl,
      by rw [tableFind_put, if_pos rfl]⟩
  have hkeep : ∀ u, Apart q (tableFind s.proc q) (some rf) t u →
      (∀ p, p ≠ q → tableFind u.proc p = tableFind t.proc p) ∧ { u with proc := t.proc } = t ∧
      tableFind t.proc q = tableFind s.proc q ∧ tableFind u.proc q = some rf := by
    rintro u ⟨proc, rfl, hother, hold, hnew⟩
    exact ⟨hother, rfl, hold, hnew⟩
  obtain ⟨t', u, ht, hu, hapart⟩ | ⟨c, l, ht, hu⟩ := exec_apart hs hq.symm i <;> rw [h] at ht <;> cases ht
  · obtain ⟨hother, hrest, hfiles⟩ := hkeep u hapart
    exact ⟨u, hu, hother, hrest, .inl hfiles⟩
  · have htouched := apart_touchAll hs l
    by_cases h0 : q = 0
    · subst h0
      obtain ⟨proc, hproc, hother, -⟩ := htouched
      refine ⟨_, hu, fun p hp => ?_, ?_, .inr ⟨rfl, c, l, rfl, rfl⟩⟩
      · rw [State.find_trapEntry _ _ _ hp, State.find_trapEntry _ _ _ hp, hproc]
        exact hother p hp
      · rw [hproc]
        rfl
    · obtain ⟨hother, hrest, hfiles⟩ := hkeep _ (apart_trapEntry htouched h0 c)
      exact ⟨_, hu, hother, hrest, .inl hfiles⟩

end Sys2Proof.Machine
end

section
/-!
PROOF. What each instruction does to the whole state: the shape behind each row of instructions, the equation of each
shape per case, and the effect it comes to (`becomes_…` of Laws/Shapes.lean) or the trap.
-/

open Sys2Proof.Claims

namespace Sys2Proof.Machine

/-! ### The shape behind each row -/

section

variable (ops : List Operand) (s : State)

theorem exec_of_mem_loads {row : Maker × Reg} (h : row ∈ loads) : exec (row.1 ops) s = loadReg row.2 ops s := by
  simp only [loads, List.mem_cons, List.not_mem_nil, or_false] at h
  obtain rfl | rfl | rfl := h <;> rfl

theorem exec_of_mem_stores {row : Maker × Reg} (h : row ∈ stores) : exec (row.1 ops) s = storeReg row.2 ops s := by
  simp only [stores, List.mem_cons, List.not_mem_nil, or_false] at h
  obtain rfl | rfl | rfl := h <;> rfl

theorem exec_of_mem_transfers {row : Maker × Reg × Reg} (h : row ∈ transfers) :
    exec (row.1 ops) s = copyReg row.2.1 row.2.2 ops s := by
  simp only [transfers, List.mem_cons, List.not_mem_nil, or_false] at h
  obtain rfl | rfl | rfl | rfl | rfl | rfl := h <;> rfl

theorem exec_of_mem_steppers {row : Maker × Int} (h : row ∈ steppers) :
    exec (row.1 ops) s = modifyTarget (fun v => v + row.2) ops s := by
  simp only [steppers, List.mem_cons, List.not_mem_nil, or_false] at h
  obtain rfl | rfl := h <;> rfl

theorem exec_of_mem_namedSteppers {row : Maker × Reg × Int} (h : row ∈ namedSteppers) :
    exec (row.1 ops) s = modifyReg (fun v => v + row.2.2) row.2.1 ops s := by
  simp only [namedSteppers, List.mem_cons, List.not_mem_nil, or_false] at h
  obtain rfl | rfl | rfl | rfl | rfl := h <;> rfl

theorem exec_of_mem_accumulators {row : Maker × (Nat → Nat → Int)} (h : row ∈ accumulators) :
    exec (row.1 ops) s = accumulate row.2 ops s := by
  simp only [accumulators, List.mem_cons, List.not_mem_nil, or_false] at h
  obtain rfl | rfl | rfl | rfl | rfl | rfl := h <;> rfl

theorem exec_of_mem_divisions {row : Maker × (Nat → Nat → Int)} (h : row ∈ divisions) :
    exec (row.1 ops) s = accumulateDivide row.2 ops s := by
  simp only [divisions, List.mem_cons, List.not_mem_nil, or_false] at h
  obtain rfl | rfl := h <;> rfl

theorem exec_of_mem_branches {row : Maker × Byte × Bool} (h : row ∈ branches) :
    exec (row.1 ops) s = branch (decide (s.flags &&& row.2.1 ≠ 0) == row.2.2) ops s := by
  have key : exec (row.1 ops) s = branch (if row.2.2 then flagIsSet row.2.1 s.flags
      else !flagIsSet row.2.1 s.flags) ops s := by
    simp only [branches, List.mem_cons, List.not_mem_nil, or_false] at h
    obtain rfl | rfl | rfl | rfl | rfl | rfl | rfl | rfl := h <;> rfl
  rw [key]
  cases row.2.2 <;> simp [flagIsSet]

theorem exec_of_mem_flagOps {row : Maker × (Byte → Byte)} (h : row ∈ flagOps) :
    exec (row.1 ops) s = modifyFlags row.2 ops s := by
  simp only [flagOps, List.mem_cons, List.not_mem_nil, or_false] at h
  obtain rfl | rfl | rfl | rfl | rfl := h <;> rfl

theorem exec_of_mem_compares {row : Maker × Reg} (h : row ∈ compares) :
    exec (row.1 ops) s = compareReg row.2 ops s := by
  simp only [compares, List.mem_cons, List.not_mem_nil, or_false] at h
  obtain rfl | rfl | rfl := h <;> rfl

theorem exec_of_mem_pushes {row : Maker × (State → Nat)} (h : row ∈ pushes) :
    exec (row.1 ops) s = pushValue (row.2 s) ops s := by
  simp only [pushes, List.mem_cons, List.not_mem_nil, or_false] at h
  obtain rfl | rfl := h <;> rfl

theorem exec_of_mem_returns {mk : Maker} (h : mk ∈ [Instr.rts, Instr.rti]) : exec (mk ops) s = returnPop s := by
  simp only [List.mem_cons, List.not_mem_nil, or_false] at h
  obtain rfl | rfl := h <;> rfl

end

/-- An instruction with a destination stores a register in it or modifies it (R89). -/
theorem destinationMakers_cases {mk : Maker} (h : mk ∈ destinationMakers) :
    (∃ r, ∀ ops s, exec (mk ops) s = storeReg r ops s) ∨ ∃ f, ∀ ops s, exec (mk ops) s = modifyTarget f ops s := by
  simp only [destinationMakers, List.mem_cons, List.not_mem_nil, or_false] at h
  obtain rfl | rfl | rfl | rfl | rfl := h
  · exact .inl ⟨.a, fun _ _ => rfl⟩
  · exact .inl ⟨.x, fun _ _ => rfl⟩
  · exact .inl ⟨.y, fun _ _ => rfl⟩
  · exact .inr ⟨_, fun ops s => exec_of_mem_steppers ops s (row := (Instr.inc, 1)) (by simp [steppers])⟩
  · exact .inr ⟨_, fun ops s => exec_of_mem_steppers ops s (row := (Instr.dec, -1)) (by simp [steppers])⟩

/-- An instruction with a source operand goes on from its value (R88). -/
theorem sourceMakers_withOperand {mk : Maker} (h : mk ∈ sourceMakers) :
    ∃ k : List Operand → Nat → State → Result, ∀ ops s, exec (mk ops) s = withOperand false ops s (k ops) := by
  simp only [sourceMakers, List.mem_cons, List.not_mem_nil, or_false] at h
  obtain rfl | rfl | rfl | rfl | rfl | rfl | rfl | rfl | rfl | rfl | rfl | rfl | rfl | rfl | rfl := h <;>
    exact ⟨_, fun _ _ => rfl⟩

/-! ### The shapes by case -/

section

variable {op : Operand} {s : State} (rest : List Operand)

/-- A denied source read (R57). -/
theorem withOperand_denied {k : Nat → State → Result} (h : s.permitsAll (sourceCells op) = false) :
    withOperand false (op :: rest) s k = raiseTrap .memoryViolation s := by
  rw [withOperand_source, h]
  rfl

theorem withTarget_none {k : Target → Result} (h : resolveTarget op s = none) :
    withTarget (op :: rest) s k = raiseTrap .illegalInstruction s := by simp [withTarget, h]

theorem withTarget_some {k : Target → Result} {t : Target} (h : resolveTarget op s = some t) :
    withTarget (op :: rest) s k = k t := by simp [withTarget, h]

theorem storeReg_reg (r : Reg) {r' : Reg} (h : resolveTarget op s = some (.reg r')) :
    storeReg r (op :: rest) s = finish (rest.length + 1) (s.setReg r' (s.reg r)) := by
  rw [storeReg, withTarget_some rest h]
  rfl

theorem modifyTarget_reg (f : Nat → Int) {r : Reg} (h : resolveTarget op s = some (.reg r)) :
    modifyTarget f (op :: rest) s = finish (rest.length + 1) (s.setReg r (f (s.reg r))) := by
  rw [modifyTarget, withTarget_some rest h]
  rfl

section

variable {a : Nat} (h : resolveTarget op s = some (.cell a))

include h

theorem storeReg_cell (r : Reg) (hp : s.permits a = true) :
    storeReg r (op :: rest) s = finish (rest.length + 1) ((s.touch a).setCell a (s.reg r)) := by
  rw [storeReg, withTarget_some rest h, writeTarget, memWrite_eq, if_pos hp]
  rfl

theorem storeReg_denied (r : Reg) (hp : s.permits a = false) :
    storeReg r (op :: rest) s = raiseTrap .memoryViolation s := by
  rw [storeReg, withTarget_some rest h, writeTarget, memWrite_eq, hp]
  rfl

theorem modifyTarget_cell (f : Nat → Int) (hp : s.permits a = true) :
    modifyTarget f (op :: rest) s = finish (rest.length + 1) ((s.touch a).setCell a (f (s.cell a))) := by
  rw [modifyTarget, withTarget_some rest h, readTarget, memRead_eq, if_pos hp]
  simp only [writeTarget, memWrite_eq, State.touch_permits, hp, if_true, touch_touch, List.length_cons]

theorem modifyTarget_denied (f : Nat → Int) (hp : s.permits a = false) :
    modifyTarget f (op :: rest) s = raiseTrap .memoryViolation s := by
  rw [modifyTarget, withTarget_some rest h, readTarget, memRead_eq, hp]
  rfl

end

end

section

variable {s : State}

theorem pushValue_ok (v : Nat) (ops : List Operand) (h : s.permits (s.reg .sp) = true) :
    pushValue v ops s = finish ops.length
      (((s.touch (s.reg .sp)).setCell (s.reg .sp) v).setReg .sp (s.reg .sp - 1)) := by
  rw [pushValue, push_eq, if_pos h]

theorem pushValue_denied (v : Nat) (ops : List Operand) (h : s.permits (s.reg .sp) = false) :
    pushValue v ops s = raiseTrap .memoryViolation s := by
  rw [pushValue, push_eq, h]
  rfl

/-- `SP` after a pop is the exact `SP + 1` of the rule, cut where it is stored (R186). -/
theorem setReg_stackTop (u : State) (hc : u.config = s.config) :
    u.setReg .sp s.stackTop = u.setReg .sp ((s.reg .sp : Int) + 1) := by
  rw [State.setReg, State.setReg, State.stackTop, hc, trunc_trunc]

theorem popValue_ok (k : Nat → State → State) (ops : List Operand) (h : s.permits (popCell s) = true) :
    popValue k ops s = finish ops.length
      (k (s.cell (popCell s)) ((s.touch (popCell s)).setReg .sp ((s.reg .sp : Int) + 1))) := by
  rw [popValue, pop_eq, if_pos (c := s.permits s.stackTop = true) h, setReg_stackTop _ (s.touch_config _)]
  rfl

theorem popValue_denied (k : Nat → State → State) (ops : List Operand) (h : s.permits (popCell s) = false) :
    popValue k ops s = raiseTrap .memoryViolation s := by
  rw [popValue, pop_eq, if_neg (by rw [State.stackTop, h]; decide)]

theorem returnPop_ok (h : s.permits (popCell s) = true) :
    returnPop s = .next (((s.touch (popCell s)).setReg .sp ((s.reg .sp : Int) + 1)).setPc (s.cell (popCell s))) := by
  rw [returnPop, pop_eq, if_pos (c := s.permits s.stackTop = true) h, setReg_stackTop _ (s.touch_config _)]
  rfl

theorem returnPop_denied (h : s.permits (popCell s) = false) : returnPop s = raiseTrap .memoryViolation s := by
  rw [returnPop, pop_eq, if_neg (by rw [State.stackTop, h]; decide)]

/-- JSR: the target is resolved before the push (R162). -/
theorem execJsr_ok (op : Operand) (rest : List Operand) (h : s.permits (s.reg .sp) = true) :
    execJsr (op :: rest) s = .next ((((s.touch (s.reg .sp)).setCell (s.reg .sp)
      (trunc s.config.xlen (s.nextPc (rest.length + 1)) : Nat)).setReg .sp (s.reg .sp - 1)).setPc
        (controlTarget op s)) := by
  rw [execJsr, withOperand_control, push_eq, if_pos h]
  rfl

theorem execJsr_denied (op : Operand) (rest : List Operand) (h : s.permits (s.reg .sp) = false) :
    execJsr (op :: rest) s = raiseTrap .memoryViolation s := by
  rw [execJsr, withOperand_control, push_eq, h]
  rfl

end

/-! ### Traps -/

/-- An instruction that raises a trap before any access. -/
theorem traps_of_raiseTrap {r : Result} {c : Cause} {s : State} (h : r = raiseTrap c s) :
    ∃ t, r = .next t ∧ s.Traps t (c.code s.config) [] := ⟨_, h, traps_trapEntry_nil s c⟩

/-- Settles O15: each shape where its access is denied. -/
theorem deniedAccessesTrap : Obligations.DeniedAccessesTrap := by
  unfold Obligations.DeniedAccessesTrap
  refine fun s => ⟨fun mk hmk op rest h => ?source, fun mk hmk op rest a ht h => ?destination,
    fun h => ⟨fun op rest => ?jsr, fun ops => ?pha, fun ops => ?php⟩, fun h mk hmk ops => ?pop⟩
  case source =>
    obtain ⟨k, hk⟩ := sourceMakers_withOperand hmk
    exact traps_of_raiseTrap (c := .memoryViolation) (by rw [hk, withOperand_denied rest h])
  case destination =>
    obtain ⟨r, hr⟩ | ⟨f, hf⟩ := destinationMakers_cases hmk
    · exact traps_of_raiseTrap (c := .memoryViolation) (by rw [hr, storeReg_denied rest ht r h])
    · exact traps_of_raiseTrap (c := .memoryViolation) (by rw [hf, modifyTarget_denied rest ht f h])
  case jsr => exact traps_of_raiseTrap (c := .memoryViolation) (execJsr_denied op rest h)
  case pha => exact traps_of_raiseTrap (c := .memoryViolation) (pushValue_denied _ ops h)
  case php => exact traps_of_raiseTrap (c := .memoryViolation) (pushValue_denied _ ops h)
  case pop =>
    simp only [List.mem_cons, List.not_mem_nil, or_false] at hmk
    obtain rfl | rfl | rfl | rfl := hmk
    · exact traps_of_raiseTrap (c := .memoryViolation) (returnPop_denied h)
    · exact traps_of_raiseTrap (c := .memoryViolation) (returnPop_denied h)
    · exact traps_of_raiseTrap (c := .memoryViolation) (popValue_denied _ ops h)
    · exact traps_of_raiseTrap (c := .memoryViolation) (popValue_denied _ ops h)

/-- What R89 calls no destination resolves to none, on any number of registers. -/
theorem resolveTarget_of_invalid {op : Operand} {s : State} (h : invalidDestination s.config op = true) :
    resolveTarget op s = none := by
  obtain ⟨m, v⟩ := op
  cases m <;> simp [invalidDestination] at h
  case register => simp [resolveTarget, regOfValue, Nat.not_lt.mpr h]
  case immediate => rfl

/-- Settles O33: stores and modifications resolve their destination first. -/
theorem invalidDestinationsTrap : Obligations.InvalidDestinationsTrap := by
  unfold Obligations.InvalidDestinationsTrap
  intro mk hmk op rest s h
  have hnone := resolveTarget_of_invalid h
  obtain ⟨r, hr⟩ | ⟨f, hf⟩ := destinationMakers_cases hmk
  · exact traps_of_raiseTrap (c := .illegalInstruction) (by rw [hr, storeReg, withTarget_none rest hnone])
  · exact traps_of_raiseTrap (c := .illegalInstruction) (by rw [hf, modifyTarget, withTarget_none rest hnone])

/-- An instruction that uses an operand and has none raises the trap of R98 before anything else. -/
theorem exec_of_no_operands {i : Instr} (s : State) (ha : i.arity = 1) (hops : i.operands = []) :
    exec i s = raiseTrap .invalidOperandCount s := by
  cases i
  case lda ops | ldx ops | ldy ops | sta ops | stx ops | sty ops => cases hops; rfl
  case inc ops | dec ops | add ops | sub ops | mul ops | div ops | mod ops => cases hops; rfl
  case and ops | ora ops | xor ops | bit ops | cmp ops | cpx ops | cpy ops => cases hops; rfl
  case jmp ops | jsr ops | bcc ops | bcs ops | beq ops | bne ops => cases hops; rfl
  case bmi ops | bpl ops | bvc ops | bvs ops => cases hops; rfl
  all_goals cases ha

/-- No instruction uses more than one operand (R97). -/
theorem arity_le_one (i : Instr) : i.arity ≤ 1 := by cases i <;> simp [Instr.arity]

/-- Settles O34: an arity above the count is 1 above 0. -/
theorem missingOperandsTrap : Obligations.MissingOperandsTrap := by
  unfold Obligations.MissingOperandsTrap
  intro i s h
  have hlt : i.count < i.arity := by simpa [Instr.hasOperands] using h
  have hone := arity_le_one i
  exact traps_of_raiseTrap (c := .invalidOperandCount)
    (exec_of_no_operands s (by omega) (List.length_eq_zero_iff.mp (by unfold Instr.count at hlt; omega)))

end Sys2Proof.Machine
end

section
/-!
PROOF. The effect of each row of instructions (40_data_movement.md to 45_privileged_io_system.md): the equation of its
shape, then the effects of the updates it is made of.
-/

open Sys2Proof.Claims

namespace Sys2Proof.Machine

/-! ### The ends of an instruction -/

section

variable {s u : State} {e : Effect}

/-- A plain instruction ends with its effect, `pc` advanced (R92 step 10). -/
theorem finish_becomes (h : s.Becomes u e) (hp : e.pc = none) (hr : e.run = s.run) (n : Nat) :
    ∃ t, finish n u = .next t ∧
      s.Becomes t { e with pc := (plainEffect n s).pc, run := (plainEffect n s).run } :=
  ⟨_, rfl, becomes_advance h hp hr n⟩

/-- The accesses of a source operand are the first thing an instruction does. -/
theorem becomes_source (s : State) (op : Operand) :
    s.Becomes (s.touchAll (sourceCells op)) { run := s.run, touched := sourceCells op } :=
  becomes_touchAll (becomes_refl s) rfl (sourceCells op)

theorem becomes_access (s : State) (a : Nat) : s.Becomes (s.touch a) { run := s.run, touched := [a] } :=
  becomes_touch (becomes_refl s) rfl a

end

/-! ### Data movement -/

/-- Settles O30: the operand is resolved, and its value written to the register. -/
theorem loadsReadTheirOperand : Obligations.LoadsReadTheirOperand := by
  unfold Obligations.LoadsReadTheirOperand
  intro row hrow op rest s hp
  rw [exec_of_mem_loads _ _ hrow, loadReg, withOperand_source, if_pos hp]
  exact finish_becomes (becomes_setReg (becomes_source s op) _ _) rfl rfl _

/-- The cell of a destination, by its mode (R89). -/
theorem mode_of_resolveTarget_cell {op : Operand} {s : State} {a : Nat} (h : resolveTarget op s = some (.cell a)) :
    (op.mode = .absolute ∧ a = op.value.toNat) ∨
      (op.mode = .relative ∧ a = trunc s.config.xlen ((s.pc : Int) + op.value.toNat)) := by
  obtain ⟨m, v⟩ := op
  cases m with
  | register => simp [resolveTarget] at h
  | immediate => cases h
  | absolute => cases h; exact .inl ⟨rfl, rfl⟩
  | relative => cases h; exact .inr ⟨rfl, rfl⟩

/-- Settles O31: one access, one write. -/
theorem storesWriteTheirCell : Obligations.StoresWriteTheirCell := by
  unfold Obligations.StoresWriteTheirCell
  intro row hrow op rest s a ht hp
  refine ⟨mode_of_resolveTarget_cell ht, ?_⟩
  rw [exec_of_mem_stores _ _ hrow, storeReg_cell rest ht _ hp]
  exact finish_becomes (becomes_setCell (becomes_access s a) rfl a _) rfl rfl _

/-- A Register-mode operand with the index of a register names it as a destination (R24, R89). -/
theorem resolveTarget_of_index {op : Operand} {s : State} {r : Reg} (hc : s.config.wellFormed = true)
    (hm : op.mode = .register) (hv : op.value.toNat = r.index) : resolveTarget op s = some (.reg r) := by
  have hlt : op.value.toNat < s.config.nreg := by
    rw [Config.nreg_eq hc, hv]
    cases r <;> decide
  simp [resolveTarget, hm, regOfValue_eq_some.mpr ⟨hv, hlt⟩]

/-- Settles O32: the destination is a register. -/
theorem storesCopyToARegister : Obligations.StoresCopyToARegister := by
  unfold Obligations.StoresCopyToARegister
  intro row hrow op rest s r hc hm hv
  rw [exec_of_mem_stores _ _ hrow, storeReg_reg rest _ (resolveTarget_of_index hc hm hv)]
  exact finish_becomes (becomes_setReg (becomes_refl s) r _) rfl rfl _

/-- Settles O36: one register written. -/
theorem transfersCopyARegister : Obligations.TransfersCopyARegister := by
  unfold Obligations.TransfersCopyARegister
  intro row hrow ops s
  rw [exec_of_mem_transfers _ _ hrow]
  exact finish_becomes (becomes_setReg (becomes_refl s) _ _) rfl rfl _

/-! ### Arithmetic, bitwise, shifts -/

/-- Settles O37: the cell is read and written with one access, the register in place. -/
theorem incAndDecStepTheirDestination : Obligations.IncAndDecStepTheirDestination := by
  unfold Obligations.IncAndDecStepTheirDestination
  intro row hrow op rest s
  refine ⟨fun a ht hp => ?_, fun r hc hm hv => ?_⟩
  · rw [exec_of_mem_steppers _ _ hrow, modifyTarget_cell rest ht _ hp]
    exact finish_becomes (becomes_setCell (becomes_access s a) rfl a _) rfl rfl _
  · rw [exec_of_mem_steppers _ _ hrow, modifyTarget_reg rest _ (resolveTarget_of_index hc hm hv)]
    exact finish_becomes (becomes_setReg (becomes_refl s) r _) rfl rfl _

/-- Settles O38: one register written. -/
theorem namedRegistersStepByOne : Obligations.NamedRegistersStepByOne := by
  unfold Obligations.NamedRegistersStepByOne
  intro row hrow ops s
  rw [exec_of_mem_namedSteppers _ _ hrow]
  exact finish_becomes (becomes_setReg (becomes_refl s) _ _) rfl rfl _

/-- Settles O39: the accesses of the operand leave `A` as it was, so the operation is on the `A` of the start. -/
theorem accumulatorOperations : Obligations.AccumulatorOperations := by
  unfold Obligations.AccumulatorOperations
  intro row hrow op rest s hp
  rw [exec_of_mem_accumulators _ _ hrow, accumulate, withOperand_source, if_pos hp, State.touchAll_reg]
  exact finish_becomes (becomes_setReg (becomes_source s op) .a _) rfl rfl _

/-- Settles O40: as O39, past the test of the divisor. -/
theorem divisionResults : Obligations.DivisionResults := by
  unfold Obligations.DivisionResults
  intro row hrow op rest s hp hne
  rw [exec_of_mem_divisions _ _ hrow, accumulateDivide, withOperand_source, if_pos hp, if_neg hne,
    State.touchAll_reg]
  exact finish_becomes (becomes_setReg (becomes_source s op) .a _) rfl rfl _

/-- DIV and MOD test the divisor after its read. -/
theorem accumulateDivide_zero (f : Nat → Nat → Int) {op : Operand} (rest : List Operand) {s : State}
    (hp : s.permitsAll (sourceCells op) = true) (h : sourceValue op s = 0) :
    accumulateDivide f (op :: rest) s = raiseTrap .arithmeticFault (s.touchAll (sourceCells op)) := by
  rw [accumulateDivide, withOperand_source, if_pos hp, if_pos h]

/-- Settles O41: the trap comes after the read, whose growth stays. -/
theorem divisionByZeroTraps : Obligations.DivisionByZeroTraps := by
  unfold Obligations.DivisionByZeroTraps
  refine ⟨rfl, fun mk hmk op rest s hp h => ?_⟩
  obtain ⟨row, hrow, rfl⟩ : ∃ row ∈ divisions, row.1 = mk := List.mem_map.mp hmk
  exact ⟨_, (exec_of_mem_divisions _ _ hrow).trans (accumulateDivide_zero _ rest hp h),
    traps_trapEntry s .arithmeticFault _⟩

/-! ### Control transfer -/

/-- Settles O44: the target resolves with no access. -/
theorem jumpGoesToItsTarget : Obligations.JumpGoesToItsTarget := by
  unfold Obligations.JumpGoesToItsTarget
  intro op rest s
  exact ⟨_, withOperand_control op rest s _, becomes_setPc (becomes_refl s) _⟩

/-- Settles O45: access, write, decrement and jump, in this order. -/
theorem callPushesTheReturnAddress : Obligations.CallPushesTheReturnAddress := by
  unfold Obligations.CallPushesTheReturnAddress
  intro op rest s hp
  refine ⟨_, execJsr_ok op rest hp, ?_⟩
  have h := becomes_setPc (becomes_setReg (becomes_setCell (becomes_access s (s.reg .sp)) rfl (s.reg .sp)
    (trunc s.config.xlen (s.nextPc (rest.length + 1)) : Nat)) .sp (s.reg .sp - 1)) (controlTarget op s)
  exact h

/-- Settles O46: access, `SP` and `pc`. -/
theorem returnsPopTheProgramCounter : Obligations.ReturnsPopTheProgramCounter := by
  unfold Obligations.ReturnsPopTheProgramCounter
  intro mk hmk ops s hp
  rw [exec_of_mem_returns _ _ hmk]
  exact ⟨_, returnPop_ok hp, becomes_setPc (becomes_setReg (becomes_access s (popCell s)) .sp _) _⟩

/-- Settles O47: the test decides between the redirect and the plain end. -/
theorem branchesTestOneFlag : Obligations.BranchesTestOneFlag := by
  unfold Obligations.BranchesTestOneFlag
  intro row hrow op rest s
  rw [exec_of_mem_branches _ _ hrow, branch, withOperand_control]
  by_cases h : decide (s.flags &&& row.2.1 ≠ 0) = row.2.2
  · rw [if_pos h, if_pos (beq_iff_eq.mpr h)]
    exact ⟨_, rfl, becomes_setPc (becomes_refl s) _⟩
  · rw [if_neg h, if_neg (fun hb => h (beq_iff_eq.mp hb))]
    exact finish_becomes (becomes_refl s) rfl rfl _

/-! ### Flags, stack, compares -/

/-- Settles O49: the flags register written, one bit changed. -/
theorem flagInstructionsChangeOneBit : Obligations.FlagInstructionsChangeOneBit := by
  unfold Obligations.FlagInstructionsChangeOneBit
  intro row hrow ops s
  rw [exec_of_mem_flagOps _ _ hrow]
  exact finish_becomes (becomes_setFlags (becomes_refl s) _) rfl rfl _

/-- Settles O43: `bitTestFlags` sets or clears the one bit. -/
theorem bitTestWritesZeroOnly : Obligations.BitTestWritesZeroOnly := by
  unfold Obligations.BitTestWritesZeroOnly
  intro op rest s hp
  show ∃ t, execBit (op :: rest) s = .next t ∧ _
  rw [execBit, withOperand_source, if_pos hp, State.touchAll_reg, State.touchAll_flags]
  exact finish_becomes (becomes_setFlags (becomes_source s op) _) rfl rfl _

/-- Settles O50: access, write and decrement. -/
theorem pushesStoreOneCell : Obligations.PushesStoreOneCell := by
  unfold Obligations.PushesStoreOneCell
  intro row hrow ops s hp
  rw [exec_of_mem_pushes _ _ hrow, pushValue_ok _ _ hp]
  exact finish_becomes (becomes_setReg (becomes_setCell (becomes_access s (s.reg .sp)) rfl (s.reg .sp) _) .sp _)
    rfl rfl _

/-- Settles O51: access and `SP`, then the register. -/
theorem pullsLoadOneCell : Obligations.PullsLoadOneCell := by
  unfold Obligations.PullsLoadOneCell
  intro ops s hp
  have hpop := becomes_setReg (becomes_access s (popCell s)) .sp ((s.reg .sp : Int) + 1)
  constructor
  · show ∃ t, popValue _ ops s = .next t ∧ _
    rw [popValue_ok _ ops hp]
    exact finish_becomes (becomes_setReg hpop .a _) rfl rfl _
  · show ∃ t, popValue _ ops s = .next t ∧ _
    rw [popValue_ok _ ops hp]
    exact finish_becomes (becomes_setFlags hpop _) rfl rfl _

/-- The three results of a compare (R191). -/
theorem compareFlags_eq (r m : Nat) :
    compareFlags r m = if r = m then 0x03 else if m < r then 0x01 else 0x80 := by
  unfold compareFlags
  obtain h | h | h := Nat.lt_trichotomy r m
  · simp [h, h.ne, Nat.not_le.mpr h, Nat.not_lt.mpr h.le]
  · simp [h]
  · simp [h, h.ne', h.le, Nat.not_lt.mpr h.le]

/-- Settles O53: the flags register written, the old one not read. -/
theorem comparesSetFlagsFromScratch : Obligations.ComparesSetFlagsFromScratch := by
  unfold Obligations.ComparesSetFlagsFromScratch
  intro row hrow op rest s hp
  rw [exec_of_mem_compares _ _ hrow, compareReg, withOperand_source, if_pos hp, State.touchAll_reg,
    compareFlags_eq]
  exact finish_becomes (becomes_setFlags (becomes_source s op) _) rfl rfl _

/-! ### No operation, privilege, traps by instruction, devices -/

/-- Settles O54: the plain end alone. -/
theorem nopOnlyAdvances : Obligations.NopOnlyAdvances := by
  unfold Obligations.NopOnlyAdvances
  exact fun ops s => finish_becomes (becomes_refl s) rfl rfl ops.length

/-- Settles O55: both are trap entry and nothing before it. -/
theorem softwareTrapsEnterTheKernel : Obligations.SoftwareTrapsEnterTheKernel := by
  unfold Obligations.SoftwareTrapsEnterTheKernel
  exact ⟨decode_no_operands Config.hardware_wellFormed (m := .syscall) rfl,
    decode_no_operands Config.hardware_wellFormed (m := .int) rfl, fun ops s =>
    ⟨traps_of_raiseTrap (c := .syscall) rfl, traps_of_raiseTrap (c := .software (s.reg .a)) rfl⟩⟩

/-- Settles O56: `PRIV` written, in either mode. -/
theorem clpAndSwtWritePrivilege : Obligations.ClpAndSwtWritePrivilege := by
  unfold Obligations.ClpAndSwtWritePrivilege
  exact ⟨decode_no_operands Config.hardware_wellFormed (m := .clp) rfl,
    decode_no_operands Config.hardware_wellFormed (m := .swt) rfl, fun ops s =>
    ⟨finish_becomes (becomes_setPriv (becomes_refl s) false) rfl rfl ops.length,
      finish_becomes (becomes_setPriv (becomes_refl s) true) rfl rfl ops.length⟩⟩

/-- Settles O58: one unit taken, or one appended. -/
theorem inputAndOutputMoveOneUnit : Obligations.InputAndOutputMoveOneUnit := by
  unfold Obligations.InputAndOutputMoveOneUnit
  intro ops s
  refine ⟨fun u rest hin => ?_, finish_becomes (becomes_emit (becomes_refl s) _) rfl rfl ops.length⟩
  have hexec : exec (.inp ops) s = finish ops.length ((s.setInput rest).setReg .a u.toNat) := by
    simp [exec, execInp, hin]
  rw [hexec]
  exact finish_becomes (becomes_setReg (becomes_setInput (becomes_refl s) rest) .a _) rfl rfl _

/-! ### Shifts and rotates, as arithmetic on a number of `n` bits -/

theorem setReg_congr {s : State} {v v' : Int} (h : trunc s.config.xlen v = trunc s.config.xlen v') (r : Reg) :
    s.setReg r v = s.setReg r v' := by rw [State.setReg, State.setReg, h]

/-- An instruction that modifies `A`, by any number that is stored as the same. -/
theorem modifyReg_becomes {f : Nat → Int} {s : State} {v : Int} (ops : List Operand)
    (h : trunc s.config.xlen (f (s.reg .a)) = trunc s.config.xlen v) :
    ∃ t, modifyReg f .a ops s = .next t ∧ s.Becomes t { plainEffect ops.length s with reg := writes .a v } := by
  rw [modifyReg, setReg_congr h]
  exact finish_becomes (becomes_setReg (becomes_refl s) .a v) rfl rfl _

theorem trunc_shl (n a : Nat) : trunc n (a <<< 1 : Nat) = trunc n (2 * a % 2 ^ n : Nat) := by
  rw [trunc_natCast, trunc_natCast, Nat.mod_mod, Nat.shiftLeft_eq, Nat.mul_comm, pow_one]

theorem trunc_lsr (n a : Nat) : trunc n (a >>> 1 : Nat) = trunc n (a / 2 : Nat) := by
  rw [Nat.shiftRight_eq_div_pow, pow_one]

/-- The bit that leaves at the top comes in at the bottom, where the shift left a 0. -/
theorem trunc_rol {n a : Nat} (hn : 1 ≤ n) (ha : a < 2 ^ n) :
    trunc n (a <<< 1 ||| a >>> (n - 1) : Nat) = trunc n (2 * a % 2 ^ n + a / 2 ^ (n - 1) : Nat) := by
  have hpow : 2 ^ n = 2 ^ (n - 1) * 2 := by rw [← pow_succ, Nat.sub_add_cancel hn]
  have htop : a >>> (n - 1) < 2 ^ 1 := by
    rw [Nat.shiftRight_eq_div_pow, Nat.div_lt_iff_lt_mul (Nat.two_pow_pos _)]
    omega
  rw [trunc_natCast, trunc_natCast, ← Nat.shiftLeft_add_eq_or_of_lt htop, Nat.shiftLeft_eq,
    Nat.shiftRight_eq_div_pow, pow_one, Nat.mod_add_mod, Nat.mul_comm]

/-- The bit that leaves at the bottom comes in at the top. -/
theorem trunc_ror {n a : Nat} (hn : 1 ≤ n) (ha : a < 2 ^ n) :
    trunc n (a >>> 1 ||| a <<< (n - 1) : Nat) = trunc n (a / 2 + a % 2 * 2 ^ (n - 1) : Nat) := by
  have hpow : 2 ^ n = 2 * 2 ^ (n - 1) := by rw [← pow_succ', Nat.sub_add_cancel hn]
  have hlow : a >>> 1 < 2 ^ (n - 1) := by
    rw [Nat.shiftRight_eq_div_pow]
    omega
  have hsplit : a * 2 ^ (n - 1) = a % 2 * 2 ^ (n - 1) + 2 ^ n * (a / 2) := by
    conv_lhs => rw [← Nat.mod_add_div a 2]
    rw [hpow]
    ring
  rw [trunc_natCast, trunc_natCast, Nat.or_comm, ← Nat.shiftLeft_add_eq_or_of_lt hlow, Nat.shiftLeft_eq,
    Nat.shiftRight_eq_div_pow, pow_one, hsplit, Nat.add_right_comm, Nat.add_mul_mod_self_left, Nat.add_comm]

/-- Settles O42: each shift by its arithmetic. -/
theorem shiftsAndRotatesByOne : Obligations.ShiftsAndRotatesByOne := by
  unfold Obligations.ShiftsAndRotatesByOne
  have hc := Config.hardware_wellFormed
  intro row hrow
  simp only [shifts, List.mem_cons, List.not_mem_nil, or_false] at hrow
  have hbounds : ∀ s : State, s.wf → 1 ≤ s.config.xlen ∧ s.reg .a < 2 ^ s.config.xlen := fun s hs =>
    ⟨by have := Config.xlen_ge (State.wf_config hs); omega, State.reg_lt hs .a⟩
  obtain rfl | rfl | rfl | rfl := hrow
  · refine ⟨decode_no_operands hc (m := .shl) rfl, fun ops s _ => ?_⟩
    simp only [exec, execShl]
    exact modifyReg_becomes ops (trunc_shl _ _)
  · refine ⟨decode_no_operands hc (m := .lsr) rfl, fun ops s _ => ?_⟩
    simp only [exec, execLsr]
    exact modifyReg_becomes ops (trunc_lsr _ _)
  · refine ⟨decode_no_operands hc (m := .rol) rfl, fun ops s hs => ?_⟩
    simp only [exec, execRol]
    exact modifyReg_becomes ops (trunc_rol (hbounds s hs).1 (hbounds s hs).2)
  · refine ⟨decode_no_operands hc (m := .ror) rfl, fun ops s hs => ?_⟩
    simp only [exec, execRor]
    exact modifyReg_becomes ops (trunc_ror (hbounds s hs).1 (hbounds s hs).2)

/-! ### A push and the pop after it -/

section

variable {s t : State} {e : Effect} (h : s.Becomes t e)

include h

theorem becomes_config : t.config = s.config := by
  obtain ⟨_, _, _, hconfig, _⟩ := h
  exact hconfig

theorem becomes_permits (hp : e.priv = none) (a : Nat) : t.permits a = s.permits a := by
  obtain ⟨_, hpriv, _, hconfig, _⟩ := h
  rw [State.permits, State.permits, hpriv, hconfig, hp]
  rfl

theorem becomes_reg (r : Reg) : t.reg r = stored s.config.xlen (s.reg r) (e.reg r) := by
  obtain ⟨_, _, _, _, _, _, _, _, hreg, _⟩ := h
  exact hreg r

theorem becomes_flags : t.flags = e.flags.getD s.flags := by
  obtain ⟨_, _, _, _, _, _, _, _, _, hflags, _⟩ := h
  exact hflags

theorem becomes_pc : t.pc = stored s.config.xlen s.pc e.pc := by
  obtain ⟨_, _, _, _, _, _, _, _, _, _, hpc, _⟩ := h
  exact hpc

theorem becomes_cell (a : Nat) : t.cell a = e.cellAfter s a := by
  obtain ⟨_, _, _, _, _, _, _, _, _, _, _, _, hcell, _⟩ := h
  exact hcell a

/-- The cell that the next pop reads is the one that was pushed. -/
theorem popCell_of_push (hs : s.wf) (hsp : e.reg = writes .sp ((s.reg .sp : Int) - 1)) : popCell t = s.reg .sp := by
  rw [popCell, becomes_reg h, becomes_config h, hsp]
  simp only [writes, if_true, stored]
  rw [trunc_trunc_add, Int.sub_add_cancel, trunc_of_lt (State.reg_lt hs .sp)]

/-- It holds the value that was pushed, which fits in a cell (R51). -/
theorem cell_of_push (hs : s.wf) {v : Nat} (hcell : e.cell = some (s.reg .sp, (v : Int)))
    (hv : v < 2 ^ s.config.xlen) : t.cell (s.reg .sp) = v := by
  rw [becomes_cell h, Effect.cellAfter, hcell]
  simp only [if_true]
  rw [Config.cellw_eq (State.wf_config hs), trunc_of_lt hv]

/-- The next pop is permitted where the push was. -/
theorem permits_of_push (hs : s.wf) (hsp : e.reg = writes .sp ((s.reg .sp : Int) - 1)) (hp : e.priv = none)
    (hpush : s.permits (s.reg .sp) = true) : t.permits (popCell t) = true := by
  rw [popCell_of_push h hs hsp, becomes_permits h hp, hpush]

/-- The pop after it brings `SP` back, and the registers it does not write are as before the push. -/
theorem reg_of_push_pop (hs : s.wf) (hsp : e.reg = writes .sp ((s.reg .sp : Int) - 1)) {u : State} {e' : Effect}
    (h' : t.Becomes u e') {r : Reg}
    (hr : e'.reg r = if r = .sp then some ((t.reg .sp : Int) + 1) else none) : u.reg r = s.reg r := by
  rw [becomes_reg h', hr]
  split
  · rename_i hr
    subst hr
    exact popCell_of_push h hs hsp
  · rename_i hne
    rw [stored, becomes_reg h, hsp, writes, if_neg hne, stored]

end

/-- Settles O48: the pop of RTS reads the cell that JSR pushed. -/
theorem callThenReturnComesBack : Obligations.CallThenReturnComesBack := by
  unfold Obligations.CallThenReturnComesBack
  intro op rest ops s hs hp
  obtain ⟨t, ht, hpush⟩ := callPushesTheReturnAddress op rest s hp
  obtain ⟨u, hu, hpop⟩ :=
    returnsPopTheProgramCounter Instr.rts (.head _) ops t (permits_of_push hpush hs rfl rfl hp)
  refine ⟨t, u, ht, hu, ?_, fun r => reg_of_push_pop hpush hs rfl hpop rfl⟩
  rw [becomes_pc hpop]
  simp only [jumpEffect, stored]
  rw [popCell_of_push hpush hs rfl, cell_of_push hpush hs rfl (trunc_lt _ _), becomes_config hpush, trunc_trunc]

/-- The flags of a well-formed machine survive the pull's mask (R29, R190). -/
theorem and_flagMask_of_reserved {f : Byte} (h : ReservedFlagsClear f) : f &&& flagMask = f := by
  have hsplit : f &&& (flagMask ||| ~~~flagMask) = f := BitVec.and_allOnes
  rw [BitVec.and_or_distrib_left, h] at hsplit
  exact (BitVec.or_zero (x := f &&& flagMask)).symm.trans hsplit

/-- Settles O52: the pull reads the cell that was pushed, whole. -/
theorem pushThenPullRestores : Obligations.PushThenPullRestores := by
  unfold Obligations.PushThenPullRestores
  intro ops ops' s hs hp
  constructor
  · obtain ⟨t, ht, hpush⟩ := pushesStoreOneCell (Instr.pha, fun s => s.reg .a) (.head _) ops s hp
    obtain ⟨u, hu, hpop⟩ := (pullsLoadOneCell ops' t (permits_of_push hpush hs rfl rfl hp)).1
    refine ⟨t, u, ht, hu, fun r => ?_, by rw [becomes_flags hpop, becomes_flags hpush]; rfl⟩
    by_cases ha : r = .a
    · subst ha
      rw [becomes_reg hpop]
      simp only [if_true, stored]
      rw [popCell_of_push hpush hs rfl, cell_of_push hpush hs rfl (State.reg_lt hs .a), becomes_config hpush,
        trunc_of_lt (State.reg_lt hs .a)]
    · exact reg_of_push_pop hpush hs rfl hpop (if_neg ha)
  · obtain ⟨t, ht, hpush⟩ := pushesStoreOneCell (Instr.php, fun s => s.flags.toNat) (.tail _ (.head _)) ops s hp
    obtain ⟨u, hu, hpop⟩ := (pullsLoadOneCell ops' t (permits_of_push hpush hs rfl rfl hp)).2
    refine ⟨t, u, ht, hu, fun r => reg_of_push_pop hpush hs rfl hpop rfl, ?_⟩
    have hfits : s.flags.toNat < 2 ^ s.config.xlen := by
      have := Config.le_two_pow_xlen (State.wf_config hs)
      omega
    rw [becomes_flags hpop]
    simp only [Option.getD_some]
    rw [popCell_of_push hpush hs rfl, cell_of_push hpush hs rfl hfits, BitVec.ofNat_toNat, BitVec.setWidth_eq]
    exact and_flagMask_of_reserved (State.flags_reserved hs)

/-! ### HLT -/

/-- Settles O57: its two endings, field by field. -/
theorem haltEndsTheProcess : Obligations.HaltEndsTheProcess := by
  unfold Obligations.HaltEndsTheProcess
  intro ops s
  obtain ⟨hcur, h⟩ | ⟨hcur, h⟩ := exec_hlt ops s
  · refine ⟨_, h, hcur, rfl, rfl, rfl, rfl, rfl, by rw [hcur]; rfl, fun _ => rfl,
      fun q hq => State.find_setPc (s.report _) q _ hq, fun hne => absurd hcur hne, fun _ => ⟨?_, fun _ _ => rfl⟩⟩
    have hfile := State.file_setPc (s.report ⟨0, s.reg .a⟩) 0 (s.nextPc ops.length : Nat)
    rw [State.report_cur, hcur, if_pos rfl] at hfile
    exact hfile
  · exact ⟨_, h, rfl, rfl, rfl, rfl, rfl, rfl, rfl, fun _ => rfl,
      fun q hq => haltEnds_find (h ▸ exec_hlt ops s) hq,
      fun _ => ⟨by simp, owns_removeProc (s.report _) s.cur⟩, fun h0 => absurd h0 hcur⟩

/-! ### Operands after the first -/

section

variable (op : Operand) {rest rest' : List Operand} (h : rest.length = rest'.length) (s : State)

include h

theorem loadReg_rest (r : Reg) : loadReg r (op :: rest) s = loadReg r (op :: rest') s := by
  simp only [loadReg, withOperand, List.length_cons, h]

theorem storeReg_rest (r : Reg) : storeReg r (op :: rest) s = storeReg r (op :: rest') s := by
  simp only [storeReg, withTarget, List.length_cons, h]

theorem copyReg_rest (r r' : Reg) : copyReg r r' (op :: rest) s = copyReg r r' (op :: rest') s := by
  simp only [copyReg, List.length_cons, h]

theorem modifyTarget_rest (f : Nat → Int) : modifyTarget f (op :: rest) s = modifyTarget f (op :: rest') s := by
  simp only [modifyTarget, withTarget, List.length_cons, h]

theorem modifyReg_rest (f : Nat → Int) (r : Reg) : modifyReg f r (op :: rest) s = modifyReg f r (op :: rest') s := by
  simp only [modifyReg, List.length_cons, h]

theorem accumulate_rest (f : Nat → Nat → Int) : accumulate f (op :: rest) s = accumulate f (op :: rest') s := by
  simp only [accumulate, withOperand, List.length_cons, h]

theorem accumulateDivide_rest (f : Nat → Nat → Int) :
    accumulateDivide f (op :: rest) s = accumulateDivide f (op :: rest') s := by
  simp only [accumulateDivide, withOperand, List.length_cons, h]

theorem compareReg_rest (r : Reg) : compareReg r (op :: rest) s = compareReg r (op :: rest') s := by
  simp only [compareReg, withOperand, List.length_cons, h]

theorem branch_rest (b : Bool) : branch b (op :: rest) s = branch b (op :: rest') s := by
  simp only [branch, withOperand, List.length_cons, h]

theorem modifyFlags_rest (f : Byte → Byte) : modifyFlags f (op :: rest) s = modifyFlags f (op :: rest') s := by
  simp only [modifyFlags, List.length_cons, h]

theorem pushValue_rest (v : Nat) : pushValue v (op :: rest) s = pushValue v (op :: rest') s := by
  simp only [pushValue, List.length_cons, h]

theorem popValue_rest (k : Nat → State → State) : popValue k (op :: rest) s = popValue k (op :: rest') s := by
  simp only [popValue, List.length_cons, h]

theorem finish_rest : finish (op :: rest).length s = finish (op :: rest').length s := by
  rw [List.length_cons, List.length_cons, h]

end

/-- Settles O35: each shape uses `op[0]` and the number of the operands. -/
theorem extraOperandsAreIgnored : Obligations.ExtraOperandsAreIgnored := by
  unfold Obligations.ExtraOperandsAreIgnored
  intro m op rest rest' s h
  cases m
  case nop | clp | swt | out => exact finish_rest op h _
  case syscall | int | rts | rti | jmp => rfl
  case lda | ldx | ldy => exact loadReg_rest op h s _
  case sta | stx | sty => exact storeReg_rest op h s _
  case tax | tay | tsx | txa | txs | tya => exact copyReg_rest op h s _ _
  case inc | dec =>
    simp only [Mnemonic.make, exec, execInc, execDec]
    exact modifyTarget_rest op h s _
  case ina | inx | iny | dex | dey | shl | lsr | rol | ror =>
    simp only [Mnemonic.make, exec, execIna, execInx, execIny, execDex, execDey, execShl, execLsr, execRol, execRor]
    exact modifyReg_rest op h s _ _
  case add | sub | mul | and | ora | xor =>
    simp only [Mnemonic.make, exec, execAdd, execSub, execMul, execAnd, execOra, execXor]
    exact accumulate_rest op h s _
  case div | mod =>
    simp only [Mnemonic.make, exec, execDiv, execMod]
    exact accumulateDivide_rest op h s _
  case bit => simp only [Mnemonic.make, exec, execBit, withOperand, List.length_cons, h]
  case jsr => simp only [Mnemonic.make, exec, execJsr, withOperand, List.length_cons, h]
  case bcc | bcs | beq | bne | bmi | bpl | bvc | bvs => exact branch_rest op h s _
  case sec | clc | sed | cld | clv => exact modifyFlags_rest op h s _
  case pha | php => exact pushValue_rest op h s _
  case pla | plp => exact popValue_rest op h s _
  case cmp | cpx | cpy => exact compareReg_rest op h s _
  case hlt => simp only [Mnemonic.make, exec, execHlt, List.length_cons, h]
  case inp => simp only [Mnemonic.make, exec, execInp, List.length_cons, h]

end Sys2Proof.Machine
end
